-- ==== Sys2Proof/Word.lean ====
section
/-! DEFINITION. The word types of the block: bytes, 32-bit bus words, nibbles, window offsets and
binary32 bit patterns (spec/00_scope.md R9, R12; spec/20_memory.md R70). -/

namespace Sys2Proof

/-- One byte of a buffer (spec/20_memory.md R78: each byte address holds one byte). -/
abbrev Byte := BitVec 8

/-- A 32-bit word of the host bus: a register's value, a command word, the data of an access
(spec/10_state.md R30, spec/30_encoding.md R100). -/
abbrev Word := BitVec 32

/-- A 4-bit quantized AC coefficient (spec/00_scope.md R19, "nibble"). -/
abbrev Nibble := BitVec 4

/-- An offset into the block's window of 0x20000 = 2^17 bytes (spec/20_memory.md R70). -/
abbrev Offset := BitVec 17

/-- An IEEE 754 binary32 number as its 32-bit pattern (spec/00_scope.md R12). -/
abbrev F32 := BitVec 32

/-- The bytes of a word in the order of the little-endian host bus, the byte at the lowest address
first (spec/20_memory.md R78). -/
def wordBytes (w : Word) : List Byte :=
  [w.extractLsb' 0 8, w.extractLsb' 8 8, w.extractLsb' 16 8, w.extractLsb' 24 8]

end Sys2Proof
end

