-- ==== Sys2Proof/Config.lean ====
section
/-! DEFINITION. What an implementation of the block fixes (spec/00_scope.md R6, R7), and the values
the spec leaves open, as constants without a body (R8, R16; spec/10_state.md R52; spec/20_memory.md
R83). Nothing in Lean can evaluate an opaque constant or prove a value of it. -/

namespace Sys2Proof.Config

/-- MAX_W: the largest encode input width (R6). -/
def maxW : Nat := 100
/-- MAX_H: the largest encode input height (R6). -/
def maxH : Nat := 100
/-- OUT_LONG: the long side of every decoded image, in pixels (R6). -/
def outLong : Nat := 32
/-- L_LIMIT_OPAQUE: L grid cells on the long axis without alpha (R6). -/
def lLimitOpaque : Nat := 7
/-- L_LIMIT_ALPHA: L grid cells on the long axis with alpha (R6). -/
def lLimitAlpha : Nat := 5
/-- PQ_GRID: both dimensions of the P and Q grids (R6). -/
def pqGrid : Nat := 3
/-- A_GRID: both dimensions of the A grid (R6). -/
def aGrid : Nat := 5
/-- MIN_GRID: the smallest L grid dimension used for the DCT and the scan (R6). -/
def minGrid : Nat := 3
/-- HEADER_BYTES: the header length without and with the alpha byte (R6, R103). -/
def headerBytes (hasAlpha : Bool) : Nat := if hasAlpha then 6 else 5
/-- ID_VALUE: the constant the ID register reads as (R7, R31). -/
def idValue : Word := 0x54480001

/-- WINDOW: the number of bytes the block decodes (R7, R70). -/
def windowSize : Nat := 0x20000
/-- The end of the register region: 15 words (R70). -/
def regsEnd : Nat := 0x3C
/-- The window offset of HASHBUF (R70). -/
def hashBase : Nat := 0x100
/-- HASHBUF_SIZE (R7). -/
def hashSize : Nat := 32
/-- The window offset of PIXOUT (R70). -/
def pixoutBase : Nat := 0x1000
/-- PIXOUT_SIZE (R7). -/
def pixoutSize : Nat := 4096
/-- The window offset of PIXIN (R70). -/
def pixinBase : Nat := 0x10000
/-- PIXIN_SIZE (R7). -/
def pixinSize : Nat := 40000

/-- P_COS, the cosine unit `cos32`: a total function of its operand alone (R8, R16).
FREE VALUE: its accuracy and algorithm are open (DESIGN CHOICE, safe: notes/assumptions/6.md). -/
opaque cos32 : F32 → F32

/-- P_LAT: the host bus cycles from the acceptance of a command to its completion, which may differ
between commands and between runs (R8, spec/70_reset_and_hazards.md R350).
FREE VALUE, one for each draw number; a latency below 1 is read as 1 (DESIGN CHOICE, safe:
notes/assumptions/3.md). -/
opaque pLat : Nat → Nat

/-- P_BASE divided by the window's size: the base address is a multiple of 0x20000 (R8, R70).
FREE VALUE (DESIGN CHOICE, safe: notes/assumptions/7.md). -/
opaque pBaseIndex : Nat

/-- P_BASE, the host address at which the block's window starts (R8, R70). -/
def pBase : Nat := pBaseIndex * windowSize

/-- What a byte of PIXIN, HASHBUF or PIXOUT reads as while it has not been written since reset
number `resets`, by its window offset (R52, R332; spec/93_implementation_defined.md U1).
FREE VALUE, "fixed once drawn until the next write" (DESIGN CHOICE, safe: notes/assumptions/4.md). -/
opaque unwrittenByte (resets : Nat) (addr : Nat) : Byte

/-- What a host read of a result location returns while BUSY = 1 (R83;
spec/93_implementation_defined.md U3). FREE VALUE, "a fresh draw per read" (DESIGN CHOICE, safe:
notes/assumptions/5.md). -/
opaque busyRead : Nat → Word

/-- What a host read outside the block's window returns: the platform answers it, not the block
(R70; spec/93_implementation_defined.md U18). FREE VALUE, one for each draw number (DESIGN
CHOICE, safe: notes/assumptions/7.md). -/
opaque outsideRead : Nat → Word

/-- Whether a host access outside the block's window gets an error response: the platform answers it,
not the block (R70; spec/93_implementation_defined.md U18; spec/60_exceptions.md R315). FREE VALUE, one
for each draw number (DESIGN CHOICE, safe: notes/assumptions/7.md). -/
opaque outsideError : Nat → Bool

/-- `fmax(a, b)` where an operand is NaN, for which spec/00_scope.md R17 states no result.
FREE VALUE, a function of the operands (DESIGN CHOICE, safe: notes/assumptions/9.md). -/
opaque fmaxNaN : F32 → F32 → F32

/-- What a name of a host program holds before the program reads into it, for which
spec/30_encoding.md R118 states no value. FREE VALUE (DESIGN CHOICE, safe: notes/assumptions/2.md). -/
opaque unsetName : Nat → Word

end Sys2Proof.Config
end

