-- ==== Sys2Proof/Machine/Header.lean ====
section
/-! DEFINITION. The hash wire format: the header record, its bit positions, the grids, the
coefficient scan order and the length function (spec/30_encoding.md R103 to R116). -/

namespace Sys2Proof.Machine

/-- The alpha byte's two fields, present only with alpha (R106, R107). -/
structure AlphaField where
  /-- alpha DC, bits 3:0 of byte 5 -/
  aDc : BitVec 4
  /-- alpha AC scale, bits 7:4 of byte 5 -/
  aScale : BitVec 4
deriving DecidableEq, Repr

/-- The header record (R106). `alpha` is absent without alpha (R107). -/
structure Header where
  /-- luminance DC, h24[5:0] -/
  lDc : BitVec 6
  /-- P DC, h24[11:6] -/
  pDc : BitVec 6
  /-- Q DC, h24[17:12] -/
  qDc : BitVec 6
  /-- luminance AC scale, h24[22:18] -/
  lScale : BitVec 5
  /-- alpha-channel-present flag, h24[23] -/
  hasAlpha : Bool
  /-- l_limit_value, the non-dominant L grid dimension, h16[2:0] -/
  lMin : BitVec 3
  /-- P AC scale, h16[8:3] -/
  pScale : BitVec 6
  /-- Q AC scale, h16[14:9] -/
  qScale : BitVec 6
  /-- width > height at encode time, h16[15] -/
  isLandscape : Bool
  /-- the alpha byte -/
  alpha : Option AlphaField
deriving DecidableEq, Repr

/-- R104, R220: the 24-bit header word, packed from bit 0 upward. -/
def h24Of (h : Header) : BitVec 24 :=
  h.lDc.setWidth 24 ||| (h.pDc.setWidth 24 <<< 6) ||| (h.qDc.setWidth 24 <<< 12) |||
    (h.lScale.setWidth 24 <<< 18) ||| ((BitVec.ofBool h.hasAlpha).setWidth 24 <<< 23)

/-- R105, R221: the 16-bit header word. -/
def h16Of (h : Header) : BitVec 16 :=
  h.lMin.setWidth 16 ||| (h.pScale.setWidth 16 <<< 3) ||| (h.qScale.setWidth 16 <<< 9) |||
    ((BitVec.ofBool h.isLandscape).setWidth 16 <<< 15)

/-- R107, R223: the alpha byte, `a_dc | (a_scale << 4)`. -/
def alphaByteOf (a : AlphaField) : Byte := a.aDc.setWidth 8 ||| (a.aScale.setWidth 8 <<< 4)

/-- R104, R241: `h24 = byte0 | byte1 << 8 | byte2 << 16`. -/
def h24FromBytes (b0 b1 b2 : Byte) : BitVec 24 :=
  b0.setWidth 24 ||| (b1.setWidth 24 <<< 8) ||| (b2.setWidth 24 <<< 16)

/-- R105, R241: `h16 = byte3 | byte4 << 8`. -/
def h16FromBytes (b3 b4 : Byte) : BitVec 16 := b3.setWidth 16 ||| (b4.setWidth 16 <<< 8)

/-- R241: the fields of the two header words. The alpha byte is not among them. -/
def fieldsOf (h24 : BitVec 24) (h16 : BitVec 16) : Header where
  lDc := h24.extractLsb' 0 6
  pDc := h24.extractLsb' 6 6
  qDc := h24.extractLsb' 12 6
  lScale := h24.extractLsb' 18 5
  hasAlpha := h24.getLsbD 23
  lMin := h16.extractLsb' 0 3
  pScale := h16.extractLsb' 3 6
  qScale := h16.extractLsb' 9 6
  isLandscape := h16.getLsbD 15
  alpha := none

/-- R107, R243: the fields of the alpha byte. -/
def alphaFieldOf (b : Byte) : AlphaField where
  aDc := b.extractLsb' 0 4
  aScale := b.extractLsb' 4 4

/-- R108: `l_max`, the L grid cells on the long axis. -/
def lMaxOf (hasAlpha : Bool) : Nat := if hasAlpha then Config.lLimitAlpha else Config.lLimitOpaque

/-- R108: the L grid dimensions (lx, ly) before the MIN_GRID clamp. -/
def lGridOf (h : Header) : Nat × Nat :=
  if h.isLandscape then (lMaxOf h.hasAlpha, h.lMin.toNat) else (h.lMin.toNat, lMaxOf h.hasAlpha)

/-- R113: the L grid used for the DCT and the scan, each dimension at least MIN_GRID. -/
def clampGrid (g : Nat × Nat) : Nat × Nat := (max Config.minGrid g.1, max Config.minGrid g.2)

/-- R111: `Scan(nx, ny)`, the triangular set in scan order, cy outer and cx inner. The `while` over
cx stops before nx, since `cx*ny < nx*(ny-cy)` fails from `cx = nx` on. -/
def scan (nx ny : Nat) : List (Nat × Nat) :=
  (List.range ny).flatMap fun cy =>
    ((List.range nx).takeWhile fun cx => decide (cx * ny < nx * (ny - cy))).map fun cx => (cx, cy)

/-- R111: the AC entries of a grid, in order: `Scan(nx, ny)[1..]`. -/
def acScan (nx ny : Nat) : List (Nat × Nat) := (scan nx ny).drop 1

/-- R112: `NAC(nx, ny)`. -/
def nac (nx ny : Nat) : Nat := (scan nx ny).length - 1

/-- R114: `N_total` for an unclamped L grid: NAC of the L grid, 5 for P, 5 for Q, 14 for A. -/
def nTotalOf (hasAlpha : Bool) (lxy : Nat × Nat) : Nat :=
  nac (clampGrid lxy).1 (clampGrid lxy).2 + nac Config.pqGrid Config.pqGrid +
    nac Config.pqGrid Config.pqGrid + (if hasAlpha then nac Config.aGrid Config.aGrid else 0)

/-- R114: `HashLen(header) = H + ceil(N_total / 2)`. -/
def hashLenOf (h : Header) : Nat :=
  Config.headerBytes h.hasAlpha + (nTotalOf h.hasAlpha (lGridOf h) + 1) / 2

end Sys2Proof.Machine
end

