-- ==== Sys2Proof/Machine/BitPacker.lean ====
section
/-! DEFINITION. bit_packer, the hash serializer (spec/44_bit_packer.md R220 to R230). -/

namespace Sys2Proof.Machine

/-- R222: the five header bytes. -/
def headerBytesOf (h : Header) : List Byte :=
  let h24 := h24Of h
  let h16 := h16Of h
  [h24.extractLsb' 0 8, h24.extractLsb' 8 8, h24.extractLsb' 16 8,
   h16.extractLsb' 0 8, h16.extractLsb' 8 8]

/-- R223: the alpha byte, emitted only with alpha. -/
def alphaBytesOf (h : Header) : List Byte :=
  match h.alpha with
  | some a => if h.hasAlpha then [alphaByteOf a] else []
  | none => []

/-- R225: the state of the nibble packer. It exists only while a completion step packs. -/
inductive PackState where
  /-- no nibble is waiting -/
  | empty
  /-- a nibble is waiting to become a byte's low nibble -/
  | pendingLowNibble (b : Nibble)
deriving DecidableEq, Repr

/-- The byte with low nibble `lo` and high nibble `hi`: `lo | (hi << 4)` (R227). -/
def nibblePair (lo hi : Nibble) : Byte := lo.setWidth 8 ||| (hi.setWidth 8 <<< 4)

/-- R226 to R228: the bytes the packer emits for a nibble list from a state. At the end of the list
a waiting nibble is emitted with high nibble 0. -/
def packNibbles : PackState → List Nibble → List Byte
  | .empty, [] => []
  | .pendingLowNibble b, [] => [nibblePair b 0]
  | .empty, n :: rest => packNibbles (.pendingLowNibble n) rest
  | .pendingLowNibble b, n :: rest => nibblePair b n :: packNibbles .empty rest

/-- R230 `Pack(hdr, nib)`. -/
def pack (h : Header) (nib : List Nibble) : List Byte :=
  headerBytesOf h ++ alphaBytesOf h ++ packNibbles .empty nib

end Sys2Proof.Machine
end

