-- ==== Sys2Proof/Machine/Float32.lean ====
section
/-! DEFINITION. IEEE 754 binary32 arithmetic on bit patterns (spec/00_scope.md R12 to R18). Every
finite binary32 number is a whole number of units of 2^-149, so each operation computes its exact
result in units and rounds once, to nearest with ties to even. -/

namespace Sys2Proof.Machine

/-- The sign bit. -/
def fSign (x : F32) : Bool := x.getLsbD 31
/-- The pattern without its sign bit, as a natural number. -/
def fMag (x : F32) : Nat := x.toNat % 2 ^ 31
/-- The magnitude pattern of infinity. -/
def infMag : Nat := 0x7F800000

/-- NaN: exponent field all ones, fraction not 0. -/
def fIsNaN (x : F32) : Bool := infMag < fMag x
/-- Plus or minus infinity. -/
def fIsInf (x : F32) : Bool := fMag x == infMag
/-- Plus or minus zero. -/
def fIsZero (x : F32) : Bool := fMag x == 0

/-- A finite number: neither NaN nor infinity. -/
def fFinite (x : F32) : Prop := fMag x < infMag

/-- The value of a finite magnitude pattern in units of 2^-149. -/
def magUnits (mag : Nat) : Nat :=
  if mag / 2 ^ 23 = 0 then mag % 2 ^ 23 else (2 ^ 23 + mag % 2 ^ 23) * 2 ^ (mag / 2 ^ 23 - 1)

/-- The magnitude of a finite number in units of 2^-149. -/
def fUnits (x : F32) : Nat := magUnits (fMag x)

/-- A finite number as a whole number of units of 2^-149. -/
def fInt (x : F32) : Int := if fSign x then -(fUnits x : Int) else fUnits x

/-- The pattern of a sign and a magnitude pattern. -/
def fPack (neg : Bool) (mag : Nat) : F32 := BitVec.ofNat 32 (if neg then 2 ^ 31 + mag else mag)

/-- The NaN an operation returns. DESIGN CHOICE, safe (notes/assumptions/8.md): the spec speaks of
NaN without a payload, and no rule lets one be observed. -/
def fNaN : F32 := 0x7FC00000

/-- The magnitude pattern nearest to `num / den` units of 2^-149, ties to even, with the exponent
unbounded (R12). `e` counts the binades above the one whose last place is 2^-149, and `e * 2^23 + m`
is the magnitude pattern, so a carry out of the significand enters the exponent. -/
def roundMag (num den : Nat) : Nat :=
  let e := Nat.log2 (num / den) - 23
  let d := den * 2 ^ e
  let m := num / d
  let r := num % d
  e * 2 ^ 23 + (if d < 2 * r ∨ (2 * r = d ∧ m % 2 = 1) then m + 1 else m)

/-- Round `num / den` units of 2^-149 to binary32; a magnitude past the largest finite one becomes
infinity (R12). -/
def fRound (neg : Bool) (num den : Nat) : F32 := fPack neg (min (roundMag num den) infMag)

/-- The number with the opposite sign. -/
def fNeg (x : F32) : F32 := x ^^^ 0x80000000

/-- R12 `+`. An exact zero sum is -0 only when both operands are negative (round to nearest). -/
def fAdd (x y : F32) : F32 :=
  if fIsNaN x || fIsNaN y then fNaN
  else if fIsInf x then (if fIsInf y && (fSign x != fSign y) then fNaN else x)
  else if fIsInf y then y
  else
    let v := fInt x + fInt y
    if v = 0 then fPack (fSign x && fSign y) 0 else fRound (v < 0) v.natAbs 1

/-- R12 `-`. -/
def fSub (x y : F32) : F32 := fAdd x (fNeg y)

/-- R12 `*`. -/
def fMul (x y : F32) : F32 :=
  let neg := fSign x != fSign y
  if fIsNaN x || fIsNaN y then fNaN
  else if fIsInf x || fIsInf y then
    (if fIsZero x || fIsZero y then fNaN else fPack neg infMag)
  else fRound neg (fUnits x * fUnits y) (2 ^ 149)

/-- R12 `/`. Division by zero gives infinity, or NaN for 0/0. -/
def fDiv (x y : F32) : F32 :=
  let neg := fSign x != fSign y
  if fIsNaN x || fIsNaN y then fNaN
  else if fIsInf x then (if fIsInf y then fNaN else fPack neg infMag)
  else if fIsInf y then fPack neg 0
  else if fIsZero y then (if fIsZero x then fNaN else fPack neg infMag)
  else fRound neg (fUnits x * 2 ^ 149) (fUnits y)

/-- `f32(n)`: a natural number as a binary32 number, exact below 2^24 (R12). -/
def f32 (n : Nat) : F32 := fRound false (n * 2 ^ 149) 1

/-- The order of the binary32 numbers that are not NaN; both zeros have key 0. -/
def fKey (x : F32) : Int := if fSign x then -(fMag x : Int) else fMag x

/-- R18 `<`: exact, and false with a NaN. -/
def fLt (x y : F32) : Bool := !fIsNaN x && !fIsNaN y && decide (fKey x < fKey y)
/-- R18 `≤`. -/
def fLe (x y : F32) : Bool := !fIsNaN x && !fIsNaN y && decide (fKey x ≤ fKey y)

/-- R14 `roundHA`: the nearest integral number, ties away from zero. The sign is kept, so a small
negative number gives -0 (R15); NaN and infinities are unchanged. -/
def roundHA (x : F32) : F32 :=
  if fIsNaN x || fIsInf x then x
  else fRound (fSign x) ((2 * fUnits x + 2 ^ 149) / 2 ^ 150 * 2 ^ 149) 1

/-- R15 `toU_N`: the saturating conversion to an N-bit unsigned integer; NaN gives 0. -/
def toU (n : Nat) (x : F32) : Nat :=
  if fIsNaN x || fSign x || fIsZero x then 0
  else if fIsInf x || decide (2 ^ n - 1 ≤ fUnits x / 2 ^ 149) then 2 ^ n - 1
  else fUnits x / 2 ^ 149

/-- R17 `abs`: clears the sign. -/
def fAbs (x : F32) : F32 := x &&& 0x7FFFFFFF

/-- R17 `fmax`: the larger of two numbers that are not NaN. With a NaN operand (which only a cosine
unit that returns NaN or infinity can bring about) R17 states no result: a free value. -/
def fMax (x y : F32) : F32 :=
  if fIsNaN x || fIsNaN y then Config.fmaxNaN x y else if fLt x y then y else x

/-- 1. -/
def fOne : F32 := 0x3F800000
/-- 0.5. -/
def fHalf : F32 := 0x3F000000
/-- 1.25, the P and Q scale boost PQ_BOOST (R6). -/
def fBoost : F32 := 0x3FA00000
/-- 7.5. -/
def f7_5 : F32 := 0x40F00000
/-- 31.5. -/
def f31_5 : F32 := 0x41FC0000
/-- R13 `PI32`. -/
def pi32 : F32 := 0x40490FDB
/-- R13 `TWO_THIRDS`. -/
def twoThirds : F32 := 0x3F2AAAAB

/-- R17 `clamp01(x) = min(max(x, 0), 1)`; NaN gives 0. The zero of `max(-0, 0)` is +0
(DESIGN CHOICE, unsafe in form, notes/assumptions/10.md: no header reaches it). -/
def clamp01 (x : F32) : F32 := if fLt 0 x then (if fLt fOne x then fOne else x) else 0

end Sys2Proof.Machine
end

