-- ==== Sys2Proof/Machine/LpqConverter.lean ====
section
/-! DEFINITION. luminance_chrominance_converter (spec/41_lpq_converter.md R160 to R167). -/

namespace Sys2Proof.Machine

/-- One RGBA pixel (spec/00_scope.md R10). -/
structure Pixel where
  r : Byte
  g : Byte
  b : Byte
  a : Byte
deriving DecidableEq, Repr

/-- Four binary32 numbers, one for each colour component and alpha. -/
structure Rgba where
  r : F32
  g : F32
  b : F32
  a : F32
deriving DecidableEq, Repr

/-- The pixels of an RGBA byte list in pixel order: pixel i is bytes 4i to 4i+3
(spec/00_scope.md R10, spec/20_memory.md R71). -/
def toPixels : List Byte → List Pixel
  | r :: g :: b :: a :: rest => ⟨r, g, b, a⟩ :: toPixels rest
  | _ => []

/-- `f32(v) / 255` for an alpha byte (R160, R164). -/
def alphaOf (p : Pixel) : F32 := fDiv (f32 p.a.toNat) (f32 255)

/-- One turn of R160's loop. -/
def averageStep (acc : Rgba) (p : Pixel) : Rgba :=
  let alpha := alphaOf p
  let k := fDiv alpha (f32 255)
  { r := fAdd acc.r (fMul k (f32 p.r.toNat))
    g := fAdd acc.g (fMul k (f32 p.g.toNat))
    b := fAdd acc.b (fMul k (f32 p.b.toNat))
    a := fAdd acc.a alpha }

/-- R160 `AverageColour`: the alpha-weighted average, summed in pixel order. -/
def averageColour (px : List Pixel) : Rgba :=
  let s := px.foldl averageStep ⟨0, 0, 0, 0⟩
  if fLt 0 s.a then ⟨fDiv s.r s.a, fDiv s.g s.a, fDiv s.b s.a, s.a⟩ else s

/-- R161 `HasAlpha(avg_a, w, h)`. -/
def hasAlphaOf (avgA : F32) (w h : Nat) : Bool := fLt avgA (f32 (w * h))

/-- One entry of the four channel planes (R162). -/
structure Lpqa where
  l : F32
  p : F32
  q : F32
  a : F32
deriving DecidableEq, Repr

/-- `avg * (1 - alpha) + (alpha / 255) * f32(v)`, R162's compositing of one component. -/
def composite (avg alpha : F32) (v : Byte) : F32 :=
  fAdd (fMul avg (fSub fOne alpha)) (fMul (fDiv alpha (f32 255)) (f32 v.toNat))

/-- R162, R164: composite one pixel over the average colour and project it. -/
def project (avg : Rgba) (px : Pixel) : Lpqa :=
  let alpha := alphaOf px
  let r := composite avg.r alpha px.r
  let g := composite avg.g alpha px.g
  let b := composite avg.b alpha px.b
  { l := fDiv (fAdd (fAdd r g) b) (f32 3)
    p := fSub (fDiv (fAdd r g) (f32 2)) b
    q := fSub r g
    a := alpha }

/-- R162 `Planes`: the four planes as one list of entries, indexed i = x + y*w. -/
def planes (avg : Rgba) (px : List Pixel) : List Lpqa := px.map (project avg)

/-- R165 `InverseLPQ(l, p, q)`: (r, g, b), not yet clamped. -/
def inverseLpq (l p q : F32) : F32 × F32 × F32 :=
  let b := fSub l (fMul twoThirds p)
  let r := fDiv (fAdd (fSub (fMul (f32 3) l) b) q) (f32 2)
  let g := fSub r q
  (r, g, b)

/-- R166 `Byte8(v) = toU_8(255 * clamp01(v))`: truncation after the clamp. -/
def byte8 (v : F32) : Byte := BitVec.ofNat 8 (toU 8 (fMul (f32 255) (clamp01 v)))

end Sys2Proof.Machine
end

