-- ==== Sys2Proof/Machine/BitUnpacker.lean ====
section
/-! DEFINITION. bit_unpacker, the hash deserializer, and its two header-only peeks
(spec/45_bit_unpacker.md R240 to R252), with the dequantized DC values the peek of the average
colour shares with DECODE (spec/46_dequantizer.md R260 to R262, R266, R267). -/

namespace Sys2Proof.Machine

/-- The codes a command can raise (spec/60_exceptions.md R301). -/
inductive CmdError where
  /-- ERR 1: the hash has fewer bytes than a read point needs (R302). -/
  | tooShort
  /-- ERR 2: image too large, empty, or the wrong byte count (R303). -/
  | contractViolation
  /-- ERR 3: a command word outside the opcode map (R304). -/
  | illegalCommand
deriving DecidableEq, Repr

/-- R240, R241: the header fields of the first five bytes, without the alpha byte. -/
def unpackFixed (hb : List Byte) : Except CmdError Header :=
  if hb.length < 5 then .error .tooShort
  else .ok (fieldsOf (h24FromBytes (hb.getD 0 0) (hb.getD 1 0) (hb.getD 2 0))
    (h16FromBytes (hb.getD 3 0) (hb.getD 4 0)))

/-- R243: the alpha byte, read only when has_alpha = 1. -/
def unpackAlpha (hb : List Byte) (h : Header) : Except CmdError Header :=
  if h.hasAlpha then
    if hb.length < 6 then .error .tooShort
    else .ok { h with alpha := some (alphaFieldOf (hb.getD 5 0)) }
  else .ok h

/-- R241, R243 `UnpackHeader(hb)`. -/
def unpackHeader (hb : List Byte) : Except CmdError Header :=
  match unpackFixed hb with
  | .error e => .error e
  | .ok h => unpackAlpha hb h

/-- R245: nibble k of the AC stream that starts at offset `start`:
`(hb[H + (k >> 1)] >> (4 * (k & 1))) & 0xF`. -/
def nibbleAt (hb : List Byte) (start k : Nat) : Nibble :=
  (hb.getD (start + k / 2) 0 >>> (4 * (k % 2))).setWidth 4

/-- R245 `UnpackAC(hb, hdr)`, as one list of N_total nibbles. The one length test stands for a test
at every read point (R248). -/
def unpackAc (hb : List Byte) (h : Header) : Except CmdError (List Nibble) :=
  if hb.length < hashLenOf h then .error .tooShort
  else .ok ((List.range (nTotalOf h.hasAlpha (lGridOf h))).map
    (nibbleAt hb (Config.headerBytes h.hasAlpha)))

/-- R246: the state of the nibble reader, the mirror of the packer's. -/
inductive UnpackState where
  /-- the next nibble is the low one of the next byte -/
  | empty
  /-- the high nibble of a fetched byte is waiting -/
  | pendingHighNibble (b : Byte)
deriving DecidableEq, Repr

/-- R246: read N nibbles with the state machine from the bytes at the cursor. DECODE itself reads by
R245; that both give the same list is a statement about the model. -/
def readNibbles : Nat → UnpackState → List Byte → Except CmdError (List Nibble)
  | 0, _, _ => .ok []
  | n + 1, .pendingHighNibble b, rest =>
    match readNibbles n .empty rest with
    | .error e => .error e
    | .ok ns => .ok ((b >>> 4).setWidth 4 :: ns)
  | _ + 1, .empty, [] => .error .tooShort
  | n + 1, .empty, b :: rest =>
    match readNibbles n (.pendingHighNibble b) rest with
    | .error e => .error e
    | .ok ns => .ok (b.setWidth 4 :: ns)

/-- R260: `l_dc = f32(l_dc_f) / 63`. -/
def deqLDc (n : BitVec 6) : F32 := fDiv (f32 n.toNat) (f32 63)

/-- R261, R262: `f32(n) / 31.5 - 1`, the P and Q DC. -/
def deqPqDc (n : BitVec 6) : F32 := fSub (fDiv (f32 n.toNat) f31_5) fOne

/-- R266: `f32(n) / 15`, the alpha DC and scale. -/
def deqAlpha (n : BitVec 4) : F32 := fDiv (f32 n.toNat) (f32 15)

/-- R266, R267: the alpha DC, 1.0 without alpha. -/
def alphaDcOf (h : Header) : F32 :=
  match h.alpha with
  | some a => deqAlpha a.aDc
  | none => fOne

/-- R250 `AverageFromHash(hb)`, with the output clamp of R167. No AC byte is read. -/
def averageFromHash (hb : List Byte) : Except CmdError Rgba :=
  match unpackHeader hb with
  | .error e => .error e
  | .ok h =>
    let c := inverseLpq (deqLDc h.lDc) (deqPqDc h.pDc) (deqPqDc h.qDc)
    .ok ⟨clamp01 c.1, clamp01 c.2.1, clamp01 c.2.2, alphaDcOf h⟩

/-- R251: the ratio `f32(lx) / f32(ly)` of a header, unclamped dimensions. -/
def ratioOf (h : Header) : F32 := fDiv (f32 (lGridOf h).1) (f32 (lGridOf h).2)

/-- R251 `AspectRatio(hb)`: only the alpha flag, l_min and is_landscape are used. -/
def aspectRatio (hb : List Byte) : Except CmdError F32 :=
  match unpackFixed hb with
  | .error e => .error e
  | .ok h => .ok (ratioOf h)

end Sys2Proof.Machine
end

