-- ==== Sys2Proof/Machine/Dequantizer.lean ====
section
/-! DEFINITION. coefficient_dequantizer (spec/46_dequantizer.md R263 to R270; the DC values of R260
to R262, R266 and R267 stand in BitUnpacker.lean, which shares them). -/

namespace Sys2Proof.Machine

/-- R263: `l_scale = f32(l_scale_f) / 31`. -/
def deqLScale (n : BitVec 5) : F32 := fDiv (f32 n.toNat) (f32 31)

/-- R264, R265: `f32(n) / 63`, the P and Q scales before the boost. -/
def deqPqScale (n : BitVec 6) : F32 := fDiv (f32 n.toNat) (f32 63)

/-- R268: the P and Q scale with the 1.25 boost. -/
def boostedScale (n : BitVec 6) : F32 := fMul (deqPqScale n) fBoost

/-- R266, R267: the alpha scale, 1.0 without alpha. -/
def alphaScaleOf (h : Header) : F32 :=
  match h.alpha with
  | some a => deqAlpha a.aScale
  | none => fOne

/-- R269 `DeqAC(n, s) = (f32(n) / 7.5 - 1) * s`. -/
def deqAc (s : F32) (n : Nibble) : F32 := fMul (fSub (fDiv (f32 n.toNat) f7_5) fOne) s

/-- A dequantized channel: its DC and its AC list with the frequency of each entry, in scan order. -/
structure DeqChannel where
  dc : F32
  ac : List ((Nat × Nat) × F32)
deriving DecidableEq, Repr

/-- The dequantized channels (R270). `a` is absent without alpha: every pixel's alpha is then 1.0
(R267). -/
structure DeqImage where
  l : DeqChannel
  p : DeqChannel
  q : DeqChannel
  a : Option DeqChannel
deriving DecidableEq, Repr

/-- The AC list of a grid from its nibbles and scale. -/
def deqAcs (nx ny : Nat) (s : F32) (nib : List Nibble) : List ((Nat × Nat) × F32) :=
  (acScan nx ny).zip (nib.map (deqAc s))

/-- R245, R270 `Dequantize(hdr, nib)`: the nibble list is cut into the L, P, Q and A lists. -/
def dequantize (h : Header) (nib : List Nibble) : DeqImage :=
  let g := clampGrid (lGridOf h)
  let nL := nac g.1 g.2
  let nPq := nac Config.pqGrid Config.pqGrid
  { l := ⟨deqLDc h.lDc, deqAcs g.1 g.2 (deqLScale h.lScale) (nib.take nL)⟩
    p := ⟨deqPqDc h.pDc,
      deqAcs Config.pqGrid Config.pqGrid (boostedScale h.pScale) ((nib.drop nL).take nPq)⟩
    q := ⟨deqPqDc h.qDc,
      deqAcs Config.pqGrid Config.pqGrid (boostedScale h.qScale) ((nib.drop (nL + nPq)).take nPq)⟩
    a := if h.hasAlpha then
        some ⟨alphaDcOf h,
          deqAcs Config.aGrid Config.aGrid (alphaScaleOf h) (nib.drop (nL + nPq + nPq))⟩
      else none }

end Sys2Proof.Machine
end

