-- ==== Sys2Proof/Machine/DctDecoder.lean ====
section
/-! DEFINITION. DCT_2D_decoder, the inverse transform (spec/47_dct_decoder.md R280 to R287). -/

namespace Sys2Proof.Machine

/-- R280 `OutputSize(ratio)`: (W, H). Orientation follows the ratio, not the is_landscape bit. -/
def outputSize (ratio : F32) : Nat × Nat :=
  if fLt fOne ratio then
    (Config.outLong, toU 32 (roundHA (fDiv (f32 Config.outLong) ratio)))
  else (toU 32 (roundHA (fMul (f32 Config.outLong) ratio)), Config.outLong)

/-- R281: the inverse basis along one axis of length n, coordinate x, frequency k:
`cos32(((PI32 / n) * (x + 0.5)) * k)`. -/
def invBasis (cos : F32 → F32) (n x k : Nat) : F32 :=
  cos (fMul (fMul (fDiv pi32 (f32 n)) (fAdd (f32 x) fHalf)) (f32 k))

/-- R282 to R284: a channel's value at a pixel, `dc + Σ ((ac * fx) * fy) * 2` in scan order. -/
def channelAt (fx fy : Nat → F32) (c : DeqChannel) : F32 :=
  c.ac.foldl (fun v e => fAdd v (fMul (fMul (fMul e.2 (fx e.1.1)) (fy e.1.2)) (f32 2))) c.dc

/-- R285: the four output bytes of a pixel. -/
def pixelBytes (fx fy : Nat → F32) (v : DeqImage) : List Byte :=
  let c := inverseLpq (channelAt fx fy v.l) (channelAt fx fy v.p) (channelAt fx fy v.q)
  let a := match v.a with
    | some ch => channelAt fx fy ch
    | none => fOne
  [byte8 c.1, byte8 c.2.1, byte8 c.2.2, byte8 a]

/-- R286 `InverseDCT(v, W, H)`: row-major RGBA bytes; empty when W or H is 0 (R287). -/
def inverseDct (cos : F32 → F32) (v : DeqImage) (w h : Nat) : List Byte :=
  (List.range h).flatMap fun y => (List.range w).flatMap fun x =>
    pixelBytes (invBasis cos w x) (invBasis cos h y) v

end Sys2Proof.Machine
end

