-- ==== Sys2Proof/Machine/DctEncoder.lean ====
section
/-! DEFINITION. DCT_2D_encoder, the forward transform (spec/42_dct_encoder.md R180 to R188). The
cosine unit is an argument, as spec/00_scope.md R8 asks. -/

namespace Sys2Proof.Machine

/-- One dimension of R180: `max(1, toU_32(roundHA(f32(l_limit*d) / f32(m))))`. -/
def lGridDim (limit d m : Nat) : Nat := max 1 (toU 32 (roundHA (fDiv (f32 (limit * d)) (f32 m))))

/-- R180 `LGrid(w, h, has_alpha)`: the unclamped L grid dimensions (lx, ly). -/
def lGrid (w h : Nat) (hasAlpha : Bool) : Nat × Nat :=
  (lGridDim (lMaxOf hasAlpha) w (max w h), lGridDim (lMaxOf hasAlpha) h (max w h))

/-- R181: the forward basis along one axis of length n, frequency k, coordinate x:
`cos32(((PI32 / n) * k) * (x + 0.5))`. -/
def fwdBasis (cos : F32 → F32) (n k x : Nat) : F32 :=
  cos (fMul (fMul (fDiv pi32 (f32 n)) (f32 k)) (fAdd (f32 x) fHalf))

/-- R182 `Coefficient(ch, w, h, cx, cy)`: the sum runs y-major and then x. -/
def coefficient (cos : F32 → F32) (ch : List F32) (w h cx cy : Nat) : F32 :=
  let sum := (List.range h).foldl (fun f y =>
    (List.range w).foldl (fun f x =>
      fAdd f (fMul (fMul (ch.getD (x + y * w) 0) (fwdBasis cos w cx x)) (fwdBasis cos h cy y))) f) 0
  fDiv sum (f32 (w * h))

/-- A transformed channel: the DC term, the AC list and the AC scale (spec/10_state.md R47). -/
structure Channel where
  dc : F32
  ac : List F32
  scale : F32
deriving DecidableEq, Repr

/-- R184: the AC list, in scan order. -/
def acList (cos : F32 → F32) (ch : List F32) (w h nx ny : Nat) : List F32 :=
  (acScan nx ny).map fun c => coefficient cos ch w h c.1 c.2

/-- R185: the largest absolute AC value. -/
def acScale (ac : List F32) : F32 := ac.foldl (fun s f => fMax s (fAbs f)) 0

/-- R186: `0.5 + (0.5 / scale) * v`, only when scale > 0. -/
def normalise (ac : List F32) (scale : F32) : List F32 :=
  if fLt 0 scale then
    let k := fDiv fHalf scale
    ac.map fun v => fAdd fHalf (fMul k v)
  else ac

/-- R188 `EncodeChannel(ch, w, h, nx, ny)`. -/
def encodeChannel (cos : F32 → F32) (ch : List F32) (w h nx ny : Nat) : Channel :=
  let ac := acList cos ch w h nx ny
  let scale := acScale ac
  { dc := coefficient cos ch w h 0 0, ac := normalise ac scale, scale := scale }

/-- R187: the A channel when has_alpha = 0, which is not transformed. -/
def absentAlphaChannel : Channel := { dc := fOne, ac := [], scale := fOne }

end Sys2Proof.Machine
end

