-- ==== Sys2Proof/Machine/Quantizer.lean ====
section
/-! DEFINITION. coefficient_quantizer (spec/43_quantizer.md R200 to R210). -/

namespace Sys2Proof.Machine

/-- R200 `Qn_N(x) = toU_N(roundHA(x))`, an N-bit natural. -/
def qn (n : Nat) (x : F32) : BitVec n := BitVec.ofNat n (toU n (roundHA x))

/-- R201: the l_dc field. -/
def quantLDc (x : F32) : BitVec 6 := qn 6 (fMul (f32 63) x)

/-- R202, R203: `Qn_6(31.5 + 31.5 * dc)`, the p_dc and q_dc fields. -/
def quantPqDc (x : F32) : BitVec 6 := qn 6 (fAdd f31_5 (fMul f31_5 x))

/-- R204: the l_scale field. -/
def quantLScale (x : F32) : BitVec 5 := qn 5 (fMul (f32 31) x)

/-- R205: the p_scale and q_scale fields. -/
def quantPqScale (x : F32) : BitVec 6 := qn 6 (fMul (f32 63) x)

/-- R206, R207: the a_dc and a_scale fields. -/
def quantAlpha (x : F32) : BitVec 4 := qn 4 (fMul (f32 15) x)

/-- R208 `QAC(v) = Qn_4(15 * v)`. -/
def qac (v : F32) : Nibble := qn 4 (fMul (f32 15) v)

/-- R209: l_min_f, the non-dominant L grid dimension, unclamped; 1 to 7, so it fits its 3 bits. -/
def quantLMin (w h : Nat) (lxy : Nat × Nat) : BitVec 3 :=
  BitVec.ofNat 3 (if h < w then lxy.2 else lxy.1)

/-- R210 `QuantizeHeader`. The alpha fields are computed only when has_alpha = 1. -/
def quantizeHeader (l p q a : Channel) (hasAlpha : Bool) (w h : Nat) (lxy : Nat × Nat) : Header where
  lDc := quantLDc l.dc
  pDc := quantPqDc p.dc
  qDc := quantPqDc q.dc
  lScale := quantLScale l.scale
  hasAlpha := hasAlpha
  lMin := quantLMin w h lxy
  pScale := quantPqScale p.scale
  qScale := quantPqScale q.scale
  isLandscape := decide (h < w)
  alpha := if hasAlpha then some ⟨quantAlpha a.dc, quantAlpha a.scale⟩ else none

end Sys2Proof.Machine
end

