-- ==== Sys2Proof/Machine/Execute.lean ====
section
/-! DEFINITION. The pure functions that the commands compute, each a chain of sub-block rules
(spec/40_commands.md R142 to R146). They have no state: the source's four operations. -/

namespace Sys2Proof.Machine

/-- The channels and L grid of one encode run, before quantization. -/
structure Encoded where
  hasAlpha : Bool
  grid : Nat × Nat
  l : Channel
  p : Channel
  q : Channel
  a : Channel
deriving DecidableEq, Repr

/-- R143, the lines from AverageColour to the A channel. -/
def transform (cos : F32 → F32) (w h : Nat) (px : List Pixel) : Encoded :=
  let avg := averageColour px
  let hasAlpha := hasAlphaOf avg.a w h
  let pl := planes avg px
  let g := lGrid w h hasAlpha
  { hasAlpha := hasAlpha
    grid := g
    l := encodeChannel cos (pl.map Lpqa.l) w h (clampGrid g).1 (clampGrid g).2
    p := encodeChannel cos (pl.map Lpqa.p) w h Config.pqGrid Config.pqGrid
    q := encodeChannel cos (pl.map Lpqa.q) w h Config.pqGrid Config.pqGrid
    a := if hasAlpha then encodeChannel cos (pl.map Lpqa.a) w h Config.aGrid Config.aGrid
      else absentAlphaChannel }

/-- R210 on a transformed image: the header record ENCODE packs. -/
def headerOf (e : Encoded) (w h : Nat) : Header :=
  quantizeHeader e.l e.p e.q e.a e.hasAlpha w h e.grid

/-- R224: the nibble list ENCODE packs, `[QAC(v) for v in l_ac ++ p_ac ++ q_ac ++ a_ac]`. -/
def nibblesOf (e : Encoded) : List Nibble := (e.l.ac ++ e.p.ac ++ e.q.ac ++ e.a.ac).map qac

/-- R143: the hash of an image of width w and height h, given as its w*h*4 RGBA bytes. -/
def encodeHash (cos : F32 → F32) (w h : Nat) (px : List Byte) : List Byte :=
  let e := transform cos w h (toPixels px)
  pack (headerOf e w h) (nibblesOf e)

/-- R142: the preconditions of ENCODE. -/
def contractOk (w h n : Nat) : Bool :=
  decide (w ≤ Config.maxW) && decide (h ≤ Config.maxH) && decide (w ≠ 0) && decide (h ≠ 0) &&
    decide (n = w * h * 4)

/-- The image a DECODE makes: its size and its RGBA bytes. -/
structure Image where
  w : Nat
  h : Nat
  rgba : List Byte
deriving DecidableEq, Repr

/-- R144: the image of a hash, or TooShort. -/
def decodeHash (cos : F32 → F32) (hb : List Byte) : Except CmdError Image :=
  match aspectRatio hb, unpackHeader hb with
  | .ok ratio, .ok hdr =>
    match unpackAc hb hdr with
    | .ok nib =>
      let size := outputSize ratio
      .ok ⟨size.1, size.2, inverseDct cos (dequantize hdr nib) size.1 size.2⟩
    | .error e => .error e
  | .error e, _ => .error e
  | .ok _, .error e => .error e

end Sys2Proof.Machine
end

