-- ==== Sys2Proof/Machine/HostProgram.lean ====
section
/-! DEFINITION. The host agent's programs: accesses to the slave port and host-side control flow
(spec/00_scope.md R5; spec/30_encoding.md R118, R119), with the platform's reset input
(spec/70_reset_and_hazards.md R330). -/

namespace Sys2Proof.Machine

/-- A name of a host program that holds a value (R118), numbered. -/
abbrev HostName := Nat
/-- A label of a host program (R118), numbered. -/
abbrev HostLabel := Nat

/-- One operation of a host program. Each takes one host bus cycle
(DESIGN CHOICE, safe, notes/assumptions/3.md: no rule depends on it). The forms beyond R118's are a
DESIGN CHOICE, safe (notes/assumptions/2.md). -/
inductive HostOp where
  /-- `name <- MemRead(a, n)` at a window offset (R118 rd32, rd8; spec/20_memory.md R74). -/
  | read (a : Offset) (n : Nat) (x : HostName)
  /-- `MemWrite(a, n, v)` at a window offset (R118 wr32, wr16, wr8; spec/20_memory.md R75). -/
  | write (a : Offset) (n : Nat) (v : Word)
  /-- A read of n bytes at an absolute host address (spec/20_memory.md R70, P_BASE). -/
  | readAddr (addr n : Nat) (x : HostName)
  /-- A write of n bytes at an absolute host address (spec/20_memory.md R70, P_BASE). -/
  | writeAddr (addr n : Nat) (v : Word)
  /-- `label:`, a place a loop returns to (R118). -/
  | label (l : HostLabel)
  /-- `bnz name, label`: continue at the label when the name's value is not 0 (R118). -/
  | bnz (x : HostName) (l : HostLabel)
  /-- `and name, V` (R118). -/
  | andImm (x : HostName) (v : Word)
  /-- Wait until the interrupt line is 1 (spec/20_memory.md R86, spec/70_reset_and_hazards.md
  R340). -/
  | waitIrq
  /-- The platform drives the reset input to a level (spec/70_reset_and_hazards.md R330). -/
  | rst (level : Bool)
deriving DecidableEq, Repr

/-- R118 `wr32 OFF, V`. -/
def wr32 (a : Offset) (v : Word) : HostOp := .write a 4 v
/-- R118 `wr16 OFF, V`. -/
def wr16 (a : Offset) (v : Word) : HostOp := .write a 2 v
/-- R118 `wr8 OFF, V`. -/
def wr8 (a : Offset) (v : Word) : HostOp := .write a 1 v
/-- R118 `rd32 OFF -> name`. -/
def rd32 (a : Offset) (x : HostName) : HostOp := .read a 4 x
/-- R118 `rd8 OFF -> name`. -/
def rd8 (a : Offset) (x : HostName) : HostOp := .read a 1 x

/-- R119 `cmd <mnemonic>`, by the command word of the mnemonic. -/
def cmdOp (w : Word) : List HostOp := [wr32 0x004 w]

/-- R119 `wait_done`: poll STATUS until BUSY = 0, with a label and a name of the program's own. -/
def waitDone (l : HostLabel) (t : HostName) : List HostOp :=
  [.label l, rd32 0x008 t, .andImm t 1, .bnz t l]

/-- R119 `ack`: clear DONE and BVIOL. -/
def ackOp : List HostOp := [wr32 0x008 0x102]

/-- R119 `wrbytes OFF, b0 b1 …`: one `wr8 OFF+i, bi` per byte, in order. R118 gives a form only to a
window offset, so a list that runs past the last one, 0x1FFFF, has no meaning in the spec; here OFF+i is
computed in 17 bits and goes on at offset 0 (DESIGN CHOICE, unsafe for such a list:
notes/assumptions/22.md). -/
def wrBytes (a : Offset) : List Byte → List HostOp
  | [] => []
  | b :: rest => wr8 a (b.setWidth 32) :: wrBytes (a + 1) rest

end Sys2Proof.Machine
end

