-- ==== Sys2Proof/Machine/State.lean ====
section
/-! DEFINITION. The machine's state as plain data (spec/10_state.md), the reasons a step can stop,
and the state after reset (R51). -/

namespace Sys2Proof.Machine

/-- The sequencer's phase (spec/10_state.md R46). STATUS.BUSY is 1 exactly when it is `busy`. -/
inductive Phase where
  | idle
  | busy
deriving DecidableEq, Repr

/-- The result codes of STATUS.ERR (spec/60_exceptions.md R301). Codes 4 to 15 are never produced,
so no value stands for them. -/
inductive ResultCode where
  /-- 0 -/
  | ok
  /-- 1 -/
  | tooShort
  /-- 2 -/
  | contractViolation
  /-- 3 -/
  | illegalCommand
deriving DecidableEq, Repr

/-- The block's buffers, PIXIN, HASHBUF and PIXOUT, as one memory over window offsets
(spec/10_state.md R45, spec/20_memory.md R70 to R73): the bytes written since reset, addresses
strictly rising. An unlisted address holds no written byte; what reading it gives is
`State.readByte` of Ops.lean. -/
abbrev Memory := List Host.Cell

/-- The response of the slave port to an access (spec/20_memory.md R74, R75, R77). -/
structure BusResp where
  /-- the error response -/
  error : Bool
  /-- the data of a read; 0 with an error response, and 0 for a write, which returns no data (DESIGN
  CHOICE, unsafe in form, notes/assumptions/18.md) -/
  data : Word
deriving DecidableEq, Repr

/-- The host agent (spec/00_scope.md R5): the program it runs, where it stands in it, the values of
its names, and the last response of the slave port. The block itself holds none of this. -/
structure HostState where
  /-- the host program (spec/30_encoding.md R118) -/
  prog : List HostOp
  /-- the index of its next operation; past the end the host makes no access -/
  pc : Nat
  /-- the values of the names read into, the latest first -/
  names : List (HostName × Word)
  /-- the response to the latest access -/
  resp : Option BusResp
deriving DecidableEq, Repr

/-- Every piece of state of the block, and of the host agent that drives it. -/
structure State where
  /-- PHASE (R46); STATUS.BUSY (R34) -/
  phase : Phase
  /-- OPLATCH (R46): the command word of the command being run -/
  oplatch : Word
  /-- STATUS.DONE (R34) -/
  done : Bool
  /-- STATUS.ERR (R34) -/
  err : ResultCode
  /-- STATUS.BVIOL (R34) -/
  bviol : Bool
  /-- IRQ_EN.DONE_IE (R35) -/
  doneIe : Bool
  /-- IMG_W[15:0] (R36) -/
  imgW : BitVec 16
  /-- IMG_H[15:0] (R37) -/
  imgH : BitVec 16
  /-- IN_LEN (R38) -/
  inLen : Word
  /-- HASH_LEN[5:0] (R39) -/
  hashLen : BitVec 6
  /-- OUT_W[5:0] (R40) -/
  outW : BitVec 6
  /-- OUT_H[5:0] (R41) -/
  outH : BitVec 6
  /-- AVG_R (R42) -/
  avgR : F32
  /-- AVG_G (R42) -/
  avgG : F32
  /-- AVG_B (R42) -/
  avgB : F32
  /-- AVG_A (R42) -/
  avgA : F32
  /-- ASPECT (R43) -/
  aspect : F32
  /-- PIXIN, HASHBUF and PIXOUT (R45) -/
  mem : Memory
  /-- the level of the reset input `rst` (spec/70_reset_and_hazards.md R330) -/
  rst : Bool
  /-- the model's own: host bus cycles left before the completion step of the running command
  (spec/70_reset_and_hazards.md R350) -/
  wait : Nat
  /-- the model's own: the number of resets so far, the argument of `Config.unwrittenByte` -/
  resets : Nat
  /-- the model's own: the number of fresh draws so far -/
  draws : Nat
  /-- the host agent -/
  host : HostState
deriving DecidableEq, Repr

/-- The faults that stop the machine: none. "No error stops the block, locks it or needs a reset"
(spec/60_exceptions.md R300). A bus error is a response on the bus (spec/20_memory.md R77) and a
command's error is a result code (R301); both are next states. With no constructor, nothing raises a
fault, which is safe: the model goes on wherever the block goes on. -/
inductive Fault where
deriving DecidableEq, Repr

/-- The refusals: instructions without a meaning. -/
inductive Refusal where
  /-- Raised by an arm of `exec` whose instruction has no meaning yet; no arm is left that raises
  it. Safe: the model stops. -/
  | notModelled (mnemonic : String)
deriving DecidableEq, Repr

/-- The machine right after reset (R51), with the reset input released, every buffer byte unwritten
(R52), and a host that has no program. The values of `rst`, `wait`, `resets`, `draws` and `host` are a
DESIGN CHOICE, unsafe in form (notes/assumptions/13.md): no statement rests on them. -/
def State.reset : State where
  phase := .idle
  oplatch := 0
  done := false
  err := .ok
  bviol := false
  doneIe := false
  imgW := 0
  imgH := 0
  inLen := 0
  hashLen := 0
  outW := 0
  outH := 0
  avgR := 0
  avgG := 0
  avgB := 0
  avgA := 0
  aspect := 0
  mem := []
  rst := false
  wait := 0
  resets := 0
  draws := 0
  host := { prog := [], pc := 0, names := [], resp := none }

end Sys2Proof.Machine
end

