-- ==== Sys2Proof/Machine/Flags.lean ====
section
/-! DEFINITION. STATUS and the interrupt line: the values of ERR, the STATUS word, the W1C bits, the
busy violation and irq (spec/10_state.md R34, R48; spec/60_exceptions.md R301, R305, R310). There are
no other flags (R48). -/

namespace Sys2Proof.Machine

/-- R301: the 4-bit value of a result code. -/
def errBits : ResultCode → BitVec 4
  | .ok => 0
  | .tooShort => 1
  | .contractViolation => 2
  | .illegalCommand => 3

/-- R301: the result code a raised error records. -/
def codeOf : CmdError → ResultCode
  | .tooShort => .tooShort
  | .contractViolation => .contractViolation
  | .illegalCommand => .illegalCommand

/-- R34, R46: STATUS.BUSY. -/
def State.busy (s : State) : Bool := s.phase == .busy

/-- R34: the STATUS word. Bits 3:2 and 31:9 read as 0. -/
def statusWord (s : State) : Word :=
  (BitVec.ofBool s.busy).setWidth 32 ||| ((BitVec.ofBool s.done).setWidth 32 <<< 1) |||
    ((errBits s.err).setWidth 32 <<< 4) ||| ((BitVec.ofBool s.bviol).setWidth 32 <<< 8)

/-- R35: the IRQ_EN word. Bits 31:1 read as 0. -/
def irqEnWord (s : State) : Word := (BitVec.ofBool s.doneIe).setWidth 32

/-- R310: `irq = STATUS.DONE & IRQ_EN.DONE_IE`. -/
def State.irq (s : State) : Bool := s.done && s.doneIe

/-- R84, R305: a busy violation. -/
def State.busyViolation (s : State) : State := { s with bviol := true }

/-- R34: a host write to STATUS clears DONE for bit 1 and BVIOL for bit 8. -/
def State.writeStatus (s : State) (v : Word) : State :=
  { s with done := s.done && !v.getLsbD 1, bviol := s.bviol && !v.getLsbD 8 }

end Sys2Proof.Machine
end

