-- ==== Sys2Proof/Machine/Ops.lean ====
section
/-! DEFINITION. The named operations over the buffers and the sequencer: reading and storing bytes,
accepting a command, completing it, taking an error and clearing it, and reset (spec/10_state.md R49,
R50; spec/60_exceptions.md R307, R308; spec/70_reset_and_hazards.md R330 to R332). -/

namespace Sys2Proof.Machine

/-! ### Buffer bytes -/

/-- The canonical form of the memory: addresses strictly rising. No entry can equal what an unlisted
address holds, since that is no written byte. -/
abbrev Memory.wf (m : Memory) : Prop := m.Pairwise fun x y => x.1 < y.1

/-- The byte written at an address since reset, if any. -/
def lookupByte (m : Memory) (a : Nat) : Option Byte := m.lookup a

/-- The cells of a byte string stored from an address on. -/
def cellsFrom (base : Nat) : List Byte → Memory
  | [] => []
  | b :: rest => (base, b) :: cellsFrom (base + 1) rest

/-- Store a byte string at consecutive addresses. -/
def storeBytes (m : Memory) (base : Nat) (bs : List Byte) : Memory :=
  m.filter (fun c => decide (c.1 < base)) ++ cellsFrom base bs ++
    m.filter (fun c => decide (base + bs.length ≤ c.1))

/-- What reading one buffer byte gives: the byte last written, or, for a byte not written since
reset, a free value that is fixed until the next write or reset (spec/10_state.md R52,
spec/93_implementation_defined.md U1). -/
def State.readByte (s : State) (a : Nat) : Byte :=
  match lookupByte s.mem a with
  | some b => b
  | none => Config.unwrittenByte s.resets a

/-- The `n` bytes from an address on. -/
def State.readBytes (s : State) (base n : Nat) : List Byte :=
  (List.range n).map fun i => s.readByte (base + i)

/-! ### The sequencer's two transitions -/

/-- R49, the accepting branch: latch the word, clear DONE and ERR, and become BUSY. P_LAT for this
command is drawn here: the completion step comes that many host bus cycles later (R350), so one
fewer host cycle stands between. -/
def State.accept (s : State) (v : Word) : State :=
  { s with
    oplatch := v
    done := false
    err := .ok
    phase := .busy
    wait := max 1 (Config.pLat s.draws) - 1
    draws := s.draws + 1 }

/-- R49: a host write of a command word to CMD. -/
def State.offerCommand (s : State) (v : Word) : State :=
  if s.busy then s.busyViolation else s.accept v

/-- R50, the end of every completion step: record the result code, set DONE, become IDLE. OPLATCH keeps
its word (DEDUCED, unsafe in form: notes/assumptions/14.md). -/
def State.complete (s : State) (code : ResultCode) : State :=
  { s with err := code, done := true, phase := .idle }

/-- R307, taking an error: ERR takes the code, DONE becomes 1, PHASE becomes IDLE. Nothing is saved,
no mode changes, and no other register and no buffer changes. -/
def State.takeError (s : State) (e : CmdError) : State := s.complete (codeOf e)

/-- R308, the host's return from an error (or a success): clearing DONE. ERR keeps its value until
the next acceptance. The host does it by writing 1 to STATUS bit 1 (`State.writeStatus`). -/
def State.clearDone (s : State) : State := { s with done := false }

/-- R50: complete a command whose outputs, once applied, give the state in `r`, or that raises an
error and writes no output. -/
def State.finish (s : State) (r : Except CmdError State) : State :=
  match r with
  | .ok s' => s'.complete .ok
  | .error e => s.takeError e

/-! ### Reset -/

/-- R330 to R332: the reset input is asserted. Every register and the sequencer take their reset
values, a running command is abandoned, and every buffer byte becomes unwritten, with a fresh
unspecified value. The host agent and the draw counter are not the block's. -/
def State.assertReset (s : State) : State :=
  { State.reset with rst := true, resets := s.resets + 1, draws := s.draws, host := s.host }

/-- R330: the reset input is released. -/
def State.releaseReset (s : State) : State := { s with rst := false }

end Sys2Proof.Machine
end

