-- ==== Sys2Proof/Machine/Operands.lean ====
section
/-! DEFINITION. The operands of the commands, all implicit: registers and buffers
(spec/40_commands.md R143 to R146, spec/20_memory.md R71, R72), and the places of their outputs. -/

namespace Sys2Proof.Machine

/-- IMG_W as a natural number (R142). -/
def imgWOf (s : State) : Nat := s.imgW.toNat
/-- IMG_H as a natural number (R142). -/
def imgHOf (s : State) : Nat := s.imgH.toNat
/-- IN_LEN as a natural number (R142). -/
def inLenOf (s : State) : Nat := s.inLen.toNat

/-- R143: `[PIXIN[i] for i in 0..w*h*4]`. -/
def pixelOperand (s : State) : List Byte :=
  s.readBytes Config.pixinBase (imgWOf s * imgHOf s * 4)

/-- R144 to R146: `[HASHBUF[i] for i in 0..HASH_LEN]`. -/
def hashOperand (s : State) : List Byte := s.readBytes Config.hashBase s.hashLen.toNat

/-- A byte string followed by zeros up to a size (R143, R144). -/
def zeroPadded (size : Nat) (bs : List Byte) : List Byte :=
  bs ++ List.replicate (size - bs.length) 0

/-- R143: the writes of a successful ENCODE, all 32 bytes of HASHBUF and HASH_LEN. -/
def State.writeHash (s : State) (hash : List Byte) : State :=
  { s with
    mem := storeBytes s.mem Config.hashBase (zeroPadded Config.hashSize hash)
    hashLen := BitVec.ofNat 6 hash.length }

/-- R144: the writes of a successful DECODE, OUT_W, OUT_H and all 4096 bytes of PIXOUT. -/
def State.writeImage (s : State) (w h : Nat) (rgba : List Byte) : State :=
  { s with
    mem := storeBytes s.mem Config.pixoutBase (zeroPadded Config.pixoutSize rgba)
    outW := BitVec.ofNat 6 w
    outH := BitVec.ofNat 6 h }

/-- R145: the writes of a successful AVERAGE_COLOR. -/
def State.writeAverage (s : State) (r g b a : F32) : State :=
  { s with avgR := r, avgG := g, avgB := b, avgA := a }

/-- R146: the write of a successful ASPECT_RATIO. -/
def State.writeAspect (s : State) (ratio : F32) : State := { s with aspect := ratio }

end Sys2Proof.Machine
end

