-- ==== Sys2Proof/Machine/Commands.lean ====
section
/-! DEFINITION. The meanings of the five commands, each the completion step of that command
(spec/40_commands.md R140 to R147, spec/10_state.md R50), and of an illegal command word. -/

namespace Sys2Proof.Machine

/-- R141 NOP: OK with no writes. -/
def execNop (s : State) : Host.Outcome State Fault Refusal := .next (s.finish (.ok s))

/-- R142, R143 ENCODE. -/
def execEncode (s : State) : Host.Outcome State Fault Refusal :=
  .next (s.finish
    (if contractOk (imgWOf s) (imgHOf s) (inLenOf s) then
      .ok (s.writeHash (encodeHash Config.cos32 (imgWOf s) (imgHOf s) (pixelOperand s)))
    else .error .contractViolation))

/-- R144 DECODE. -/
def execDecode (s : State) : Host.Outcome State Fault Refusal :=
  .next (s.finish
    (match decodeHash Config.cos32 (hashOperand s) with
    | .ok im => .ok (s.writeImage im.w im.h im.rgba)
    | .error e => .error e))

/-- R145 AVERAGE_COLOR. -/
def execAverageColor (s : State) : Host.Outcome State Fault Refusal :=
  .next (s.finish
    (match averageFromHash (hashOperand s) with
    | .ok c => .ok (s.writeAverage c.r c.g c.b c.a)
    | .error e => .error e))

/-- R146 ASPECT_RATIO. -/
def execAspectRatio (s : State) : Host.Outcome State Fault Refusal :=
  .next (s.finish
    (match aspectRatio (hashOperand s) with
    | .ok ratio => .ok (s.writeAspect ratio)
    | .error e => .error e))

/-- R147: a command word outside the opcode map. It is no row of the opcode table; `step` completes
it so when the decoder rejects the latched word. -/
def completeIllegal (s : State) : Host.Outcome State Fault Refusal :=
  .next (s.finish (.error .illegalCommand))

end Sys2Proof.Machine
end

