-- ==== Sys2Proof/Syntax.lean ====
section
/-! DEFINITION. The commands of the block: one constructor per row of spec/opcode_table.json.
A command word has no operand fields; every operand is in a register or a buffer
(spec/30_encoding.md R100, R101). -/

namespace Sys2Proof

/-- The opcode map of spec/30_encoding.md R101. -/
inductive Instr where
  /-- OPCODE 0x00, spec/40_commands.md R141. -/
  | nop
  /-- OPCODE 0x01, spec/40_commands.md R143. -/
  | encode
  /-- OPCODE 0x02, spec/40_commands.md R144. -/
  | decode
  /-- OPCODE 0x03, spec/40_commands.md R145. -/
  | averageColor
  /-- OPCODE 0x04, spec/40_commands.md R146. -/
  | aspectRatio
deriving DecidableEq, Repr

end Sys2Proof
end

