-- ==== Sys2Proof/Machine/Dispatch.lean ====
section
/-! DEFINITION. One arm per command: the case split of spec/40_commands.md R140. -/

namespace Sys2Proof.Machine

def exec (i : Instr) (s : State) : Host.Outcome State Fault Refusal :=
  match i with
  | .nop => Sys2Proof.Machine.execNop s
  | .encode => Sys2Proof.Machine.execEncode s
  | .decode => Sys2Proof.Machine.execDecode s
  | .averageColor => Sys2Proof.Machine.execAverageColor s
  | .aspectRatio => Sys2Proof.Machine.execAspectRatio s

end Sys2Proof.Machine
end

