-- ==== Sys2Proof/WellFormed.lean ====
section
/-! DEFINITION. The checks on what the block and its host are given as syntax: command words, header
records and host programs. An instruction itself has no operand fields (spec/30_encoding.md R100),
so every term of `Instr` is well formed. -/

namespace Sys2Proof

open Sys2Proof.Machine

/-- R100: bits [31:8] of a command word must be 0. -/
def reservedBitsClear (w : Word) : Bool := w.extractLsb' 8 24 == 0

/-- R101: the OPCODE field names a row of the map. -/
def opcodeDefined (w : Word) : Bool := decide ((w.extractLsb' 0 8).toNat ≤ 4)

/-- R100 to R102: the command words that select a command. -/
def wordWellFormed (w : Word) : Bool := reservedBitsClear w && opcodeDefined w

/-- Every instruction is well formed: a command has no operand fields (R100). -/
def Instr.wellFormed : Instr → Bool
  | .nop => true
  | .encode => true
  | .decode => true
  | .averageColor => true
  | .aspectRatio => true

/-- R106, R107: the alpha fields are present exactly when has_alpha = 1. -/
def headerWellFormed (h : Header) : Bool := h.alpha.isSome == h.hasAlpha

/-- The labels a host program defines. -/
def labelsOf : List HostOp → List HostLabel
  | [] => []
  | .label l :: rest => l :: labelsOf rest
  | _ :: rest => labelsOf rest

/-- Each label is defined at most once. -/
def labelsDistinct (p : List HostOp) : Bool := decide (labelsOf p).Nodup

/-- Each `bnz` continues at a label the program defines. -/
def targetsDefined (p : List HostOp) : Bool :=
  p.all fun
    | .bnz _ l => (labelsOf p).contains l
    | _ => true

/-- Each name is read into, earlier in the text, before `and` or `bnz` uses it. -/
def namesAssigned (known : List HostName) : List HostOp → Bool
  | [] => true
  | .read _ _ x :: rest => namesAssigned (x :: known) rest
  | .readAddr _ _ x :: rest => namesAssigned (x :: known) rest
  | .andImm x _ :: rest => known.contains x && namesAssigned known rest
  | .bnz x _ :: rest => known.contains x && namesAssigned known rest
  | _ :: rest => namesAssigned known rest

/-- R118: the host programs whose meaning the notation states. -/
def programWellFormed (p : List HostOp) : Bool :=
  labelsDistinct p && targetsDefined p && namesAssigned [] p

end Sys2Proof
end

