-- ==== Sys2Proof/Decode.lean ====
section
/-! DEFINITION. The decoder of command words and the encoder beside it (spec/30_encoding.md R100 to
R102). The decoder is total and rejects by name. -/

namespace Sys2Proof

/-- Why bytes are no command. The block accepts such a word all the same and completes it with
IllegalCommand (R102); this names the part of R102 that makes it illegal. -/
inductive DecodeReject where
  /-- fewer bytes than a command word's four -/
  | tooFewBytes
  /-- bits [31:8] are not 0 -/
  | reservedBits
  /-- OPCODE is in 0x05 to 0xFF -/
  | reservedOpcode
deriving DecidableEq, Repr

/-- R101: the opcode map. -/
def decodeOpcode (op : BitVec 8) : Except DecodeReject Instr :=
  match op.toNat with
  | 0 => .ok .nop
  | 1 => .ok .encode
  | 2 => .ok .decode
  | 3 => .ok .averageColor
  | 4 => .ok .aspectRatio
  | _ => .error .reservedOpcode

/-- R140: decode a command word; the check of bits [31:8] comes first (R147). -/
def decodeWord (w : Word) : Except DecodeReject Instr :=
  if w.extractLsb' 8 24 = 0 then decodeOpcode (w.extractLsb' 0 8) else .error .reservedBits

/-- The word of four bytes, the byte at the lowest address first (spec/20_memory.md R78). -/
def wordOfBytes (b0 b1 b2 b3 : Byte) : Word :=
  b0.setWidth 32 ||| (b1.setWidth 32 <<< 8) ||| (b2.setWidth 32 <<< 16) ||| (b3.setWidth 32 <<< 24)

/-- Decode the command word at the front of a byte list, with the rest of the list. -/
def decodeBytes : List Byte → Except DecodeReject (Instr × List Byte)
  | b0 :: b1 :: b2 :: b3 :: rest =>
    match decodeWord (wordOfBytes b0 b1 b2 b3) with
    | .ok i => .ok (i, rest)
    | .error e => .error e
  | _ => .error .tooFewBytes

/-- R101: the opcode of a command. -/
def opcodeOf : Instr → BitVec 8
  | .nop => 0x00
  | .encode => 0x01
  | .decode => 0x02
  | .averageColor => 0x03
  | .aspectRatio => 0x04

/-- R100: the command word of a command, OPCODE in bits [7:0] and bits [31:8] 0. -/
def encode (i : Instr) : Word := (opcodeOf i).setWidth 32

/-- The instruction the decoder reads from a table word: its bits above `nbits` are 0, its bytes are
laid out in the byte order of the host bus and given to the decoder. -/
def decodeTableWord (nbits w : Nat) : Option Instr :=
  match decodeBytes (wordBytes (BitVec.ofNat 32 (w % 2 ^ nbits))) with
  | .ok (i, _) => some i
  | .error _ => none

end Sys2Proof
end

