-- ==== Sys2Proof/Machine/Registers.lean ====
section
/-! DEFINITION. The 15 host-visible registers: their offsets, what a read of each returns and what a
write does (spec/10_state.md R30 to R43). -/

namespace Sys2Proof.Machine

/-- The registers of R30, in the order of their offsets. -/
inductive Reg where
  | id
  | cmd
  | status
  | irqEn
  | imgW
  | imgH
  | inLen
  | hashLen
  | outW
  | outH
  | avgR
  | avgG
  | avgB
  | avgA
  | aspect
deriving DecidableEq, Repr

/-- R30: the register at an offset; a register is accessed at its own aligned offset only (R76). -/
def regAt (off : Nat) : Option Reg :=
  match off with
  | 0x000 => some .id
  | 0x004 => some .cmd
  | 0x008 => some .status
  | 0x00C => some .irqEn
  | 0x010 => some .imgW
  | 0x014 => some .imgH
  | 0x018 => some .inLen
  | 0x01C => some .hashLen
  | 0x020 => some .outW
  | 0x024 => some .outH
  | 0x028 => some .avgR
  | 0x02C => some .avgG
  | 0x030 => some .avgB
  | 0x034 => some .avgA
  | 0x038 => some .aspect
  | _ => none

/-- What a read of a register returns, outside the cases of spec/20_memory.md R83. CMD reads as 0
(R32); reserved bits read as 0 (R35 to R41). -/
def readReg (s : State) : Reg → Word
  | .id => Config.idValue
  | .cmd => 0
  | .status => statusWord s
  | .irqEn => irqEnWord s
  | .imgW => s.imgW.setWidth 32
  | .imgH => s.imgH.setWidth 32
  | .inLen => s.inLen
  | .hashLen => s.hashLen.setWidth 32
  | .outW => s.outW.setWidth 32
  | .outH => s.outH.setWidth 32
  | .avgR => s.avgR
  | .avgG => s.avgG
  | .avgB => s.avgB
  | .avgA => s.avgA
  | .aspect => s.aspect

/-- R39: the value a write of `v` to HASH_LEN stores, `min(v, 32)`, over all 32 bits of `v`
(DEDUCED, unsafe if R85's reserved bits are meant: notes/assumptions/20.md). -/
def hashLenOfWrite (v : Word) : BitVec 6 := BitVec.ofNat 6 (min v.toNat Config.hashSize)

/-- What a host write of `v` to a register does when neither spec/20_memory.md R84 nor a bus error
applies. Read-only registers ignore it (R85). -/
def writeReg (s : State) (v : Word) : Reg → State
  | .id => s
  | .cmd => s.offerCommand v
  | .status => s.writeStatus v
  | .irqEn => { s with doneIe := v.getLsbD 0 }
  | .imgW => { s with imgW := v.setWidth 16 }
  | .imgH => { s with imgH := v.setWidth 16 }
  | .inLen => { s with inLen := v }
  | .hashLen => { s with hashLen := hashLenOfWrite v }
  | .outW => s
  | .outH => s
  | .avgR => s
  | .avgG => s
  | .avgB => s
  | .avgA => s
  | .aspect => s

/-- R83: the result locations among the registers. -/
def regIsResult : Reg → Bool
  | .hashLen | .outW | .outH | .avgR | .avgG | .avgB | .avgA | .aspect => true
  | .id | .cmd | .status | .irqEn | .imgW | .imgH | .inLen => false

/-- R84: the registers whose writes are ignored, with a busy violation, while BUSY = 1. -/
def regIsGuarded : Reg → Bool
  | .cmd | .imgW | .imgH | .inLen | .hashLen => true
  | .id | .status | .irqEn | .outW | .outH | .avgR | .avgG | .avgB | .avgA | .aspect => false

end Sys2Proof.Machine
end

