-- ==== Sys2Proof/Machine/Bus.lean ====
section
/-! DEFINITION. The slave port: the address map, bus errors, and host reads and writes
(spec/20_memory.md R70 to R85). -/

namespace Sys2Proof.Machine

/-- The regions of R70. -/
inductive Region where
  | regs
  | hashbuf
  | pixout
  | pixin
  | reserved
deriving DecidableEq, Repr

/-- R70: the region of a window offset. -/
def regionOf (a : Nat) : Region :=
  if a < Config.regsEnd then .regs
  else if Config.hashBase ≤ a ∧ a < Config.hashBase + Config.hashSize then .hashbuf
  else if Config.pixoutBase ≤ a ∧ a < Config.pixoutBase + Config.pixoutSize then .pixout
  else if Config.pixinBase ≤ a ∧ a < Config.pixinBase + Config.pixinSize then .pixin
  else .reserved

/-- R70: the offset just past a region. -/
def regionEnd : Region → Nat
  | .regs => Config.regsEnd
  | .hashbuf => Config.hashBase + Config.hashSize
  | .pixout => Config.pixoutBase + Config.pixoutSize
  | .pixin => Config.pixinBase + Config.pixinSize
  | .reserved => 0

/-- R76, R77: an access that gets no bus error. It has a legal width, is aligned to it, is 4 bytes
wide in the register region, and lies wholly inside one region that is not reserved. -/
def accessOk (a : Offset) (n : Nat) : Bool :=
  (n == 1 || n == 2 || n == 4) && a.toNat % n == 0 &&
    (regionOf a.toNat != .reserved) && (regionOf a.toNat != .regs || n == 4) &&
    decide (a.toNat + n ≤ regionEnd (regionOf a.toNat))

/-- R83: whether an offset is in a result location. -/
def isResultAt (a : Nat) : Bool :=
  match regionOf a with
  | .regs => (regAt a).any regIsResult
  | .hashbuf => true
  | .pixout => true
  | .pixin => false
  | .reserved => false

/-- R84: whether an offset is in a location whose writes are ignored while BUSY = 1. -/
def isGuardedAt (a : Nat) : Bool :=
  match regionOf a with
  | .regs => (regAt a).any regIsGuarded
  | .hashbuf => true
  | .pixout => false
  | .pixin => true
  | .reserved => false

/-- R78: the value of bytes, the byte at the lowest offset in bits [7:0]. -/
def bytesValue : List Byte → Word
  | [] => 0
  | b :: rest => b.setWidth 32 ||| (bytesValue rest <<< 8)

/-- The low `n` bytes of a word, `n` at most 4. -/
def lowBytes (n : Nat) (v : Word) : Word := bytesValue ((wordBytes v).take n)

/-- R74: the value of a read that is neither a bus error nor unspecified. -/
def readData (s : State) (a : Offset) (n : Nat) : Word :=
  match regAt a.toNat with
  | some r => readReg s r
  | none => bytesValue (s.readBytes a.toNat n)

/-- R74, R77, R83: a host read of `n` bytes at a window offset. A read changes nothing of the block;
the state it returns has only the draw counter advanced, where a draw was taken. While the reset
input is asserted every access gets a bus error (spec/70_reset_and_hazards.md R330). -/
def memRead (s : State) (a : Offset) (n : Nat) : State × BusResp :=
  if s.rst || !accessOk a n then (s, ⟨true, 0⟩)
  else if s.busy && isResultAt a.toNat then
    ({ s with draws := s.draws + 1 }, ⟨false, lowBytes n (Config.busyRead s.draws)⟩)
  else (s, ⟨false, readData s a n⟩)

/-- R75: the effect of a write that gets no bus error. -/
def writeData (s : State) (a : Offset) (n : Nat) (v : Word) : State :=
  if s.busy && isGuardedAt a.toNat then s.busyViolation
  else match regionOf a.toNat with
    | .regs =>
      match regAt a.toNat with
      | some r => writeReg s v r
      | none => s
    | .hashbuf => { s with mem := storeBytes s.mem a.toNat ((wordBytes v).take n) }
    | .pixout => s
    | .pixin => { s with mem := storeBytes s.mem a.toNat ((wordBytes v).take n) }
    | .reserved => s

/-- R75, R77: a host write of the n-byte value `v` at a window offset. -/
def memWrite (s : State) (a : Offset) (n : Nat) (v : Word) : State × BusResp :=
  if s.rst || !accessOk a n then (s, ⟨true, 0⟩) else (writeData s a n v, ⟨false, 0⟩)

/-- R70: the window offset of a host address, where the block decodes it. -/
def windowOffset (addr : Nat) : Option Offset :=
  if Config.pBase ≤ addr ∧ addr < Config.pBase + Config.windowSize then
    some (BitVec.ofNat 17 (addr - Config.pBase))
  else none

end Sys2Proof.Machine
end

