-- ==== Sys2Proof/Machine/HostAgent.lean ====
section
/-! DEFINITION. The host agent's step: one operation of its program (spec/00_scope.md R5;
spec/20_memory.md R80; spec/30_encoding.md R118). -/

namespace Sys2Proof.Machine

/-- The value of a host name; free where the program has not read into it. -/
def nameValue (h : HostState) (x : HostName) : Word :=
  match h.names.lookup x with
  | some v => v
  | none => Config.unsetName x

/-- Give a host name a value. -/
def setName (h : HostState) (x : HostName) (v : Word) : HostState :=
  { h with names := (x, v) :: h.names.filter (fun e => e.1 != x) }

/-- Go on to the next operation. -/
def advance (h : HostState) : HostState := { h with pc := h.pc + 1 }

/-- R118: the place of a label; a program that does not define it has ended. -/
def labelPlace (h : HostState) (l : HostLabel) : Nat :=
  (h.prog.findIdx? (fun op => op == .label l)).getD h.prog.length

/-- A read's response goes to its name. -/
def receive (s : State) (x : HostName) (r : BusResp) : State :=
  { s with host := advance { setName s.host x r.data with resp := some r } }

/-- A write's response. -/
def acknowledge (s : State) (r : BusResp) : State :=
  { s with host := advance { s.host with resp := some r } }

/-- R70: a read at a host address, by its window offset if the block decodes it. Elsewhere the platform
answers and the spec says nothing of the answer: the error response and the data, cut to the width of
the access, are free values (DESIGN CHOICE, safe: notes/assumptions/7.md). -/
def platformRead (s : State) (n : Nat) (x : HostName) : Option Offset → State
  | some a => receive (memRead s a n).1 x (memRead s a n).2
  | none => receive { s with draws := s.draws + 1 } x
      ⟨Config.outsideError s.draws, lowBytes n (Config.outsideRead s.draws)⟩

/-- R70: a write at a host address, by its window offset if the block decodes it. A write elsewhere
has no effect on the block, and whether the platform answers with an error is a free value (DESIGN
CHOICE, safe: notes/assumptions/7.md). -/
def platformWrite (s : State) (n : Nat) (v : Word) : Option Offset → State
  | some a => acknowledge (memWrite s a n v).1 (memWrite s a n v).2
  | none => acknowledge { s with draws := s.draws + 1 } ⟨Config.outsideError s.draws, 0⟩

/-- One operation of the host program. -/
def hostOp (s : State) : HostOp → State
  | .read a n x => receive (memRead s a n).1 x (memRead s a n).2
  | .write a n v => acknowledge (memWrite s a n v).1 (memWrite s a n v).2
  | .readAddr addr n x => platformRead s n x (windowOffset addr)
  | .writeAddr addr n v => platformWrite s n v (windowOffset addr)
  | .label _ => { s with host := advance s.host }
  | .bnz x l =>
    if nameValue s.host x = 0 then { s with host := advance s.host }
    else { s with host := { s.host with pc := labelPlace s.host l } }
  | .andImm x v => { s with host := advance (setName s.host x (nameValue s.host x &&& v)) }
  | .waitIrq => if s.irq then { s with host := advance s.host } else s
  | .rst level =>
    if level then { s with host := advance s.host }.assertReset
    else { s with host := advance s.host }.releaseReset

/-- The host's step: its next operation, or no access when its program has ended. -/
def hostStep (s : State) : State :=
  match s.host.prog[s.host.pc]? with
  | some op => hostOp s op
  | none => s

end Sys2Proof.Machine
end

