-- ==== Sys2Proof/Machine/Fetch.lean ====
section
/-! DEFINITION. What takes the place of instruction fetch (spec/10_state.md R33): the latched command
word, whose turn it is, and the placing of a command word in the latch. -/

namespace Sys2Proof.Machine

/-- The command word of the command being run (spec/10_state.md R46). -/
def fetchWord (s : State) : Word := s.oplatch

/-- The bytes of the latched command word, in the byte order of the host bus. -/
def fetchBytes (s : State) : List Byte := wordBytes (fetchWord s)

/-- The command of the latched word, or why it is illegal (R140). -/
def fetchInstr (s : State) : Except DecodeReject Instr :=
  match decodeBytes (fetchBytes s) with
  | .ok (i, _) => .ok i
  | .error e => .error e

/-- Whether the completion step is the next step: a command is running, the reset input is not
asserted, and the command's latency has passed (spec/10_state.md R50, spec/70_reset_and_hazards.md
R350). Otherwise the host takes the next step. -/
def coreTurn (s : State) : Bool := s.busy && !s.rst && s.wait == 0

/-- One host bus cycle of the running command's latency passes (R350). -/
def tick (s : State) : State := { s with wait := s.wait - 1 }

/-- Place a command word in OPLATCH so that the next step is its completion. -/
def latchWord (s : State) (w : Word) : State :=
  { s with oplatch := w, phase := .busy, wait := 0, rst := false }

end Sys2Proof.Machine
end

