-- ==== Sys2Proof/Machine/Step.lean ====
section
/-! DEFINITION. The step: the core's completion step when it is due, else one host bus cycle
(spec/00_scope.md R5; spec/10_state.md R50; spec/20_memory.md R80). -/

namespace Sys2Proof.Machine

/-- One step. When the completion step is due, the latched command runs, or completes as illegal
(spec/40_commands.md R140); otherwise the host makes its next access, and one bus cycle of the
running command's latency passes. -/
def step (s : State) : Host.Outcome State Fault Refusal :=
  if coreTurn s then
    match fetchInstr s with
    | .ok i => exec i s
    | .error _ => completeIllegal s
  else .next (hostStep (tick s))

/-- The state whose next step runs the command of a table word: the word (its bits above `nbits` 0)
in OPLATCH, the sequencer BUSY with its latency passed, and the reset input released. It stands for
the host's accepted write of that word to CMD (spec/10_state.md R33, R49; DESIGN CHOICE, safe:
notes/assumptions/1.md). -/
def State.withFetchWord (s : State) (nbits w : Nat) : State :=
  latchWord s (BitVec.ofNat 32 (w % 2 ^ nbits))

end Sys2Proof.Machine
end

