-- ==== Sys2Proof/Safety.lean ====
section
/-! DEFINITION. What counts as a legal state of the block, in the terms the statements use. Each
predicate is one the spec's rules imply for every state a run reaches. -/

namespace Sys2Proof.Machine

/-- An offset in one of the three buffers (spec/20_memory.md R70). -/
def inBuffers (a : Nat) : Bool :=
  match regionOf a with
  | .hashbuf | .pixout | .pixin => true
  | .regs | .reserved => false

/-- The memory is in its canonical form and lists only buffer bytes (spec/10_state.md R45). -/
def memoryLegal (s : State) : Prop := Memory.wf s.mem ∧ ∀ c ∈ s.mem, inBuffers c.1 = true

/-- HASH_LEN holds a byte count from 0 to 32 (spec/10_state.md R39). -/
def hashLenLegal (s : State) : Prop := s.hashLen.toNat ≤ Config.hashSize

/-- OUT_W and OUT_H are 0 before the first successful DECODE; after it one of them is 32 and the
other at most 32 (spec/10_state.md R40, R41; spec/47_dct_decoder.md R280). -/
def outSizeLegal (s : State) : Prop :=
  (s.outW = 0 ∧ s.outH = 0) ∨ (s.outW = 32 ∧ s.outH.toNat ≤ 32) ∨ (s.outH = 32 ∧ s.outW.toNat ≤ 32)

/-- A binary32 number in [0, 1]. -/
def inUnit (x : F32) : Prop := fLe 0 x = true ∧ fLe x fOne = true

/-- Each AVG register holds a number in [0, 1] (spec/10_state.md R42). -/
def averageLegal (s : State) : Prop :=
  inUnit s.avgR ∧ inUnit s.avgG ∧ inUnit s.avgB ∧ inUnit s.avgA

/-- ASPECT holds a number that is not NaN and not negative; +infinity is one
(spec/10_state.md R43). -/
def aspectLegal (s : State) : Prop := fLe 0 s.aspect = true

/-- While a command runs DONE and ERR are 0, as its acceptance left them, and no latency is left
over while none runs (spec/10_state.md R34, R49). -/
def sequencerLegal (s : State) : Prop :=
  (s.phase = .busy → s.done = false ∧ s.err = .ok) ∧ (s.phase = .idle → s.wait = 0)

/-- What the block holds, without the model's own counters, the reset input and the host. -/
def State.block (s : State) : State :=
  { s with rst := false, resets := 0, draws := 0, host := State.reset.host }

/-- While the reset input is asserted the block is in its reset state
(spec/70_reset_and_hazards.md R330). -/
def resetHeld (s : State) : Prop := s.rst = true → s.block = State.reset

end Sys2Proof.Machine
end

