-- ==== Sys2Proof/Certificates/Slice0/Obligations.lean ====
section
/-! DEFINITION. The statements for the provers. Byte and register values are written from the rules'
own bit positions and formulas; `Config.cos32` is the free cosine unit P_COS.
What a write does is the state it leaves; its response carries no data (R75). -/

open Sys2Proof Sys2Proof.Machine

/-! ### Command words -/

/-- R100, R101: the decoder reads exactly the five words of the opcode map, each as its command. -/
def Obligations.OnlyMapWordsDecode : Prop :=
  ∀ (w : Word) (i : Instr), decodeWord w = .ok i ↔
    (w.toNat = 0 ∧ i = .nop) ∨ (w.toNat = 1 ∧ i = .encode) ∨ (w.toNat = 2 ∧ i = .decode) ∨
      (w.toNat = 3 ∧ i = .averageColor) ∨ (w.toNat = 4 ∧ i = .aspectRatio)

/-- R100: the bytes of every command's word, with any bytes after them, decode to the command. -/
def Obligations.DecodeEncodeAgree : Prop :=
  ∀ (i : Instr) (rest : List Byte), decodeBytes (wordBytes (encode i) ++ rest) = .ok (i, rest)

/-- Words written out from R101 decode to their commands; two words R102 makes illegal are refused, each
by the reason. -/
def Obligations.DecodeOfWrittenWords : Prop :=
  decodeWord 0x00000000#32 = .ok .nop ∧ decodeWord 0x00000001#32 = .ok .encode ∧
    decodeWord 0x00000002#32 = .ok .decode ∧ decodeWord 0x00000003#32 = .ok .averageColor ∧
    decodeWord 0x00000004#32 = .ok .aspectRatio ∧
    decodeWord 0x00000101#32 = .error .reservedBits ∧
    decodeWord 0x00000005#32 = .error .reservedOpcode

/-- When the completion step is due and the latched bytes decode to a command, the step is that
command's completion step and nothing around it (R50, R140). -/
def Obligations.StepRunsLatchedCommand : Prop :=
  ∀ (s : State) (i : Instr) (rest : List Byte),
    s.phase = .busy → s.rst = false → s.wait = 0 →
    decodeBytes (wordBytes s.oplatch) = .ok (i, rest) → step s = exec i s

/-- R147, R304: a latched word with bits [31:8] not 0, or an OPCODE of 0x05 or above, completes with
ERR 3 and DONE 1, and changes nothing else. The check of bits [31:8] comes first. -/
def Obligations.IllegalWordCompletes : Prop :=
  ∀ s : State, s.phase = .busy → s.rst = false → s.wait = 0 →
    (s.oplatch.extractLsb' 8 24 ≠ 0 ∨ 5 ≤ (s.oplatch.extractLsb' 0 8).toNat) →
    step s = .next { s with err := .illegalCommand, done := true, phase := .idle } ∧
      errBits .illegalCommand = 3 ∧
      (s.oplatch.extractLsb' 8 24 ≠ 0 → decodeWord s.oplatch = .error .reservedBits)

/-! ### Completion of every command -/

/-- R141: the word 0 is NOP, and NOP changes only STATUS: ERR becomes 0 and DONE 1. -/
def Obligations.NopCompletesWithStatusOnly : Prop :=
  decodeWord 0x00000000#32 = .ok .nop ∧
    ∀ s : State, exec .nop s = .next { s with err := .ok, done := true, phase := .idle }

/-- R143: an ENCODE whose preconditions hold completes; it writes the hash and then zeros to the 32
bytes of HASHBUF, and the hash's length to HASH_LEN, and changes nothing else but STATUS. Pixel i of the
image is bytes 4i to 4i + 3 of PIXIN, in the order R, G, B, A (R10, R71). The hash is built line by line
as R143 writes it: L on a grid of at least 3 x 3, P and Q on 3 x 3, A on 5 x 5 or (1.0, [], 1.0). What
each line computes is stated by formula of its own in TransparentImageAveragesToZero,
HasAlphaIffSomePixelNotOpaque, LongAxisGetsLimit, DcIsRunningMean, AcNibbleVectors, UnpackOfPackedHash
and PackPlacesNibbles. -/
def Obligations.EncodeCompletes : Prop :=
  ∀ s : State, s.imgW.toNat ≤ 100 → s.imgH.toNat ≤ 100 → s.imgW.toNat ≠ 0 → s.imgH.toNat ≠ 0 →
    s.inLen.toNat = s.imgW.toNat * s.imgH.toNat * 4 →
    ∃ t, exec .encode s = .next t ∧
      let w := s.imgW.toNat
      let h := s.imgH.toNat
      let px := (List.range (w * h)).map fun i =>
        Pixel.mk (s.readByte (0x10000 + 4 * i)) (s.readByte (0x10000 + 4 * i + 1))
          (s.readByte (0x10000 + 4 * i + 2)) (s.readByte (0x10000 + 4 * i + 3))
      let avg := averageColour px
      let hasAlpha := hasAlphaOf avg.a w h
      let plane (f : Lpqa → F32) := px.map fun p => f (project avg p)
      let g := lGrid w h hasAlpha
      let l := encodeChannel Config.cos32 (plane Lpqa.l) w h (max 3 g.1) (max 3 g.2)
      let p := encodeChannel Config.cos32 (plane Lpqa.p) w h 3 3
      let q := encodeChannel Config.cos32 (plane Lpqa.q) w h 3 3
      let a := if hasAlpha then encodeChannel Config.cos32 (plane Lpqa.a) w h 5 5
        else ⟨0x3F800000, [], 0x3F800000⟩
      let hash := pack (quantizeHeader l p q a hasAlpha w h g)
        ((l.ac ++ p.ac ++ q.ac ++ a.ac).map qac)
      t = { s with mem := t.mem, hashLen := t.hashLen, err := .ok, done := true, phase := .idle } ∧
      t.hashLen.toNat = hash.length ∧
      (∀ i < 32, t.readByte (0x100 + i) = hash.getD i 0) ∧
      (∀ a, a < 0x100 ∨ 0x120 ≤ a → t.readByte a = s.readByte a)

/-- R144, R73: a DECODE of a hash that is long enough completes; it writes the output size, the
image's bytes and then zeros to PIXOUT, and changes nothing else but STATUS. The dequantizer, the
output size and the bytes of the image are stated by formula in AcFactorTable, OutputSizeOfEveryHeader
and DecodedImageIsRowMajor. -/
def Obligations.DecodeCompletes : Prop :=
  ∀ (s : State) (hb : List Byte) (h : Header) (nib : List Nibble) (size : Nat × Nat)
    (rgba : List Byte),
    hb = (List.range s.hashLen.toNat).map (fun i => s.readByte (0x100 + i)) → 5 ≤ s.hashLen.toNat → unpackHeader hb = .ok h →
    hashLenOf h ≤ s.hashLen.toNat →
    nib = (List.range (nTotalOf h.hasAlpha (lGridOf h))).map
      (nibbleAt hb (if h.hasAlpha then 6 else 5)) →
    size = outputSize (fDiv (f32 (lGridOf h).1) (f32 (lGridOf h).2)) →
    rgba = inverseDct Config.cos32 (dequantize h nib) size.1 size.2 →
    ∃ t, exec .decode s = .next t ∧
      t = { s with mem := t.mem, outW := t.outW, outH := t.outH, err := .ok, done := true,
                   phase := .idle } ∧
      t.outW.toNat = size.1 ∧ t.outH.toNat = size.2 ∧ rgba.length = 4 * size.1 * size.2 ∧
      (∀ i < 4096, t.readByte (0x1000 + i) = rgba.getD i 0) ∧
      (∀ a, a < 0x1000 ∨ 0x2000 ≤ a → t.readByte a = s.readByte a)

/-- R145, R250: the word 3 is AVERAGE_COLOR. With a hash that is long enough it completes: the four
registers take the clamped colour of the DC fields, read at the bit positions of R104, and nothing
else but STATUS changes. With a shorter hash only STATUS changes, and ERR is 1. -/
def Obligations.AverageColorCompletes : Prop :=
  decodeWord 0x00000003#32 = .ok .averageColor ∧
  ∀ s : State,
    let b (i : Nat) : Nat := (s.readByte (0x100 + i)).toNat
    let hasAlpha := decide (128 ≤ b 2)
    let l := fDiv (f32 (b 0 % 64)) (f32 63)
    let p := fSub (fDiv (f32 (b 0 / 64 + b 1 % 16 * 4)) 0x41FC0000) 0x3F800000
    let q := fSub (fDiv (f32 (b 1 / 16 + b 2 % 4 * 16)) 0x41FC0000) 0x3F800000
    let blue := fSub l (fMul 0x3F2AAAAB p)
    let red := fDiv (fAdd (fSub (fMul (f32 3) l) blue) q) (f32 2)
    (5 ≤ s.hashLen.toNat → (hasAlpha = true → 6 ≤ s.hashLen.toNat) →
      exec .averageColor s = .next { s with
        avgR := clamp01 red
        avgG := clamp01 (fSub red q)
        avgB := clamp01 blue
        avgA := if hasAlpha then fDiv (f32 (b 5 % 16)) (f32 15) else 0x3F800000
        err := .ok, done := true, phase := .idle }) ∧
    (s.hashLen.toNat < 5 ∨ (hasAlpha = true ∧ s.hashLen.toNat < 6) →
      exec .averageColor s = .next { s with err := .tooShort, done := true, phase := .idle })

/-- R146, R251: the word 4 is ASPECT_RATIO. With a hash of at least 5 bytes it completes: ASPECT takes
lx / ly, with has_alpha, l_min and is_landscape read at byte2[7], byte3[2:0] and byte4[7], and nothing
else but STATUS changes. With a shorter hash only STATUS changes, and ERR is 1. -/
def Obligations.AspectRatioCompletes : Prop :=
  decodeWord 0x00000004#32 = .ok .aspectRatio ∧
  ∀ s : State,
    let b (i : Nat) : Nat := (s.readByte (0x100 + i)).toNat
    let lMax := if 128 ≤ b 2 then 5 else 7
    let lMin := b 3 % 8
    (5 ≤ s.hashLen.toNat → exec .aspectRatio s = .next { s with
      aspect := if 128 ≤ b 4 then fDiv (f32 lMax) (f32 lMin) else fDiv (f32 lMin) (f32 lMax)
      err := .ok, done := true, phase := .idle }) ∧
    (s.hashLen.toNat < 5 →
      exec .aspectRatio s = .next { s with err := .tooShort, done := true, phase := .idle })

/-! ### Errors -/

/-- R303: ContractViolation is raised exactly by an ENCODE with an image too large, empty, or of the
wrong byte count. -/
def Obligations.ContractViolationCauses : Prop :=
  ∀ (i : Instr) (s t : State), exec i s = .next t →
    (t.err = .contractViolation ↔ i = .encode ∧
      (100 < s.imgW.toNat ∨ 100 < s.imgH.toNat ∨ s.imgW.toNat = 0 ∨ s.imgH.toNat = 0 ∨
        s.inLen.toNat ≠ s.imgW.toNat * s.imgH.toNat * 4))

/-- R302: TooShort is raised exactly by a DECODE with fewer bytes than 5 or than HashLen(header), an
AVERAGE_COLOR with fewer than 5, or 6 with alpha, and an ASPECT_RATIO with fewer than 5; and no output
is written. HashLen is the table of R248, read at byte2[7] and byte3[2:0], and it is R114's length of
every header: H + (N_total + 1) / 2, with N_total from the lengths of the scans. -/
def Obligations.TooShortCauses : Prop :=
  let table (hasAlpha : Bool) (lMin : Nat) : Nat :=
    if hasAlpha then
      if lMin ≤ 3 then 23 else if lMin ≤ 5 then 25 else if lMin = 6 then 28 else 29
    else
      if lMin ≤ 3 then 17 else if lMin = 4 then 19 else if lMin = 5 then 21 else if lMin = 6 then 23
      else 24
  (∀ (i : Instr) (s t : State), exec i s = .next t →
    let hasAlpha := decide (128 ≤ (s.readByte 0x102).toNat)
    (t.err = .tooShort ↔
      (i = .decode ∧ (s.hashLen.toNat < 5 ∨
        s.hashLen.toNat < table hasAlpha ((s.readByte 0x103).toNat % 8))) ∨
      (i = .averageColor ∧ (s.hashLen.toNat < 5 ∨ (hasAlpha = true ∧ s.hashLen.toNat < 6))) ∨
      (i = .aspectRatio ∧ s.hashLen.toNat < 5)) ∧
    (t.err = .tooShort → t = { s with err := .tooShort, done := true, phase := .idle })) ∧
  (∀ h : Header, hashLenOf h = table h.hasAlpha h.lMin.toNat ∧
    hashLenOf h = (if h.hasAlpha then 6 else 5) + (nTotalOf h.hasAlpha (lGridOf h) + 1) / 2) ∧
  ∀ (hasAlpha : Bool) (g : Nat × Nat),
    nTotalOf hasAlpha g = ((scan (max 3 g.1) (max 3 g.2)).length - 1) + 5 + 5 +
      (if hasAlpha then 14 else 0)

/-- R307: a command or an illegal word that raises a code sets ERR to it, DONE and PHASE, and changes
nothing else. -/
def Obligations.ErrorsWriteNoOutput : Prop :=
  (∀ (i : Instr) (s t : State), exec i s = .next t → t.err ≠ .ok →
    t = { s with err := t.err, done := true, phase := .idle }) ∧
  ∀ s : State, completeIllegal s =
    .next { s with err := .illegalCommand, done := true, phase := .idle }

/-- R81: what each command may write. Every command leaves the input registers and PIXIN as they are;
only ENCODE writes HASH_LEN and HASHBUF, only DECODE writes OUT_W, OUT_H and PIXOUT, only
AVERAGE_COLOR the AVG registers, only ASPECT_RATIO ASPECT (R141 to R146). A completion makes PHASE
IDLE and DONE 1 and leaves IRQ_EN and BVIOL (R50). That OPLATCH keeps its word is the model's reading
of R46 and R50 (DEDUCED, notes/assumptions/14.md). -/
def Obligations.CommandsWriteOnlyTheirOutputs : Prop :=
  ∀ (i : Instr) (s t : State), exec i s = .next t →
    t = { s with phase := .idle, done := true, err := t.err, hashLen := t.hashLen, outW := t.outW,
                 outH := t.outH, avgR := t.avgR, avgG := t.avgG, avgB := t.avgB, avgA := t.avgA,
                 aspect := t.aspect, mem := t.mem } ∧
    (i ≠ .encode → t.hashLen = s.hashLen) ∧
    (i ≠ .decode → t.outW = s.outW ∧ t.outH = s.outH) ∧
    (i ≠ .averageColor → t.avgR = s.avgR ∧ t.avgG = s.avgG ∧ t.avgB = s.avgB ∧ t.avgA = s.avgA) ∧
    (i ≠ .aspectRatio → t.aspect = s.aspect) ∧
    (∀ a, ¬(i = .encode ∧ 0x100 ≤ a ∧ a < 0x120) → ¬(i = .decode ∧ 0x1000 ≤ a ∧ a < 0x2000) →
      t.readByte a = s.readByte a)

/-! ### The hash wire format -/

/-- R103 to R110, R230, R241 to R245: unpacking a packed hash, with any bytes after it, gives back
every field of the header record and every nibble. -/
def Obligations.UnpackOfPackedHash : Prop :=
  ∀ (h : Header) (nib : List Nibble) (extra : List Byte),
    headerWellFormed h = true → nib.length = nTotalOf h.hasAlpha (lGridOf h) →
    unpackHeader (pack h nib ++ extra) = .ok h ∧ unpackAc (pack h nib ++ extra) h = .ok nib

/-- R104, R105, R107, R220 to R223: bytes 0 to 4 of a packed hash, and byte 5 with alpha, by arithmetic
on the fields of the header record: every field at its bits. R109, R226 to R228: nibble k lies in byte
H + (k >> 1), the low half when k is even and the high half when k is odd; when the count is odd the
last byte's high half is 0. -/
def Obligations.PackPlacesNibbles : Prop :=
  ∀ (h : Header) (nib : List Nibble), headerWellFormed h = true →
    let start := if h.hasAlpha then 6 else 5
    let b (i : Nat) : Nat := ((pack h nib).getD i 0).toNat
    b 0 = h.lDc.toNat + h.pDc.toNat % 4 * 64 ∧
    b 1 = h.pDc.toNat / 4 + h.qDc.toNat % 16 * 16 ∧
    b 2 = h.qDc.toNat / 16 + h.lScale.toNat * 4 + (if h.hasAlpha then 128 else 0) ∧
    b 3 = h.lMin.toNat + h.pScale.toNat % 32 * 8 ∧
    b 4 = h.pScale.toNat / 32 + h.qScale.toNat * 2 + (if h.isLandscape then 128 else 0) ∧
    (∀ f, h.alpha = some f → b 5 = f.aDc.toNat + f.aScale.toNat * 16) ∧
    (∀ k < nib.length, k % 2 = 0 → b (start + k / 2) % 16 = (nib.getD k 0).toNat) ∧
    (∀ k < nib.length, k % 2 = 1 → b (start + k / 2) / 16 = (nib.getD k 0).toNat) ∧
    (nib.length % 2 = 1 → b (start + nib.length / 2) < 16) ∧
    (pack h nib).length = start + (nib.length + 1) / 2

/-- R246: the nibble reader with a state machine gives the list of R245, and TooShort under the same
condition. -/
def Obligations.UnpackersAgree : Prop :=
  ∀ (hb : List Byte) (start n : Nat), 0 < n →
    readNibbles n .empty (hb.drop start) =
      if hb.length < start + (n + 1) / 2 then .error .tooShort
      else .ok ((List.range n).map (nibbleAt hb start))

/-- R252: bytes after the last one a command reads have no effect on any result: after 5 for
ASPECT_RATIO, after the header for AVERAGE_COLOR, after HashLen for DECODE. -/
def Obligations.TrailingBytesIgnored : Prop :=
  ∀ hb extra : List Byte,
    (5 ≤ hb.length → aspectRatio (hb ++ extra) = aspectRatio hb) ∧
    ∀ h : Header, unpackHeader hb = .ok h →
      averageFromHash (hb ++ extra) = averageFromHash hb ∧
      (hashLenOf h ≤ hb.length →
        decodeHash Config.cos32 (hb ++ extra) = decodeHash Config.cos32 hb)

/-- R247: when the nibble count is odd, the high nibble of the last AC byte, which is byte
H + (N - 1) / 2, has no effect on any result. -/
def Obligations.PaddingNibbleIgnored : Prop :=
  ∀ (hb : List Byte) (h : Header) (b : Byte), unpackHeader hb = .ok h →
    nTotalOf h.hasAlpha (lGridOf h) % 2 = 1 → hashLenOf h ≤ hb.length →
    let last := (if h.hasAlpha then 6 else 5) + (nTotalOf h.hasAlpha (lGridOf h) - 1) / 2
    b.setWidth 4 = (hb.getD last 0).setWidth 4 →
    decodeHash Config.cos32 (hb.set last b) = decodeHash Config.cos32 hb ∧
      averageFromHash (hb.set last b) = averageFromHash hb ∧
      aspectRatio (hb.set last b) = aspectRatio hb

/-- R111: Scan lists exactly the triangular set, each pair once, by rising cy and then rising cx; its
first entry is (0, 0), and AC index j is its entry j + 1. -/
def Obligations.ScanListsTriangularSet : Prop :=
  ∀ nx ny : Nat, 1 ≤ nx → 1 ≤ ny →
    (∀ cx cy, (cx, cy) ∈ scan nx ny ↔ cy < ny ∧ cx * ny < nx * (ny - cy)) ∧
    (scan nx ny).Pairwise (fun c d => c.2 < d.2 ∨ (c.2 = d.2 ∧ c.1 < d.1)) ∧
    (scan nx ny).head? = some (0, 0) ∧
    ∀ j : Nat, (acScan nx ny)[j]? = (scan nx ny)[j + 1]?

/-- R112: NAC counts the scan's entries after the first; its table, rows nx = 3 to 7 and columns
ny = 3 to 7; and the three scans the rule lists. -/
def Obligations.AcCountTable : Prop :=
  (∀ nx ny : Nat, nac nx ny = (scan nx ny).length - 1) ∧
  (List.range 5).map (fun i => (List.range 5).map fun j => nac (i + 3) (j + 3)) =
    [[5, 8, 10, 11, 14], [8, 9, 13, 15, 18], [10, 13, 14, 19, 22], [11, 15, 19, 20, 26],
     [14, 18, 22, 26, 27]] ∧
  scan 3 3 = [(0, 0), (1, 0), (2, 0), (0, 1), (1, 1), (0, 2)] ∧
  scan 5 5 = [(0, 0), (1, 0), (2, 0), (3, 0), (4, 0), (0, 1), (1, 1), (2, 1), (3, 1), (0, 2), (1, 2),
    (2, 2), (0, 3), (1, 3), (0, 4)] ∧
  scan 7 4 = [(0, 0), (1, 0), (2, 0), (3, 0), (4, 0), (5, 0), (6, 0), (0, 1), (1, 1), (2, 1), (3, 1),
    (4, 1), (5, 1), (0, 2), (1, 2), (2, 2), (3, 2), (0, 3), (1, 3)]

/-- R115: the long side of the L grid, NAC of the grid, N_total and the bytes of every hash the
encoder makes, by has_alpha and the short side; the bytes are 17 to 25, and HashLen of the header. -/
def Obligations.EncodedHashLength : Prop :=
  ∀ (w h : Nat) (px : List Byte), 1 ≤ w → w ≤ 100 → 1 ≤ h → h ≤ 100 →
    let e := transform Config.cos32 w h (toPixels px)
    let g := lGrid w h e.hasAlpha
    let hash := encodeHash Config.cos32 w h px
    (max g.1 g.2, nac (max 3 g.1) (max 3 g.2), (nibblesOf e).length, hash.length) =
      (if e.hasAlpha then
        if min g.1 g.2 ≤ 3 then (5, 10, 34, 23)
        else if min g.1 g.2 = 4 then (5, 13, 37, 25) else (5, 14, 38, 25)
      else
        if min g.1 g.2 ≤ 3 then (7, 14, 24, 17)
        else if min g.1 g.2 = 4 then (7, 18, 28, 19)
        else if min g.1 g.2 = 5 then (7, 22, 32, 21)
        else if min g.1 g.2 = 6 then (7, 26, 36, 23) else (7, 27, 37, 24)) ∧
    17 ≤ hash.length ∧ hash.length ≤ 25 ∧ hash.length = hashLenOf (headerOf e w h)

/-- R343: a DECODE issued straight after a successful ENCODE succeeds, and so do AVERAGE_COLOR and
ASPECT_RATIO. -/
def Obligations.EncodedHashDecodes : Prop :=
  ∀ s t : State, exec .encode s = .next t → t.err = .ok →
    ∀ i, i ≠ .encode → ∃ u, exec i t = .next u ∧ u.err = .ok

/-- R148: ASPECT_RATIO of the hash an ENCODE made gives lx / ly for the encoder's own grid, which is
the grid the decoder derives from the header. The header and the nibbles read back from HASHBUF are
those the encoder packed: each field by the formula of R201 to R207 from its channel's DC or scale,
each nibble by R208 from its AC value. -/
def Obligations.AspectRatioOfEncodedHash : Prop :=
  ∀ s t : State, exec .encode s = .next t → t.err = .ok →
    let w := s.imgW.toNat
    let h := s.imgH.toNat
    let e := transform Config.cos32 w h ((List.range (w * h)).map fun i =>
      Pixel.mk (s.readByte (0x10000 + 4 * i)) (s.readByte (0x10000 + 4 * i + 1))
        (s.readByte (0x10000 + 4 * i + 2)) (s.readByte (0x10000 + 4 * i + 3)))
    let hb := (List.range t.hashLen.toNat).map fun i => t.readByte (0x100 + i)
    let g := lGrid w h e.hasAlpha
    (∃ hd, unpackHeader hb = .ok hd ∧ lGridOf hd = g ∧ hd.hasAlpha = e.hasAlpha ∧
      hd.isLandscape = decide (h < w) ∧
      hd.lDc.toNat = toU 6 (roundHA (fMul (f32 63) e.l.dc)) ∧
      hd.pDc.toNat = toU 6 (roundHA (fAdd 0x41FC0000 (fMul 0x41FC0000 e.p.dc))) ∧
      hd.qDc.toNat = toU 6 (roundHA (fAdd 0x41FC0000 (fMul 0x41FC0000 e.q.dc))) ∧
      hd.lScale.toNat = toU 5 (roundHA (fMul (f32 31) e.l.scale)) ∧
      hd.pScale.toNat = toU 6 (roundHA (fMul (f32 63) e.p.scale)) ∧
      hd.qScale.toNat = toU 6 (roundHA (fMul (f32 63) e.q.scale)) ∧
      (∀ f, hd.alpha = some f → f.aDc.toNat = toU 4 (roundHA (fMul (f32 15) e.a.dc)) ∧
        f.aScale.toNat = toU 4 (roundHA (fMul (f32 15) e.a.scale))) ∧
      unpackAc hb hd = .ok ((e.l.ac ++ e.p.ac ++ e.q.ac ++ e.a.ac).map qac)) ∧
    ∃ u, exec .aspectRatio t = .next u ∧ u.aspect = fDiv (f32 g.1) (f32 g.2)

/-! ### The sub-blocks -/

/-- R161: has_alpha compares the summed alpha with the pixel count, and it is 1 exactly when some
pixel has A < 255. -/
def Obligations.HasAlphaIffSomePixelNotOpaque : Prop :=
  (∀ (avgA : F32) (w h : Nat), hasAlphaOf avgA w h = fLt avgA (f32 (w * h))) ∧
  ∀ (w h : Nat) (px : List Pixel), 1 ≤ w → w ≤ 100 → 1 ≤ h → h ≤ 100 → px.length = w * h →
    hasAlphaOf (averageColour px).a w h = px.any fun p => decide (p.a.toNat < 255)

/-- R160: the average colour by its formula: each component is the sum, in pixel order, of
(alpha / 255) * value, divided by the sum of the alphas where that is above 0; so the average colour
of an image in which every pixel has A = 0 is zero. R162, R164: a pixel's plane entries by their
formulas, composited over the average colour. -/
def Obligations.TransparentImageAveragesToZero : Prop :=
  let alpha (p : Pixel) : F32 := fDiv (f32 p.a.toNat) (f32 255)
  (∀ px : List Pixel, (∀ p ∈ px, p.a = 0) → averageColour px = ⟨0, 0, 0, 0⟩) ∧
  (∀ px : List Pixel,
    let total := px.foldl (fun s p => fAdd s (alpha p)) 0
    let sum (c : Pixel → Byte) : F32 :=
      px.foldl (fun s p => fAdd s (fMul (fDiv (alpha p) (f32 255)) (f32 (c p).toNat))) 0
    averageColour px =
      if fLt 0 total then
        ⟨fDiv (sum Pixel.r) total, fDiv (sum Pixel.g) total, fDiv (sum Pixel.b) total, total⟩
      else ⟨sum Pixel.r, sum Pixel.g, sum Pixel.b, total⟩) ∧
  ∀ (avg : Rgba) (p : Pixel),
    let mix (c : F32) (v : Byte) : F32 :=
      fAdd (fMul c (fSub 0x3F800000 (alpha p))) (fMul (fDiv (alpha p) (f32 255)) (f32 v.toNat))
    let r := mix avg.r p.r
    let g := mix avg.g p.g
    let b := mix avg.b p.b
    project avg p = ⟨fDiv (fAdd (fAdd r g) b) (f32 3), fSub (fDiv (fAdd r g) (f32 2)) b, fSub r g,
      alpha p⟩

/-- R180: the long axis gets exactly l_limit, the other 1 to l_limit: l_limit * d / m rounded to the
nearest whole number, halves up, and at least 1, for d the axis and m the longer one. -/
def Obligations.LongAxisGetsLimit : Prop :=
  ∀ (w h : Nat) (hasAlpha : Bool), 1 ≤ w → w ≤ 100 → 1 ≤ h → h ≤ 100 →
    let g := lGrid w h hasAlpha
    let limit := if hasAlpha then 5 else 7
    (h ≤ w → g.1 = limit) ∧ (w ≤ h → g.2 = limit) ∧
      1 ≤ g.1 ∧ g.1 ≤ limit ∧ 1 ≤ g.2 ∧ g.2 ≤ limit ∧
      g.1 = max 1 ((2 * limit * w + max w h) / (2 * max w h)) ∧
      g.2 = max 1 ((2 * limit * h + max w h) / (2 * max w h))

/-- R181, R182: the coefficient at every frequency is the sum of the plane's values times the basis of
R181, y-major and then x, divided by the pixel count. R183: the DC is the coefficient at (0, 0); and if
cos32(+0.0) = 1.0, every basis value at frequency 0 is 1.0, and the DC is the binary32 running sum of
the plane divided by the pixel count. Beside it, as R184 to R186 compute them: the AC list in scan order,
its scale, and its normalisation where the scale is above 0. -/
def Obligations.DcIsRunningMean : Prop :=
  ∀ (cos : F32 → F32) (ch : List F32) (w h : Nat),
    1 ≤ w → w ≤ 100 → 1 ≤ h → h ≤ 100 → ch.length = w * h →
    (∀ cx cy : Nat,
      let fx (x : Nat) := cos (fMul (fMul (fDiv 0x40490FDB (f32 w)) (f32 cx)) (fAdd (f32 x) 0x3F000000))
      let fy (y : Nat) := cos (fMul (fMul (fDiv 0x40490FDB (f32 h)) (f32 cy)) (fAdd (f32 y) 0x3F000000))
      coefficient cos ch w h cx cy =
        fDiv ((List.range (h * w)).foldl (fun f i =>
          fAdd f (fMul (fMul (ch.getD i 0) (fx (i % w))) (fy (i / w)))) 0) (f32 (w * h))) ∧
    (∀ nx ny : Nat,
      let c := encodeChannel cos ch w h nx ny
      let ac := ((scan nx ny).drop 1).map fun k => coefficient cos ch w h k.1 k.2
      c.dc = coefficient cos ch w h 0 0 ∧
      c.scale = ac.foldl (fun m f => fMax m (f &&& 0x7FFFFFFF)) 0 ∧
      (fLt 0 c.scale = true →
        c.ac = ac.map fun v => fAdd 0x3F000000 (fMul (fDiv 0x3F000000 c.scale) v)) ∧
      (fLt 0 c.scale = false → c.ac = ac)) ∧
    (cos 0 = fOne →
      (∀ x < w, fwdBasis cos w 0 x = fOne) ∧ (∀ y < h, fwdBasis cos h 0 y = fOne) ∧
      coefficient cos ch w h 0 0 = fDiv (ch.foldl fAdd 0) (f32 (w * h)))

/-- R186, R208: a channel whose AC values are all plus or minus zero has scale 0 and nibbles 0. -/
def Obligations.ZeroChannelPacksZeroNibbles : Prop :=
  ∀ ac : List F32, (∀ v ∈ ac, v = 0 ∨ v = 0x80000000) →
    acScale ac = 0 ∧ normalise ac (acScale ac) = ac ∧
      (normalise ac (acScale ac)).map qac = ac.map fun _ => 0

/-- R200 to R210: every field of the header record by its formula, a number scaled, rounded half away
from zero and saturated at the field's width; the alpha fields only with alpha; l_min from the side
that is not dominant; and the AC nibble of R208. Then the ties and saturations of the vectors V-Q-1 and
V-Q-2. -/
def Obligations.AcNibbleVectors : Prop :=
  (∀ (l p q a : Channel) (hasAlpha : Bool) (w h : Nat) (g : Nat × Nat), g.1 ≤ 7 → g.2 ≤ 7 →
    let hd := quantizeHeader l p q a hasAlpha w h g
    hd.lDc.toNat = toU 6 (roundHA (fMul (f32 63) l.dc)) ∧
    hd.pDc.toNat = toU 6 (roundHA (fAdd 0x41FC0000 (fMul 0x41FC0000 p.dc))) ∧
    hd.qDc.toNat = toU 6 (roundHA (fAdd 0x41FC0000 (fMul 0x41FC0000 q.dc))) ∧
    hd.lScale.toNat = toU 5 (roundHA (fMul (f32 31) l.scale)) ∧
    hd.pScale.toNat = toU 6 (roundHA (fMul (f32 63) p.scale)) ∧
    hd.qScale.toNat = toU 6 (roundHA (fMul (f32 63) q.scale)) ∧
    hd.hasAlpha = hasAlpha ∧ hd.isLandscape = decide (h < w) ∧
    hd.lMin.toNat = (if h < w then g.2 else g.1) ∧
    (hasAlpha = false → hd.alpha = none) ∧
    (hasAlpha = true → ∃ f, hd.alpha = some f ∧
      f.aDc.toNat = toU 4 (roundHA (fMul (f32 15) a.dc)) ∧
      f.aScale.toNat = toU 4 (roundHA (fMul (f32 15) a.scale)))) ∧
  (∀ v : F32, (qac v).toNat = toU 4 (roundHA (fMul (f32 15) v))) ∧
  ([0x00000000, 0x80000000, 0x3EFFFFFF, 0x3F000000, 0x3D088889, 0x3F777778, 0x3F800000,
    0x3F800001] : List F32).map qac = [0, 0, 7, 8, 1, 15, 15, 15] ∧
  quantPqDc 0 = 32 ∧ quantLDc 0x3EAAAAAB = 21 ∧ qn 6 0x427A0000 = 63 ∧ qn 6 0x427D999A = 63

/-- R260 to R270: every DC, scale and AC value of the dequantized channels by its formula, with the
1.25 boost of the P and Q scales only, and each AC value at its frequency in scan order; the nibbles
are cut into L, P, Q and A in that order. Then the factor `f32(n) / 7.5 - 1` of R269 for every nibble,
and the vectors V-DQ-1 with the examples of R263, R266 and R268. -/
def Obligations.AcFactorTable : Prop :=
  (∀ (h : Header) (nib : List Nibble), headerWellFormed h = true →
    nib.length = nTotalOf h.hasAlpha (lGridOf h) →
    let v := dequantize h nib
    let grid := scan (max 3 (lGridOf h).1) (max 3 (lGridOf h).2)
    let nL := grid.length - 1
    let pqDc (n : BitVec 6) : F32 := fSub (fDiv (f32 n.toNat) 0x41FC0000) 0x3F800000
    let boosted (n : BitVec 6) : F32 := fMul (fDiv (f32 n.toNat) (f32 63)) 0x3FA00000
    let acs (s : F32) (ns : List Nibble) : List F32 :=
      ns.map fun n => fMul (fSub (fDiv (f32 n.toNat) 0x40F00000) 0x3F800000) s
    v.l.dc = fDiv (f32 h.lDc.toNat) (f32 63) ∧ v.p.dc = pqDc h.pDc ∧ v.q.dc = pqDc h.qDc ∧
    v.l.ac.map Prod.snd = acs (fDiv (f32 h.lScale.toNat) (f32 31)) (nib.take nL) ∧
    v.p.ac.map Prod.snd = acs (boosted h.pScale) ((nib.drop nL).take 5) ∧
    v.q.ac.map Prod.snd = acs (boosted h.qScale) ((nib.drop (nL + 5)).take 5) ∧
    v.l.ac.map Prod.fst = grid.drop 1 ∧
    v.p.ac.map Prod.fst = [(1, 0), (2, 0), (0, 1), (1, 1), (0, 2)] ∧
    v.q.ac.map Prod.fst = [(1, 0), (2, 0), (0, 1), (1, 1), (0, 2)] ∧
    (h.alpha = none → v.a = none) ∧
    (∀ f, h.alpha = some f → ∃ c, v.a = some c ∧ c.dc = fDiv (f32 f.aDc.toNat) (f32 15) ∧
      c.ac.map Prod.snd = acs (fDiv (f32 f.aScale.toNat) (f32 15)) (nib.drop (nL + 10)) ∧
      c.ac.map Prod.fst = (scan 5 5).drop 1)) ∧
  (List.range 16).map (fun n => deqAc fOne (BitVec.ofNat 4 n)) =
    ([0xBF800000, 0xBF5DDDDE, 0xBF3BBBBC, 0xBF19999A, 0xBEEEEEEE, 0xBEAAAAAA, 0xBE4CCCCC,
      0xBD888888, 0x3D888890, 0x3E4CCCD0, 0x3EAAAAAC, 0x3EEEEEF0, 0x3F19999A, 0x3F3BBBBC,
      0x3F5DDDDE, 0x3F800000] : List F32) ∧
  ([0, 21, 29, 63] : List (BitVec 6)).map deqLDc = [0, 0x3EAAAAAB, 0x3EEBAEBB, 0x3F800000] ∧
  ([0, 31, 32, 63] : List (BitVec 6)).map deqPqDc =
    [0xBF800000, 0xBC820820, 0x3C820840, 0x3F800000] ∧
  ([0, 1, 14, 31] : List (BitVec 5)).map deqLScale = [0, 0x3D042108, 0x3EE739CE, 0x3F800000] ∧
  ([25, 63] : List (BitVec 6)).map deqPqScale = [0x3ECB2CB3, 0x3F800000] ∧
  ([1, 25, 63] : List (BitVec 6)).map boostedScale = [0x3CA28A29, 0x3EFDF7E0, 0x3FA00000] ∧
  ([0, 1, 8, 15] : List (BitVec 4)).map deqAlpha = [0, 0x3D888889, 0x3F088889, 0x3F800000]

/-- R280: the output size of every header, by exact rounding of 32 * short / long, ties up; one side
is always 32. -/
def Obligations.OutputSizeOfEveryHeader : Prop :=
  ∀ h : Header,
    let lx := (lGridOf h).1
    let ly := (lGridOf h).2
    outputSize (ratioOf h) =
      if ly < lx then (32, (64 * ly + lx) / (2 * lx)) else ((64 * lx + ly) / (2 * ly), 32)

/-- R267: without alpha, the alpha DC and scale are 1.0 and there is no alpha AC list; every pixel of
the decoded image has A byte 255, and the average colour has alpha 1.0. -/
def Obligations.OpaqueHashDecodesOpaque : Prop :=
  ∀ (hb : List Byte) (h : Header), unpackHeader hb = .ok h → h.hasAlpha = false →
    alphaDcOf h = fOne ∧ alphaScaleOf h = fOne ∧ (∀ nib, (dequantize h nib).a = none) ∧
    (∀ (cos : F32 → F32) (im : Image), decodeHash cos hb = .ok im →
      ∀ i < im.w * im.h, im.rgba.getD (4 * i + 3) 0 = 255) ∧
    ∀ c : Rgba, averageFromHash hb = .ok c → c.a = fOne

/-- R285, R286: byte c of pixel (x, y) of the decoded image stands at 4 * (x + y * W) + c. Its value is
computed by the formulas: the basis of R281, for each channel the sum of R282 to R284 in scan order
from its DC (1.0 for an absent alpha), the inverse projection of R165, and the clamp and truncation of
R166. -/
def Obligations.DecodedImageIsRowMajor : Prop :=
  ∀ (cos : F32 → F32) (v : DeqImage) (w h x y c : Nat), x < w → y < h → c < 4 →
    let fx (k : Nat) := cos (fMul (fMul (fDiv 0x40490FDB (f32 w)) (fAdd (f32 x) 0x3F000000)) (f32 k))
    let fy (k : Nat) := cos (fMul (fMul (fDiv 0x40490FDB (f32 h)) (fAdd (f32 y) 0x3F000000)) (f32 k))
    let value (ch : DeqChannel) : F32 :=
      ch.ac.foldl (fun s e => fAdd s (fMul (fMul (fMul e.2 (fx e.1.1)) (fy e.1.2)) (f32 2))) ch.dc
    let b := fSub (value v.l) (fMul 0x3F2AAAAB (value v.p))
    let r := fDiv (fAdd (fSub (fMul (f32 3) (value v.l)) b) (value v.q)) (f32 2)
    let g := fSub r (value v.q)
    let z := [r, g, b, v.a.elim 0x3F800000 value].getD c 0
    let unit := if fLt 0 z then if fLt 0x3F800000 z then 0x3F800000 else z else 0
    (inverseDct cos v w h).length = 4 * w * h ∧
    ((inverseDct cos v w h).getD (4 * (x + y * w) + c) 0).toNat = toU 8 (fMul (f32 255) unit)

/-! ### binary32 -/

/-- R12, with the cases of IEEE 754 that the rule only names by the standard (DEDUCED,
notes/assumptions/21.md). Rounding `num / den` units of 2^-149 keeps the sign, gives a nearest number
of the format, and of two equally near the one with an even last place; from half a unit past the
largest finite number on it gives infinity. The sum, the difference, the product and the quotient of
finite operands are the exact result so rounded, an exact zero sum being -0 only where both summands
are negative. Operands that are NaN or infinite, a zero divisor, and f32(n), which is exact. R18: the
comparisons agree with the order of the numbers, with the infinities at its ends, and are false with a
NaN. R17: fmax of operands that are not NaN is the larger, abs clears the sign, and clamp01 is
min(max(x, 0), 1), 0 for NaN (the zero it gives is the model's choice, notes/assumptions/10.md). -/
def Obligations.RoundingIsNearestTiesToEven : Prop :=
  (∀ (neg : Bool) (num den : Nat), 0 < den →
    let r := fRound neg num den
    let err (x : F32) : Int := |(fUnits x * den : Int) - num|
    fSign r = neg ∧ (fFinite r ↔ num < den * ((2 ^ 25 - 1) * 2 ^ 252)) ∧
    (¬fFinite r → fIsInf r = true) ∧
    (fFinite r → ∀ z : F32, fFinite z → err r ≤ err z ∧
      (err r = err z → fUnits r ≠ fUnits z → fMag r % 2 = 0))) ∧
  (∀ x : F32,
    let e := x.toNat / 2 ^ 23 % 2 ^ 8
    let f := x.toNat % 2 ^ 23
    (fFinite x ↔ e < 255) ∧ (fIsInf x = true ↔ e = 255 ∧ f = 0) ∧
    (fIsNaN x = true ↔ e = 255 ∧ f ≠ 0) ∧
    fSign x = decide (2 ^ 31 ≤ x.toNat) ∧ fMag x = x.toNat % 2 ^ 31 ∧
    fUnits x = (if e = 0 then f else (2 ^ 23 + f) * 2 ^ (e - 1)) ∧
    fInt x = (if fSign x then -(fUnits x : Int) else fUnits x) ∧
    (fSign (fNeg x) = !fSign x) ∧ fMag (fNeg x) = fMag x ∧
    fSign (fAbs x) = false ∧ fMag (fAbs x) = fMag x) ∧
  (∀ (neg : Bool) (m : Nat), m < 2 ^ 31 →
    (fPack neg m).toNat = (if neg then 2 ^ 31 else 0) + m) ∧
  (∀ x y : F32, fFinite x → fFinite y →
    let sum := fInt x + fInt y
    let diff := fInt x - fInt y
    fAdd x y = (if sum = 0 then fPack (fSign x && fSign y) 0
      else fRound (decide (sum < 0)) sum.natAbs 1) ∧
    fSub x y = (if diff = 0 then fPack (fSign x && !fSign y) 0
      else fRound (decide (diff < 0)) diff.natAbs 1) ∧
    fMul x y = fRound (fSign x != fSign y) (fUnits x * fUnits y) (2 ^ 149) ∧
    (fUnits y ≠ 0 → fDiv x y = fRound (fSign x != fSign y) (fUnits x * 2 ^ 149) (fUnits y)) ∧
    (fUnits y = 0 → fUnits x ≠ 0 → fDiv x y = fPack (fSign x != fSign y) 0x7F800000) ∧
    (fUnits y = 0 → fUnits x = 0 → fIsNaN (fDiv x y) = true)) ∧
  (∀ x y : F32, fIsNaN x = true ∨ fIsNaN y = true →
    fIsNaN (fAdd x y) = true ∧ fIsNaN (fSub x y) = true ∧ fIsNaN (fMul x y) = true ∧
      fIsNaN (fDiv x y) = true) ∧
  (∀ x y : F32, fIsInf x = true → fFinite y →
    fAdd x y = x ∧ fAdd y x = x ∧ fSub x y = x ∧ fSub y x = fNeg x ∧
    (fUnits y ≠ 0 → fMul x y = fPack (fSign x != fSign y) 0x7F800000 ∧ fMul y x = fMul x y) ∧
    (fUnits y = 0 → fIsNaN (fMul x y) = true ∧ fIsNaN (fMul y x) = true) ∧
    fDiv x y = fPack (fSign x != fSign y) 0x7F800000 ∧
    fDiv y x = fPack (fSign x != fSign y) 0) ∧
  (∀ x y : F32, fIsInf x = true → fIsInf y = true →
    (fSign x = fSign y → fAdd x y = x ∧ fIsNaN (fSub x y) = true) ∧
    (fSign x ≠ fSign y → fIsNaN (fAdd x y) = true ∧ fSub x y = x) ∧
    fMul x y = fPack (fSign x != fSign y) 0x7F800000 ∧ fIsNaN (fDiv x y) = true) ∧
  (∀ n : Nat, n < 2 ^ 24 →
    fSign (f32 n) = false ∧ fFinite (f32 n) ∧ fUnits (f32 n) = n * 2 ^ 149) ∧
  (∀ x y : F32, fFinite x → fFinite y →
    (fLt x y = true ↔ fInt x < fInt y) ∧ (fLe x y = true ↔ fInt x ≤ fInt y)) ∧
  (∀ x y : F32, fIsNaN x = true ∨ fIsNaN y = true → fLt x y = false ∧ fLe x y = false) ∧
  (∀ x y : F32, fIsInf x = true → fFinite y →
    fLt x y = fSign x ∧ fLe x y = fSign x ∧ (fLt y x = !fSign x) ∧ (fLe y x = !fSign x)) ∧
  (∀ x y : F32, fIsInf x = true → fIsInf y = true →
    fLt x y = (fSign x && !fSign y) ∧ fLe x y = (fSign x || !fSign y)) ∧
  (∀ x y : F32, fIsNaN x = false → fIsNaN y = false →
    (fMax x y = x ∨ fMax x y = y) ∧ fLe x (fMax x y) = true ∧ fLe y (fMax x y) = true) ∧
  ∀ x : F32,
    (fIsNaN x = true ∨ fLe x 0 = true → clamp01 x = 0) ∧
    (fLt 0 x = true → fLe x 0x3F800000 = true → clamp01 x = x) ∧
    (fLt 0x3F800000 x = true → clamp01 x = 0x3F800000)

/-- R14: roundHA gives the nearest whole number, ties away from zero, with the sign kept, and leaves
NaN and the infinities unchanged. -/
def Obligations.RoundHalfAwayFromZero : Prop :=
  ∀ x : F32,
    (fFinite x → fFinite (roundHA x) ∧ fSign (roundHA x) = fSign x ∧
      fUnits (roundHA x) = (fUnits x + 2 ^ 148) / 2 ^ 149 * 2 ^ 149) ∧
    (¬fFinite x → roundHA x = x)

/-- R15: toU_N of NaN or of a number that is not above 0 is 0; of any other number it is the number
rounded down, or 2^N - 1 where that is less. -/
def Obligations.ToUnsignedSaturates : Prop :=
  ∀ (n : Nat) (x : F32),
    (fIsNaN x = true ∨ fLe x 0 = true → toU n x = 0) ∧
    (fFinite x → fSign x = false → toU n x = min (fUnits x / 2 ^ 149) (2 ^ n - 1)) ∧
    (fIsInf x = true → fSign x = false → toU n x = 2 ^ n - 1)

/-! ### Registers and the bus -/

/-- R34: what a read of STATUS returns, bit by bit, and what a write to it does, BUSY or not; with the
values of ERR, 0 to 3 (R301). -/
def Obligations.StatusRegister : Prop :=
  errBits .ok = 0 ∧ errBits .tooShort = 1 ∧ errBits .contractViolation = 2 ∧
    errBits .illegalCommand = 3 ∧
  ∀ (s : State) (v : Word), s.rst = false →
    (∃ w, memRead s 0x008 4 = (s, ⟨false, w⟩) ∧
      w.getLsbD 0 = decide (s.phase = .busy) ∧ w.getLsbD 1 = s.done ∧ w.extractLsb' 2 2 = 0 ∧
      w.extractLsb' 4 4 = errBits s.err ∧ w.getLsbD 8 = s.bviol ∧ w.extractLsb' 9 23 = 0) ∧
    (memWrite s 0x008 4 v).2.error = false ∧
    (memWrite s 0x008 4 v).1 =
      { s with done := if v.getLsbD 1 then false else s.done
               bviol := if v.getLsbD 8 then false else s.bviol }

/-- R39: a write of v to HASH_LEN stores min(v, 32), and it reads back so. -/
def Obligations.HashLenWriteIsLegalised : Prop :=
  ∀ (s : State) (v : Word), s.rst = false → s.phase = .idle →
    ∃ x : BitVec 6, x.toNat = min v.toNat 32 ∧
      (memWrite s 0x01C 4 v).1 = { s with hashLen := x } ∧
      memRead { s with hashLen := x } 0x01C 4 =
        ({ s with hashLen := x }, ⟨false, BitVec.ofNat 32 (min v.toNat 32)⟩)

/-- R35 to R38: writes to IRQ_EN, IMG_W, IMG_H and IN_LEN keep bit 0, bits 15:0, bits 15:0 and all
bits, change nothing else, and read back so. -/
def Obligations.InputRegistersReadBack : Prop :=
  ∀ (s : State) (v : Word), s.rst = false → s.phase = .idle →
    (memWrite s 0x00C 4 v).1 = { s with doneIe := v.getLsbD 0 } ∧
    (memRead (memWrite s 0x00C 4 v).1 0x00C 4).2 = ⟨false, v &&& 0x1⟩ ∧
    (memWrite s 0x010 4 v).1 = { s with imgW := v.extractLsb' 0 16 } ∧
    (memRead (memWrite s 0x010 4 v).1 0x010 4).2 = ⟨false, v &&& 0xFFFF⟩ ∧
    (memWrite s 0x014 4 v).1 = { s with imgH := v.extractLsb' 0 16 } ∧
    (memRead (memWrite s 0x014 4 v).1 0x014 4).2 = ⟨false, v &&& 0xFFFF⟩ ∧
    (memWrite s 0x018 4 v).1 = { s with inLen := v } ∧
    (memRead (memWrite s 0x018 4 v).1 0x018 4).2 = ⟨false, v⟩

/-- R77: a host access gets a bus error exactly in the cases of the rule; it then changes no state
and a read returns data 0. -/
def Obligations.BusErrorCauses : Prop :=
  ∀ (s : State) (o : Offset) (n : Nat) (v : Word), s.rst = false →
    let a := o.toNat
    let bad : Prop :=
      ((0x3C ≤ a ∧ a < 0x100) ∨ (0x120 ≤ a ∧ a < 0x1000) ∨ (0x2000 ≤ a ∧ a < 0x10000) ∨
        0x19C40 ≤ a) ∨
      (n ≠ 1 ∧ n ≠ 2 ∧ n ≠ 4) ∨ a % n ≠ 0 ∨ (a < 0x3C ∧ (n = 1 ∨ n = 2)) ∨
      (a < 0x3C ∧ 0x3C < a + n) ∨ (a < 0x120 ∧ 0x100 ≤ a ∧ 0x120 < a + n) ∨
      (a < 0x2000 ∧ 0x1000 ≤ a ∧ 0x2000 < a + n) ∨ (0x10000 ≤ a ∧ 0x19C40 < a + n)
    ((memRead s o n).2.error = true ↔ bad) ∧ ((memWrite s o n v).2.error = true ↔ bad) ∧
      (bad → memRead s o n = (s, ⟨true, 0⟩) ∧ (memWrite s o n v).1 = s)

/-- R84: while BUSY = 1, a write that gets no bus error to CMD, IMG_W, IMG_H, IN_LEN, HASH_LEN,
HASHBUF or PIXIN only sets BVIOL, and writes to STATUS and IRQ_EN take effect as usual; BUSY or not, a
write to a read-only location changes nothing. -/
def Obligations.BusyWritesIgnored : Prop :=
  ∀ (s : State) (o : Offset) (n : Nat) (v : Word), s.rst = false → accessOk o n = true →
    let a := o.toNat
    (s.phase = .busy →
      (a = 0x004 ∨ (0x010 ≤ a ∧ a < 0x020) ∨ (0x100 ≤ a ∧ a < 0x120) ∨ 0x10000 ≤ a) →
      (memWrite s o n v).1 = { s with bviol := true }) ∧
    (s.phase = .busy → a = 0x008 → (memWrite s o n v).1 =
      { s with done := s.done && !v.getLsbD 1, bviol := s.bviol && !v.getLsbD 8 }) ∧
    (s.phase = .busy → a = 0x00C →
      (memWrite s o n v).1 = { s with doneIe := v.getLsbD 0 }) ∧
    ((a = 0x000 ∨ (0x020 ≤ a ∧ a < 0x03C) ∨ (0x1000 ≤ a ∧ a < 0x2000)) →
      (memWrite s o n v).1 = s)

/-- R85: a host write to ID, OUT_W, OUT_H, an AVG register, ASPECT or PIXOUT gets no bus error and has
no effect, and the reserved bits of STATUS, IRQ_EN, IMG_W and IMG_H ignore writes. HASH_LEN [31:6] is
excepted: R39 takes all 32 bits of the value into min(v, 32), so a write of 64 stores 32, and the model
follows R39 (DEDUCED, notes/assumptions/20.md; stated by HashLenWriteIsLegalised). -/
def Obligations.ReadOnlyWritesIgnored : Prop :=
  ∀ (s : State) (v : Word), s.rst = false →
    (∀ (o : Offset) (n : Nat), accessOk o n = true →
      (o.toNat = 0x000 ∨ (0x020 ≤ o.toNat ∧ o.toNat < 0x03C) ∨
        (0x1000 ≤ o.toNat ∧ o.toNat < 0x2000)) →
      (memWrite s o n v).2.error = false ∧ (memWrite s o n v).1 = s) ∧
    memWrite s 0x008 4 v = memWrite s 0x008 4 (v &&& 0x102) ∧
    memWrite s 0x00C 4 v = memWrite s 0x00C 4 (v &&& 0x1) ∧
    memWrite s 0x010 4 v = memWrite s 0x010 4 (v &&& 0xFFFF) ∧
    memWrite s 0x014 4 v = memWrite s 0x014 4 (v &&& 0xFFFF)

/-- R83: while BUSY = 1, a read of a result location returns a free value and changes nothing of the
block (the free value and its counter are the model's own, notes/assumptions/5.md). R74, R78: every other
read changes nothing and returns its location's value. ID reads 0x54480001 and CMD 0, in every state;
each other register its field, with its reserved bits 0 (R31, R32, R35 to R43; STATUS bit by bit in
StatusRegister); a buffer the little-endian value of its bytes. -/
def Obligations.BusyReadsOfResultsAreFree : Prop :=
  ∀ (s : State) (o : Offset) (n : Nat), s.rst = false → accessOk o n = true →
    let a := o.toNat
    let result := (0x01C ≤ a ∧ a < 0x03C) ∨ (0x100 ≤ a ∧ a < 0x120) ∨ (0x1000 ≤ a ∧ a < 0x2000)
    (s.phase = .busy → result → memRead s o n =
      ({ s with draws := s.draws + 1 }, ⟨false, lowBytes n (Config.busyRead s.draws)⟩)) ∧
    (s.phase = .idle ∨ ¬result → ∃ w, memRead s o n = (s, ⟨false, w⟩) ∧
      (a = 0x000 → w = 0x54480001) ∧
      (a = 0x004 → w = 0) ∧
      (a = 0x00C → w.toNat = if s.doneIe then 1 else 0) ∧
      (a = 0x010 → w.toNat = s.imgW.toNat) ∧
      (a = 0x014 → w.toNat = s.imgH.toNat) ∧
      (a = 0x018 → w = s.inLen) ∧
      (a = 0x01C → w.toNat = s.hashLen.toNat) ∧
      (a = 0x020 → w.toNat = s.outW.toNat) ∧
      (a = 0x024 → w.toNat = s.outH.toNat) ∧
      (a = 0x028 → w = s.avgR) ∧
      (a = 0x02C → w = s.avgG) ∧
      (a = 0x030 → w = s.avgB) ∧
      (a = 0x034 → w = s.avgA) ∧
      (a = 0x038 → w = s.aspect) ∧
      (0x100 ≤ a → w.toNat < 2 ^ (8 * n) ∧
        ∀ i < n, w.extractLsb' (8 * i) 8 = s.readByte (a + i)))

/-- R75, R78, R80: an aligned write to HASHBUF or PIXIN while idle stores byte i of the value at
offset a + i, changes nothing else, and reads back. -/
def Obligations.BufferWriteReadsBack : Prop :=
  ∀ (s : State) (o : Offset) (n : Nat) (v : Word), s.phase = .idle → s.rst = false →
    accessOk o n = true →
    ((0x100 ≤ o.toNat ∧ o.toNat < 0x120) ∨ 0x10000 ≤ o.toNat) →
    ∃ t, (memWrite s o n v).1 = t ∧ t = { s with mem := t.mem } ∧
      (∀ i < n, t.readByte (o.toNat + i) = v.extractLsb' (8 * i) 8) ∧
      (∀ a, a < o.toNat ∨ o.toNat + n ≤ a → t.readByte a = s.readByte a) ∧
      memRead t o n = (t, ⟨false, BitVec.ofNat 32 (v.toNat % 2 ^ (8 * n))⟩)

/-- R49: a write of any word to CMD is accepted when IDLE: OPLATCH takes the word, DONE and ERR become
0, PHASE becomes BUSY, BVIOL keeps its value, and only the model's own latency and draw counters
(notes/assumptions/3.md) change beside. When BUSY it only sets BVIOL. -/
def Obligations.CommandAcceptance : Prop :=
  ∀ (s : State) (v : Word), s.rst = false →
    (memWrite s 0x004 4 v).2.error = false ∧
    (s.phase = .idle → ∃ k d, (memWrite s 0x004 4 v).1 =
      { s with oplatch := v, done := false, err := .ok, phase := .busy, wait := k, draws := d }) ∧
    (s.phase = .busy → (memWrite s 0x004 4 v).1 = { s with bviol := true })

/-- R310: irq is DONE and DONE_IE; every completion, of a command or of an illegal word, sets DONE
whatever DONE_IE is, and so makes irq DONE_IE; writing 1 to STATUS bit 1, the acceptance of a command
and reset make it 0; clearing DONE_IE masks it; enabling DONE_IE after a completion raises it. -/
def Obligations.InterruptLine : Prop :=
  (∀ s : State, s.irq = (s.done && s.doneIe)) ∧
    (∀ (i : Instr) (s t : State), exec i s = .next t → t.done = true ∧ t.irq = s.doneIe) ∧
    (∀ s t : State, completeIllegal s = .next t → t.done = true ∧ t.irq = s.doneIe) ∧
    (∀ s t : State, s.phase = .busy → s.rst = false → s.wait = 0 → step s = .next t →
      t.done = true ∧ t.irq = s.doneIe) ∧
    (∀ (s : State) (v : Word), s.rst = false → v.getLsbD 1 = true →
      (memWrite s 0x008 4 v).1.irq = false) ∧
    (∀ (s : State) (v : Word), s.rst = false → s.phase = .idle →
      (memWrite s 0x004 4 v).1.irq = false) ∧
    (∀ (s : State) (v : Word), s.rst = false → v.getLsbD 0 = false →
      (memWrite s 0x00C 4 v).1.irq = false) ∧
    (∀ (s : State) (v : Word), s.rst = false → v.getLsbD 0 = true → s.done = true →
      (memWrite s 0x00C 4 v).1.irq = true) ∧
    (∀ s : State, (hostOp s (.rst true)).irq = false) ∧
    State.reset.irq = false

/-- R70: the window starts at P_BASE, a multiple of 0x20000; the block decodes exactly its 0x20000
addresses, each as its offset. -/
def Obligations.WindowDecoding : Prop :=
  Config.pBase % 0x20000 = 0 ∧
    (∀ o : Offset, windowOffset (Config.pBase + o.toNat) = some o) ∧
    (∀ addr o, windowOffset addr = some o → addr = Config.pBase + o.toNat)

/-- R5, R80, R350: where the completion step is not due, a step is the host's next operation, after one
bus cycle of the latency, or that cycle alone where the program has ended. R118: a read leaves the block
as MemRead leaves it and gives its name the data; a write leaves it as MemWrite leaves it; `label`, `and`
and `bnz` leave it alone, `and` masks a name, and `bnz` continues at its label exactly when the name is
not 0; each of the others goes on to the next operation. R70: an access at a host address is the access
at its window offset; outside the window the block is unchanged. The interrupt wait (R86) and the reset
input (R330) as they are. How State holds the host, the latency counter and the platform's answers are
the model's own (notes/assumptions/2.md, 3.md, 7.md). -/
def Obligations.HostProgramOperations : Prop :=
  (∀ s : State, ¬(s.phase = .busy ∧ s.rst = false ∧ s.wait = 0) →
    let u := { s with wait := s.wait - 1 }
    (∀ op, s.host.prog[s.host.pc]? = some op → step s = .next (hostOp u op)) ∧
    (s.host.prog[s.host.pc]? = none → step s = .next u)) ∧
  ∀ (s : State) (o : Offset) (n addr : Nat) (x : HostName) (v : Word) (l : HostLabel),
    let goOn : HostState := { s.host with pc := s.host.pc + 1 }
    let named (t : State) (x : HostName) (v : Word) : Prop :=
      t.host = { goOn with names := t.host.names, resp := t.host.resp } ∧
        nameValue t.host x = v ∧ ∀ y, y ≠ x → nameValue t.host y = nameValue s.host y
    let read := hostOp s (.read o n x)
    let masked := hostOp s (.andImm x v)
    let branched := hostOp s (.bnz x l)
    let readOut := hostOp s (.readAddr addr n x)
    let writtenOut := hostOp s (.writeAddr addr n v)
    read = { (memRead s o n).1 with host := read.host } ∧ named read x (memRead s o n).2.data ∧
    read.host.resp = some (memRead s o n).2 ∧
    hostOp s (.write o n v) =
      { (memWrite s o n v).1 with host := { goOn with resp := some (memWrite s o n v).2 } } ∧
    hostOp s (.label l) = { s with host := goOn } ∧
    masked = { s with host := masked.host } ∧ named masked x (nameValue s.host x &&& v) ∧
    masked.host.resp = s.host.resp ∧
    (nameValue s.host x = 0 → branched = { s with host := goOn }) ∧
    (nameValue s.host x ≠ 0 → branched = { s with host := { s.host with pc := branched.host.pc } } ∧
      (HostOp.label l ∈ s.host.prog → s.host.prog[branched.host.pc]? = some (.label l))) ∧
    (windowOffset addr = some o → readOut = read ∧ writtenOut = hostOp s (.write o n v)) ∧
    (windowOffset addr = none →
      readOut = { s with draws := s.draws + 1, host := readOut.host } ∧
      named readOut x (lowBytes n (Config.outsideRead s.draws)) ∧
      writtenOut =
        { s with draws := s.draws + 1, host := { goOn with resp := writtenOut.host.resp } }) ∧
    (s.irq = true → hostOp s .waitIrq = { s with host := goOn }) ∧
    (s.irq = false → hostOp s .waitIrq = s) ∧
    hostOp s (.rst true) = { s.assertReset with host := goOn } ∧
    hostOp s (.rst false) = { s with rst := false, host := goOn }

/-! ### Whole-machine rules -/

/-- R50, R84: while a command runs, no operation of the host but asserting reset changes the command
word, the inputs, the buffers or the phase. -/
def Obligations.InputsHeldWhileBusy : Prop :=
  ∀ (s : State) (op : HostOp), s.phase = .busy → op ≠ .rst true →
    (hostOp s op).phase = .busy ∧ (hostOp s op).oplatch = s.oplatch ∧
      (hostOp s op).imgW = s.imgW ∧ (hostOp s op).imgH = s.imgH ∧
      (hostOp s op).inLen = s.inLen ∧ (hostOp s op).hashLen = s.hashLen ∧
      (hostOp s op).mem = s.mem ∧ (hostOp s op).resets = s.resets

/-- R40 to R43, R85: in a step that leaves reset released, OUT_W, OUT_H and PIXOUT change only by a
successful DECODE, the AVG registers only by a successful AVERAGE_COLOR, ASPECT only by a successful
ASPECT_RATIO. -/
def Obligations.OnlyCommandsWriteResults : Prop :=
  ∀ s t : State, step s = .next t → t.rst = false →
    let ran (i : Instr) : Prop :=
      s.phase = .busy ∧ s.wait = 0 ∧ decodeWord s.oplatch = .ok i ∧ t.err = .ok
    (t.outW ≠ s.outW ∨ t.outH ≠ s.outH → ran .decode) ∧
      ((∃ a, 0x1000 ≤ a ∧ a < 0x2000 ∧ t.readByte a ≠ s.readByte a) → ran .decode) ∧
      (t.avgR ≠ s.avgR ∨ t.avgG ≠ s.avgG ∨ t.avgB ≠ s.avgB ∨ t.avgA ≠ s.avgA →
        ran .averageColor) ∧
      (t.aspect ≠ s.aspect → ran .aspectRatio)

/-- R34, R46: BUSY ends only by the completion step or by reset. -/
def Obligations.BusyEndsOnlyByCompletionOrReset : Prop :=
  ∀ s t : State, step s = .next t → s.phase = .busy → t.phase = .idle →
    (s.wait = 0 ∧ s.rst = false ∧ t.done = true) ∨ t.rst = true

/-- R350: a running command completes after the latency left to it, unless the host's program asserts
reset; programs that only release reset are among those admitted. The latency counter is the model's
own (notes/assumptions/3.md). -/
def Obligations.BusyCommandCompletes : Prop :=
  ∀ s : State, s.phase = .busy → s.rst = false → HostOp.rst true ∉ s.host.prog →
    ∃ t, Sys2Proof.core.run (s.wait + 1) s = .next t ∧ t.phase = .idle ∧ t.done = true

/-! ### Reset -/

/-- R51: the registers read as the rule's reset values, the sequencer is idle, irq is 0, and every
buffer byte is unwritten. -/
def Obligations.ResetValues : Prop :=
  ([0x000, 0x004, 0x008, 0x00C, 0x010, 0x014, 0x018, 0x01C, 0x020, 0x024, 0x028, 0x02C, 0x030,
    0x034, 0x038] : List Offset).map (fun o => (memRead State.reset o 4).2) =
      ⟨false, 0x54480001⟩ :: List.replicate 14 ⟨false, 0⟩ ∧
    State.reset.phase = .idle ∧ State.reset.oplatch = 0 ∧ State.reset.irq = false ∧
    ∀ a, lookupByte State.reset.mem a = none

/-- R330 to R332: asserting reset in any state gives the block its reset state, whatever command was
running, with irq 0 and a fresh unspecified value for every buffer byte; every access while it is
asserted gets a bus error and changes nothing; and the step that releases it leaves the block in the
reset state, so that the first access after it reads every register at its value of R51 and every
buffer byte as unwritten. The counter of resets and the level the host drives are the model's own
(notes/assumptions/4.md, notes/assumptions/12.md). -/
def Obligations.ResetAbandonsCommand : Prop :=
  (∀ (s : State), (hostOp s (.rst true)).block = State.reset ∧ (hostOp s (.rst true)).rst = true ∧
    (hostOp s (.rst true)).irq = false ∧
    (∀ a, (hostOp s (.rst true)).readByte a = Config.unwrittenByte (s.resets + 1) a) ∧
    ∀ (o : Offset) (n : Nat) (v : Word),
      memRead (hostOp s (.rst true)) o n = (hostOp s (.rst true), ⟨true, 0⟩) ∧
      (memWrite (hostOp s (.rst true)) o n v).2.error = true ∧
      (memWrite (hostOp s (.rst true)) o n v).1 = hostOp s (.rst true)) ∧
  ∀ s t : State, s.rst = true → resetHeld s → step s = .next t → t.rst = false →
    t.block = State.reset ∧ t.irq = false ∧ t.resets = s.resets ∧
    (∀ o : Offset, o.toNat < 0x100 → ∀ n, (memRead t o n).2 = (memRead State.reset o n).2) ∧
    ∀ a, t.readByte a = Config.unwrittenByte t.resets a

/-! ### Invariants of the step -/

/-- Every step keeps the memory in its canonical form, with only buffer bytes listed (R45, R70). The
form is the model's own (notes/assumptions/4.md). -/
def Obligations.StepKeepsMemoryLegal : Prop :=
  ∀ s t : State, memoryLegal s → step s = .next t → memoryLegal t

/-- Every step keeps HASH_LEN at most 32, OUT_W and OUT_H a size of R280, the AVG registers in
[0, 1], and ASPECT a number that is not negative (R39 to R43). -/
def Obligations.StepKeepsResultsLegal : Prop :=
  ∀ s t : State, hashLenLegal s ∧ outSizeLegal s ∧ averageLegal s ∧ aspectLegal s →
    step s = .next t → hashLenLegal t ∧ outSizeLegal t ∧ averageLegal t ∧ aspectLegal t

/-- Every step keeps DONE and ERR at 0 while a command runs (R34, R49), and no latency left over while
none does. The latency counter is the model's own (notes/assumptions/3.md). -/
def Obligations.StepKeepsSequencerLegal : Prop :=
  ∀ s t : State, sequencerLegal s → step s = .next t → sequencerLegal t

/-- Every step keeps the block in its reset state while the reset input is asserted (R330). -/
def Obligations.StepKeepsResetHeld : Prop :=
  ∀ s t : State, resetHeld s → step s = .next t → resetHeld t

/-- The state after reset is legal in every sense of the four invariants. -/
def Obligations.ResetStateIsLegal : Prop :=
  memoryLegal State.reset ∧ hashLenLegal State.reset ∧ outSizeLegal State.reset ∧
    averageLegal State.reset ∧ aspectLegal State.reset ∧ sequencerLegal State.reset ∧
    resetHeld State.reset
end

