-- ==== Sys2Proof/Laws/State.lean ====
section
/-! SUPPORT. One lemma per field per update of the state, each true by rfl, so that no later proof
unfolds a record update. -/

namespace Sys2Proof.Machine

/-! ### State.complete -/

@[simp] theorem State.complete_phase (s : State) (c : ResultCode) :
    (s.complete c).phase = .idle := rfl
@[simp] theorem State.complete_oplatch (s : State) (c : ResultCode) :
    (s.complete c).oplatch = s.oplatch := rfl
@[simp] theorem State.complete_done (s : State) (c : ResultCode) : (s.complete c).done = true := rfl
@[simp] theorem State.complete_err (s : State) (c : ResultCode) : (s.complete c).err = c := rfl
@[simp] theorem State.complete_bviol (s : State) (c : ResultCode) :
    (s.complete c).bviol = s.bviol := rfl
@[simp] theorem State.complete_doneIe (s : State) (c : ResultCode) :
    (s.complete c).doneIe = s.doneIe := rfl
@[simp] theorem State.complete_imgW (s : State) (c : ResultCode) :
    (s.complete c).imgW = s.imgW := rfl
@[simp] theorem State.complete_imgH (s : State) (c : ResultCode) :
    (s.complete c).imgH = s.imgH := rfl
@[simp] theorem State.complete_inLen (s : State) (c : ResultCode) :
    (s.complete c).inLen = s.inLen := rfl
@[simp] theorem State.complete_hashLen (s : State) (c : ResultCode) :
    (s.complete c).hashLen = s.hashLen := rfl
@[simp] theorem State.complete_outW (s : State) (c : ResultCode) :
    (s.complete c).outW = s.outW := rfl
@[simp] theorem State.complete_outH (s : State) (c : ResultCode) :
    (s.complete c).outH = s.outH := rfl
@[simp] theorem State.complete_avgR (s : State) (c : ResultCode) :
    (s.complete c).avgR = s.avgR := rfl
@[simp] theorem State.complete_avgG (s : State) (c : ResultCode) :
    (s.complete c).avgG = s.avgG := rfl
@[simp] theorem State.complete_avgB (s : State) (c : ResultCode) :
    (s.complete c).avgB = s.avgB := rfl
@[simp] theorem State.complete_avgA (s : State) (c : ResultCode) :
    (s.complete c).avgA = s.avgA := rfl
@[simp] theorem State.complete_aspect (s : State) (c : ResultCode) :
    (s.complete c).aspect = s.aspect := rfl
@[simp] theorem State.complete_mem (s : State) (c : ResultCode) : (s.complete c).mem = s.mem := rfl
@[simp] theorem State.complete_rst (s : State) (c : ResultCode) : (s.complete c).rst = s.rst := rfl
@[simp] theorem State.complete_wait (s : State) (c : ResultCode) :
    (s.complete c).wait = s.wait := rfl
@[simp] theorem State.complete_resets (s : State) (c : ResultCode) :
    (s.complete c).resets = s.resets := rfl
@[simp] theorem State.complete_draws (s : State) (c : ResultCode) :
    (s.complete c).draws = s.draws := rfl
@[simp] theorem State.complete_host (s : State) (c : ResultCode) :
    (s.complete c).host = s.host := rfl

/-! ### State.takeError -/

@[simp] theorem State.takeError_phase (s : State) (e : CmdError) :
    (s.takeError e).phase = .idle := rfl
@[simp] theorem State.takeError_oplatch (s : State) (e : CmdError) :
    (s.takeError e).oplatch = s.oplatch := rfl
@[simp] theorem State.takeError_done (s : State) (e : CmdError) : (s.takeError e).done = true := rfl
@[simp] theorem State.takeError_err (s : State) (e : CmdError) :
    (s.takeError e).err = codeOf e := rfl
@[simp] theorem State.takeError_bviol (s : State) (e : CmdError) :
    (s.takeError e).bviol = s.bviol := rfl
@[simp] theorem State.takeError_doneIe (s : State) (e : CmdError) :
    (s.takeError e).doneIe = s.doneIe := rfl
@[simp] theorem State.takeError_imgW (s : State) (e : CmdError) :
    (s.takeError e).imgW = s.imgW := rfl
@[simp] theorem State.takeError_imgH (s : State) (e : CmdError) :
    (s.takeError e).imgH = s.imgH := rfl
@[simp] theorem State.takeError_inLen (s : State) (e : CmdError) :
    (s.takeError e).inLen = s.inLen := rfl
@[simp] theorem State.takeError_hashLen (s : State) (e : CmdError) :
    (s.takeError e).hashLen = s.hashLen := rfl
@[simp] theorem State.takeError_outW (s : State) (e : CmdError) :
    (s.takeError e).outW = s.outW := rfl
@[simp] theorem State.takeError_outH (s : State) (e : CmdError) :
    (s.takeError e).outH = s.outH := rfl
@[simp] theorem State.takeError_avgR (s : State) (e : CmdError) :
    (s.takeError e).avgR = s.avgR := rfl
@[simp] theorem State.takeError_avgG (s : State) (e : CmdError) :
    (s.takeError e).avgG = s.avgG := rfl
@[simp] theorem State.takeError_avgB (s : State) (e : CmdError) :
    (s.takeError e).avgB = s.avgB := rfl
@[simp] theorem State.takeError_avgA (s : State) (e : CmdError) :
    (s.takeError e).avgA = s.avgA := rfl
@[simp] theorem State.takeError_aspect (s : State) (e : CmdError) :
    (s.takeError e).aspect = s.aspect := rfl
@[simp] theorem State.takeError_mem (s : State) (e : CmdError) : (s.takeError e).mem = s.mem := rfl
@[simp] theorem State.takeError_rst (s : State) (e : CmdError) : (s.takeError e).rst = s.rst := rfl
@[simp] theorem State.takeError_wait (s : State) (e : CmdError) :
    (s.takeError e).wait = s.wait := rfl
@[simp] theorem State.takeError_resets (s : State) (e : CmdError) :
    (s.takeError e).resets = s.resets := rfl
@[simp] theorem State.takeError_draws (s : State) (e : CmdError) :
    (s.takeError e).draws = s.draws := rfl
@[simp] theorem State.takeError_host (s : State) (e : CmdError) :
    (s.takeError e).host = s.host := rfl

/-! ### State.accept -/

@[simp] theorem State.accept_phase (s : State) (v : Word) : (s.accept v).phase = .busy := rfl
@[simp] theorem State.accept_oplatch (s : State) (v : Word) : (s.accept v).oplatch = v := rfl
@[simp] theorem State.accept_done (s : State) (v : Word) : (s.accept v).done = false := rfl
@[simp] theorem State.accept_err (s : State) (v : Word) : (s.accept v).err = .ok := rfl
@[simp] theorem State.accept_bviol (s : State) (v : Word) : (s.accept v).bviol = s.bviol := rfl
@[simp] theorem State.accept_doneIe (s : State) (v : Word) : (s.accept v).doneIe = s.doneIe := rfl
@[simp] theorem State.accept_imgW (s : State) (v : Word) : (s.accept v).imgW = s.imgW := rfl
@[simp] theorem State.accept_imgH (s : State) (v : Word) : (s.accept v).imgH = s.imgH := rfl
@[simp] theorem State.accept_inLen (s : State) (v : Word) : (s.accept v).inLen = s.inLen := rfl
@[simp] theorem State.accept_hashLen (s : State) (v : Word) :
    (s.accept v).hashLen = s.hashLen := rfl
@[simp] theorem State.accept_outW (s : State) (v : Word) : (s.accept v).outW = s.outW := rfl
@[simp] theorem State.accept_outH (s : State) (v : Word) : (s.accept v).outH = s.outH := rfl
@[simp] theorem State.accept_avgR (s : State) (v : Word) : (s.accept v).avgR = s.avgR := rfl
@[simp] theorem State.accept_avgG (s : State) (v : Word) : (s.accept v).avgG = s.avgG := rfl
@[simp] theorem State.accept_avgB (s : State) (v : Word) : (s.accept v).avgB = s.avgB := rfl
@[simp] theorem State.accept_avgA (s : State) (v : Word) : (s.accept v).avgA = s.avgA := rfl
@[simp] theorem State.accept_aspect (s : State) (v : Word) : (s.accept v).aspect = s.aspect := rfl
@[simp] theorem State.accept_mem (s : State) (v : Word) : (s.accept v).mem = s.mem := rfl
@[simp] theorem State.accept_rst (s : State) (v : Word) : (s.accept v).rst = s.rst := rfl
@[simp] theorem State.accept_wait (s : State) (v : Word) :
    (s.accept v).wait = max 1 (Config.pLat s.draws) - 1 := rfl
@[simp] theorem State.accept_resets (s : State) (v : Word) : (s.accept v).resets = s.resets := rfl
@[simp] theorem State.accept_draws (s : State) (v : Word) : (s.accept v).draws = s.draws + 1 := rfl
@[simp] theorem State.accept_host (s : State) (v : Word) : (s.accept v).host = s.host := rfl

/-! ### State.busyViolation -/

@[simp] theorem State.busyViolation_phase (s : State) : (s.busyViolation).phase = s.phase := rfl
@[simp] theorem State.busyViolation_oplatch (s : State) :
    (s.busyViolation).oplatch = s.oplatch := rfl
@[simp] theorem State.busyViolation_done (s : State) : (s.busyViolation).done = s.done := rfl
@[simp] theorem State.busyViolation_err (s : State) : (s.busyViolation).err = s.err := rfl
@[simp] theorem State.busyViolation_bviol (s : State) : (s.busyViolation).bviol = true := rfl
@[simp] theorem State.busyViolation_doneIe (s : State) : (s.busyViolation).doneIe = s.doneIe := rfl
@[simp] theorem State.busyViolation_imgW (s : State) : (s.busyViolation).imgW = s.imgW := rfl
@[simp] theorem State.busyViolation_imgH (s : State) : (s.busyViolation).imgH = s.imgH := rfl
@[simp] theorem State.busyViolation_inLen (s : State) : (s.busyViolation).inLen = s.inLen := rfl
@[simp] theorem State.busyViolation_hashLen (s : State) :
    (s.busyViolation).hashLen = s.hashLen := rfl
@[simp] theorem State.busyViolation_outW (s : State) : (s.busyViolation).outW = s.outW := rfl
@[simp] theorem State.busyViolation_outH (s : State) : (s.busyViolation).outH = s.outH := rfl
@[simp] theorem State.busyViolation_avgR (s : State) : (s.busyViolation).avgR = s.avgR := rfl
@[simp] theorem State.busyViolation_avgG (s : State) : (s.busyViolation).avgG = s.avgG := rfl
@[simp] theorem State.busyViolation_avgB (s : State) : (s.busyViolation).avgB = s.avgB := rfl
@[simp] theorem State.busyViolation_avgA (s : State) : (s.busyViolation).avgA = s.avgA := rfl
@[simp] theorem State.busyViolation_aspect (s : State) : (s.busyViolation).aspect = s.aspect := rfl
@[simp] theorem State.busyViolation_mem (s : State) : (s.busyViolation).mem = s.mem := rfl
@[simp] theorem State.busyViolation_rst (s : State) : (s.busyViolation).rst = s.rst := rfl
@[simp] theorem State.busyViolation_wait (s : State) : (s.busyViolation).wait = s.wait := rfl
@[simp] theorem State.busyViolation_resets (s : State) : (s.busyViolation).resets = s.resets := rfl
@[simp] theorem State.busyViolation_draws (s : State) : (s.busyViolation).draws = s.draws := rfl
@[simp] theorem State.busyViolation_host (s : State) : (s.busyViolation).host = s.host := rfl

/-! ### State.writeStatus -/

@[simp] theorem State.writeStatus_phase (s : State) (v : Word) :
    (s.writeStatus v).phase = s.phase := rfl
@[simp] theorem State.writeStatus_oplatch (s : State) (v : Word) :
    (s.writeStatus v).oplatch = s.oplatch := rfl
@[simp] theorem State.writeStatus_done (s : State) (v : Word) :
    (s.writeStatus v).done = (s.done && !v.getLsbD 1) := rfl
@[simp] theorem State.writeStatus_err (s : State) (v : Word) : (s.writeStatus v).err = s.err := rfl
@[simp] theorem State.writeStatus_bviol (s : State) (v : Word) :
    (s.writeStatus v).bviol = (s.bviol && !v.getLsbD 8) := rfl
@[simp] theorem State.writeStatus_doneIe (s : State) (v : Word) :
    (s.writeStatus v).doneIe = s.doneIe := rfl
@[simp] theorem State.writeStatus_imgW (s : State) (v : Word) :
    (s.writeStatus v).imgW = s.imgW := rfl
@[simp] theorem State.writeStatus_imgH (s : State) (v : Word) :
    (s.writeStatus v).imgH = s.imgH := rfl
@[simp] theorem State.writeStatus_inLen (s : State) (v : Word) :
    (s.writeStatus v).inLen = s.inLen := rfl
@[simp] theorem State.writeStatus_hashLen (s : State) (v : Word) :
    (s.writeStatus v).hashLen = s.hashLen := rfl
@[simp] theorem State.writeStatus_outW (s : State) (v : Word) :
    (s.writeStatus v).outW = s.outW := rfl
@[simp] theorem State.writeStatus_outH (s : State) (v : Word) :
    (s.writeStatus v).outH = s.outH := rfl
@[simp] theorem State.writeStatus_avgR (s : State) (v : Word) :
    (s.writeStatus v).avgR = s.avgR := rfl
@[simp] theorem State.writeStatus_avgG (s : State) (v : Word) :
    (s.writeStatus v).avgG = s.avgG := rfl
@[simp] theorem State.writeStatus_avgB (s : State) (v : Word) :
    (s.writeStatus v).avgB = s.avgB := rfl
@[simp] theorem State.writeStatus_avgA (s : State) (v : Word) :
    (s.writeStatus v).avgA = s.avgA := rfl
@[simp] theorem State.writeStatus_aspect (s : State) (v : Word) :
    (s.writeStatus v).aspect = s.aspect := rfl
@[simp] theorem State.writeStatus_mem (s : State) (v : Word) : (s.writeStatus v).mem = s.mem := rfl
@[simp] theorem State.writeStatus_rst (s : State) (v : Word) : (s.writeStatus v).rst = s.rst := rfl
@[simp] theorem State.writeStatus_wait (s : State) (v : Word) :
    (s.writeStatus v).wait = s.wait := rfl
@[simp] theorem State.writeStatus_resets (s : State) (v : Word) :
    (s.writeStatus v).resets = s.resets := rfl
@[simp] theorem State.writeStatus_draws (s : State) (v : Word) :
    (s.writeStatus v).draws = s.draws := rfl
@[simp] theorem State.writeStatus_host (s : State) (v : Word) :
    (s.writeStatus v).host = s.host := rfl

/-! ### State.clearDone -/

@[simp] theorem State.clearDone_phase (s : State) : (s.clearDone).phase = s.phase := rfl
@[simp] theorem State.clearDone_oplatch (s : State) : (s.clearDone).oplatch = s.oplatch := rfl
@[simp] theorem State.clearDone_done (s : State) : (s.clearDone).done = false := rfl
@[simp] theorem State.clearDone_err (s : State) : (s.clearDone).err = s.err := rfl
@[simp] theorem State.clearDone_bviol (s : State) : (s.clearDone).bviol = s.bviol := rfl
@[simp] theorem State.clearDone_doneIe (s : State) : (s.clearDone).doneIe = s.doneIe := rfl
@[simp] theorem State.clearDone_imgW (s : State) : (s.clearDone).imgW = s.imgW := rfl
@[simp] theorem State.clearDone_imgH (s : State) : (s.clearDone).imgH = s.imgH := rfl
@[simp] theorem State.clearDone_inLen (s : State) : (s.clearDone).inLen = s.inLen := rfl
@[simp] theorem State.clearDone_hashLen (s : State) : (s.clearDone).hashLen = s.hashLen := rfl
@[simp] theorem State.clearDone_outW (s : State) : (s.clearDone).outW = s.outW := rfl
@[simp] theorem State.clearDone_outH (s : State) : (s.clearDone).outH = s.outH := rfl
@[simp] theorem State.clearDone_avgR (s : State) : (s.clearDone).avgR = s.avgR := rfl
@[simp] theorem State.clearDone_avgG (s : State) : (s.clearDone).avgG = s.avgG := rfl
@[simp] theorem State.clearDone_avgB (s : State) : (s.clearDone).avgB = s.avgB := rfl
@[simp] theorem State.clearDone_avgA (s : State) : (s.clearDone).avgA = s.avgA := rfl
@[simp] theorem State.clearDone_aspect (s : State) : (s.clearDone).aspect = s.aspect := rfl
@[simp] theorem State.clearDone_mem (s : State) : (s.clearDone).mem = s.mem := rfl
@[simp] theorem State.clearDone_rst (s : State) : (s.clearDone).rst = s.rst := rfl
@[simp] theorem State.clearDone_wait (s : State) : (s.clearDone).wait = s.wait := rfl
@[simp] theorem State.clearDone_resets (s : State) : (s.clearDone).resets = s.resets := rfl
@[simp] theorem State.clearDone_draws (s : State) : (s.clearDone).draws = s.draws := rfl
@[simp] theorem State.clearDone_host (s : State) : (s.clearDone).host = s.host := rfl

/-! ### State.writeHash -/

@[simp] theorem State.writeHash_phase (s : State) (b : List Byte) :
    (s.writeHash b).phase = s.phase := rfl
@[simp] theorem State.writeHash_oplatch (s : State) (b : List Byte) :
    (s.writeHash b).oplatch = s.oplatch := rfl
@[simp] theorem State.writeHash_done (s : State) (b : List Byte) :
    (s.writeHash b).done = s.done := rfl
@[simp] theorem State.writeHash_err (s : State) (b : List Byte) : (s.writeHash b).err = s.err := rfl
@[simp] theorem State.writeHash_bviol (s : State) (b : List Byte) :
    (s.writeHash b).bviol = s.bviol := rfl
@[simp] theorem State.writeHash_doneIe (s : State) (b : List Byte) :
    (s.writeHash b).doneIe = s.doneIe := rfl
@[simp] theorem State.writeHash_imgW (s : State) (b : List Byte) :
    (s.writeHash b).imgW = s.imgW := rfl
@[simp] theorem State.writeHash_imgH (s : State) (b : List Byte) :
    (s.writeHash b).imgH = s.imgH := rfl
@[simp] theorem State.writeHash_inLen (s : State) (b : List Byte) :
    (s.writeHash b).inLen = s.inLen := rfl
@[simp] theorem State.writeHash_hashLen (s : State) (b : List Byte) :
    (s.writeHash b).hashLen = BitVec.ofNat 6 b.length := rfl
@[simp] theorem State.writeHash_outW (s : State) (b : List Byte) :
    (s.writeHash b).outW = s.outW := rfl
@[simp] theorem State.writeHash_outH (s : State) (b : List Byte) :
    (s.writeHash b).outH = s.outH := rfl
@[simp] theorem State.writeHash_avgR (s : State) (b : List Byte) :
    (s.writeHash b).avgR = s.avgR := rfl
@[simp] theorem State.writeHash_avgG (s : State) (b : List Byte) :
    (s.writeHash b).avgG = s.avgG := rfl
@[simp] theorem State.writeHash_avgB (s : State) (b : List Byte) :
    (s.writeHash b).avgB = s.avgB := rfl
@[simp] theorem State.writeHash_avgA (s : State) (b : List Byte) :
    (s.writeHash b).avgA = s.avgA := rfl
@[simp] theorem State.writeHash_aspect (s : State) (b : List Byte) :
    (s.writeHash b).aspect = s.aspect := rfl
@[simp] theorem State.writeHash_mem (s : State) (b : List Byte) :
    (s.writeHash b).mem = storeBytes s.mem Config.hashBase (zeroPadded Config.hashSize b) := rfl
@[simp] theorem State.writeHash_rst (s : State) (b : List Byte) : (s.writeHash b).rst = s.rst := rfl
@[simp] theorem State.writeHash_wait (s : State) (b : List Byte) :
    (s.writeHash b).wait = s.wait := rfl
@[simp] theorem State.writeHash_resets (s : State) (b : List Byte) :
    (s.writeHash b).resets = s.resets := rfl
@[simp] theorem State.writeHash_draws (s : State) (b : List Byte) :
    (s.writeHash b).draws = s.draws := rfl
@[simp] theorem State.writeHash_host (s : State) (b : List Byte) :
    (s.writeHash b).host = s.host := rfl

/-! ### State.writeImage -/

@[simp] theorem State.writeImage_phase (s : State) (w h : Nat) (b : List Byte) :
    (s.writeImage w h b).phase = s.phase := rfl
@[simp] theorem State.writeImage_oplatch (s : State) (w h : Nat) (b : List Byte) :
    (s.writeImage w h b).oplatch = s.oplatch := rfl
@[simp] theorem State.writeImage_done (s : State) (w h : Nat) (b : List Byte) :
    (s.writeImage w h b).done = s.done := rfl
@[simp] theorem State.writeImage_err (s : State) (w h : Nat) (b : List Byte) :
    (s.writeImage w h b).err = s.err := rfl
@[simp] theorem State.writeImage_bviol (s : State) (w h : Nat) (b : List Byte) :
    (s.writeImage w h b).bviol = s.bviol := rfl
@[simp] theorem State.writeImage_doneIe (s : State) (w h : Nat) (b : List Byte) :
    (s.writeImage w h b).doneIe = s.doneIe := rfl
@[simp] theorem State.writeImage_imgW (s : State) (w h : Nat) (b : List Byte) :
    (s.writeImage w h b).imgW = s.imgW := rfl
@[simp] theorem State.writeImage_imgH (s : State) (w h : Nat) (b : List Byte) :
    (s.writeImage w h b).imgH = s.imgH := rfl
@[simp] theorem State.writeImage_inLen (s : State) (w h : Nat) (b : List Byte) :
    (s.writeImage w h b).inLen = s.inLen := rfl
@[simp] theorem State.writeImage_hashLen (s : State) (w h : Nat) (b : List Byte) :
    (s.writeImage w h b).hashLen = s.hashLen := rfl
@[simp] theorem State.writeImage_outW (s : State) (w h : Nat) (b : List Byte) :
    (s.writeImage w h b).outW = BitVec.ofNat 6 w := rfl
@[simp] theorem State.writeImage_outH (s : State) (w h : Nat) (b : List Byte) :
    (s.writeImage w h b).outH = BitVec.ofNat 6 h := rfl
@[simp] theorem State.writeImage_avgR (s : State) (w h : Nat) (b : List Byte) :
    (s.writeImage w h b).avgR = s.avgR := rfl
@[simp] theorem State.writeImage_avgG (s : State) (w h : Nat) (b : List Byte) :
    (s.writeImage w h b).avgG = s.avgG := rfl
@[simp] theorem State.writeImage_avgB (s : State) (w h : Nat) (b : List Byte) :
    (s.writeImage w h b).avgB = s.avgB := rfl
@[simp] theorem State.writeImage_avgA (s : State) (w h : Nat) (b : List Byte) :
    (s.writeImage w h b).avgA = s.avgA := rfl
@[simp] theorem State.writeImage_aspect (s : State) (w h : Nat) (b : List Byte) :
    (s.writeImage w h b).aspect = s.aspect := rfl
@[simp] theorem State.writeImage_mem (s : State) (w h : Nat) (b : List Byte) :
    (s.writeImage w h b).mem = storeBytes s.mem Config.pixoutBase (zeroPadded Config.pixoutSize b) := rfl
@[simp] theorem State.writeImage_rst (s : State) (w h : Nat) (b : List Byte) :
    (s.writeImage w h b).rst = s.rst := rfl
@[simp] theorem State.writeImage_wait (s : State) (w h : Nat) (b : List Byte) :
    (s.writeImage w h b).wait = s.wait := rfl
@[simp] theorem State.writeImage_resets (s : State) (w h : Nat) (b : List Byte) :
    (s.writeImage w h b).resets = s.resets := rfl
@[simp] theorem State.writeImage_draws (s : State) (w h : Nat) (b : List Byte) :
    (s.writeImage w h b).draws = s.draws := rfl
@[simp] theorem State.writeImage_host (s : State) (w h : Nat) (b : List Byte) :
    (s.writeImage w h b).host = s.host := rfl

/-! ### State.writeAverage -/

@[simp] theorem State.writeAverage_phase (s : State) (r g b a : F32) :
    (s.writeAverage r g b a).phase = s.phase := rfl
@[simp] theorem State.writeAverage_oplatch (s : State) (r g b a : F32) :
    (s.writeAverage r g b a).oplatch = s.oplatch := rfl
@[simp] theorem State.writeAverage_done (s : State) (r g b a : F32) :
    (s.writeAverage r g b a).done = s.done := rfl
@[simp] theorem State.writeAverage_err (s : State) (r g b a : F32) :
    (s.writeAverage r g b a).err = s.err := rfl
@[simp] theorem State.writeAverage_bviol (s : State) (r g b a : F32) :
    (s.writeAverage r g b a).bviol = s.bviol := rfl
@[simp] theorem State.writeAverage_doneIe (s : State) (r g b a : F32) :
    (s.writeAverage r g b a).doneIe = s.doneIe := rfl
@[simp] theorem State.writeAverage_imgW (s : State) (r g b a : F32) :
    (s.writeAverage r g b a).imgW = s.imgW := rfl
@[simp] theorem State.writeAverage_imgH (s : State) (r g b a : F32) :
    (s.writeAverage r g b a).imgH = s.imgH := rfl
@[simp] theorem State.writeAverage_inLen (s : State) (r g b a : F32) :
    (s.writeAverage r g b a).inLen = s.inLen := rfl
@[simp] theorem State.writeAverage_hashLen (s : State) (r g b a : F32) :
    (s.writeAverage r g b a).hashLen = s.hashLen := rfl
@[simp] theorem State.writeAverage_outW (s : State) (r g b a : F32) :
    (s.writeAverage r g b a).outW = s.outW := rfl
@[simp] theorem State.writeAverage_outH (s : State) (r g b a : F32) :
    (s.writeAverage r g b a).outH = s.outH := rfl
@[simp] theorem State.writeAverage_avgR (s : State) (r g b a : F32) :
    (s.writeAverage r g b a).avgR = r := rfl
@[simp] theorem State.writeAverage_avgG (s : State) (r g b a : F32) :
    (s.writeAverage r g b a).avgG = g := rfl
@[simp] theorem State.writeAverage_avgB (s : State) (r g b a : F32) :
    (s.writeAverage r g b a).avgB = b := rfl
@[simp] theorem State.writeAverage_avgA (s : State) (r g b a : F32) :
    (s.writeAverage r g b a).avgA = a := rfl
@[simp] theorem State.writeAverage_aspect (s : State) (r g b a : F32) :
    (s.writeAverage r g b a).aspect = s.aspect := rfl
@[simp] theorem State.writeAverage_mem (s : State) (r g b a : F32) :
    (s.writeAverage r g b a).mem = s.mem := rfl
@[simp] theorem State.writeAverage_rst (s : State) (r g b a : F32) :
    (s.writeAverage r g b a).rst = s.rst := rfl
@[simp] theorem State.writeAverage_wait (s : State) (r g b a : F32) :
    (s.writeAverage r g b a).wait = s.wait := rfl
@[simp] theorem State.writeAverage_resets (s : State) (r g b a : F32) :
    (s.writeAverage r g b a).resets = s.resets := rfl
@[simp] theorem State.writeAverage_draws (s : State) (r g b a : F32) :
    (s.writeAverage r g b a).draws = s.draws := rfl
@[simp] theorem State.writeAverage_host (s : State) (r g b a : F32) :
    (s.writeAverage r g b a).host = s.host := rfl

/-! ### State.writeAspect -/

@[simp] theorem State.writeAspect_phase (s : State) (x : F32) :
    (s.writeAspect x).phase = s.phase := rfl
@[simp] theorem State.writeAspect_oplatch (s : State) (x : F32) :
    (s.writeAspect x).oplatch = s.oplatch := rfl
@[simp] theorem State.writeAspect_done (s : State) (x : F32) :
    (s.writeAspect x).done = s.done := rfl
@[simp] theorem State.writeAspect_err (s : State) (x : F32) : (s.writeAspect x).err = s.err := rfl
@[simp] theorem State.writeAspect_bviol (s : State) (x : F32) :
    (s.writeAspect x).bviol = s.bviol := rfl
@[simp] theorem State.writeAspect_doneIe (s : State) (x : F32) :
    (s.writeAspect x).doneIe = s.doneIe := rfl
@[simp] theorem State.writeAspect_imgW (s : State) (x : F32) :
    (s.writeAspect x).imgW = s.imgW := rfl
@[simp] theorem State.writeAspect_imgH (s : State) (x : F32) :
    (s.writeAspect x).imgH = s.imgH := rfl
@[simp] theorem State.writeAspect_inLen (s : State) (x : F32) :
    (s.writeAspect x).inLen = s.inLen := rfl
@[simp] theorem State.writeAspect_hashLen (s : State) (x : F32) :
    (s.writeAspect x).hashLen = s.hashLen := rfl
@[simp] theorem State.writeAspect_outW (s : State) (x : F32) :
    (s.writeAspect x).outW = s.outW := rfl
@[simp] theorem State.writeAspect_outH (s : State) (x : F32) :
    (s.writeAspect x).outH = s.outH := rfl
@[simp] theorem State.writeAspect_avgR (s : State) (x : F32) :
    (s.writeAspect x).avgR = s.avgR := rfl
@[simp] theorem State.writeAspect_avgG (s : State) (x : F32) :
    (s.writeAspect x).avgG = s.avgG := rfl
@[simp] theorem State.writeAspect_avgB (s : State) (x : F32) :
    (s.writeAspect x).avgB = s.avgB := rfl
@[simp] theorem State.writeAspect_avgA (s : State) (x : F32) :
    (s.writeAspect x).avgA = s.avgA := rfl
@[simp] theorem State.writeAspect_aspect (s : State) (x : F32) : (s.writeAspect x).aspect = x := rfl
@[simp] theorem State.writeAspect_mem (s : State) (x : F32) : (s.writeAspect x).mem = s.mem := rfl
@[simp] theorem State.writeAspect_rst (s : State) (x : F32) : (s.writeAspect x).rst = s.rst := rfl
@[simp] theorem State.writeAspect_wait (s : State) (x : F32) :
    (s.writeAspect x).wait = s.wait := rfl
@[simp] theorem State.writeAspect_resets (s : State) (x : F32) :
    (s.writeAspect x).resets = s.resets := rfl
@[simp] theorem State.writeAspect_draws (s : State) (x : F32) :
    (s.writeAspect x).draws = s.draws := rfl
@[simp] theorem State.writeAspect_host (s : State) (x : F32) :
    (s.writeAspect x).host = s.host := rfl

/-! ### State.assertReset -/

@[simp] theorem State.assertReset_phase (s : State) :
    (s.assertReset).phase = State.reset.phase := rfl
@[simp] theorem State.assertReset_oplatch (s : State) :
    (s.assertReset).oplatch = State.reset.oplatch := rfl
@[simp] theorem State.assertReset_done (s : State) : (s.assertReset).done = State.reset.done := rfl
@[simp] theorem State.assertReset_err (s : State) : (s.assertReset).err = State.reset.err := rfl
@[simp] theorem State.assertReset_bviol (s : State) :
    (s.assertReset).bviol = State.reset.bviol := rfl
@[simp] theorem State.assertReset_doneIe (s : State) :
    (s.assertReset).doneIe = State.reset.doneIe := rfl
@[simp] theorem State.assertReset_imgW (s : State) : (s.assertReset).imgW = State.reset.imgW := rfl
@[simp] theorem State.assertReset_imgH (s : State) : (s.assertReset).imgH = State.reset.imgH := rfl
@[simp] theorem State.assertReset_inLen (s : State) :
    (s.assertReset).inLen = State.reset.inLen := rfl
@[simp] theorem State.assertReset_hashLen (s : State) :
    (s.assertReset).hashLen = State.reset.hashLen := rfl
@[simp] theorem State.assertReset_outW (s : State) : (s.assertReset).outW = State.reset.outW := rfl
@[simp] theorem State.assertReset_outH (s : State) : (s.assertReset).outH = State.reset.outH := rfl
@[simp] theorem State.assertReset_avgR (s : State) : (s.assertReset).avgR = State.reset.avgR := rfl
@[simp] theorem State.assertReset_avgG (s : State) : (s.assertReset).avgG = State.reset.avgG := rfl
@[simp] theorem State.assertReset_avgB (s : State) : (s.assertReset).avgB = State.reset.avgB := rfl
@[simp] theorem State.assertReset_avgA (s : State) : (s.assertReset).avgA = State.reset.avgA := rfl
@[simp] theorem State.assertReset_aspect (s : State) :
    (s.assertReset).aspect = State.reset.aspect := rfl
@[simp] theorem State.assertReset_mem (s : State) : (s.assertReset).mem = State.reset.mem := rfl
@[simp] theorem State.assertReset_rst (s : State) : (s.assertReset).rst = true := rfl
@[simp] theorem State.assertReset_wait (s : State) : (s.assertReset).wait = State.reset.wait := rfl
@[simp] theorem State.assertReset_resets (s : State) : (s.assertReset).resets = s.resets + 1 := rfl
@[simp] theorem State.assertReset_draws (s : State) : (s.assertReset).draws = s.draws := rfl
@[simp] theorem State.assertReset_host (s : State) : (s.assertReset).host = s.host := rfl

/-! ### State.releaseReset -/

@[simp] theorem State.releaseReset_phase (s : State) : (s.releaseReset).phase = s.phase := rfl
@[simp] theorem State.releaseReset_oplatch (s : State) : (s.releaseReset).oplatch = s.oplatch := rfl
@[simp] theorem State.releaseReset_done (s : State) : (s.releaseReset).done = s.done := rfl
@[simp] theorem State.releaseReset_err (s : State) : (s.releaseReset).err = s.err := rfl
@[simp] theorem State.releaseReset_bviol (s : State) : (s.releaseReset).bviol = s.bviol := rfl
@[simp] theorem State.releaseReset_doneIe (s : State) : (s.releaseReset).doneIe = s.doneIe := rfl
@[simp] theorem State.releaseReset_imgW (s : State) : (s.releaseReset).imgW = s.imgW := rfl
@[simp] theorem State.releaseReset_imgH (s : State) : (s.releaseReset).imgH = s.imgH := rfl
@[simp] theorem State.releaseReset_inLen (s : State) : (s.releaseReset).inLen = s.inLen := rfl
@[simp] theorem State.releaseReset_hashLen (s : State) : (s.releaseReset).hashLen = s.hashLen := rfl
@[simp] theorem State.releaseReset_outW (s : State) : (s.releaseReset).outW = s.outW := rfl
@[simp] theorem State.releaseReset_outH (s : State) : (s.releaseReset).outH = s.outH := rfl
@[simp] theorem State.releaseReset_avgR (s : State) : (s.releaseReset).avgR = s.avgR := rfl
@[simp] theorem State.releaseReset_avgG (s : State) : (s.releaseReset).avgG = s.avgG := rfl
@[simp] theorem State.releaseReset_avgB (s : State) : (s.releaseReset).avgB = s.avgB := rfl
@[simp] theorem State.releaseReset_avgA (s : State) : (s.releaseReset).avgA = s.avgA := rfl
@[simp] theorem State.releaseReset_aspect (s : State) : (s.releaseReset).aspect = s.aspect := rfl
@[simp] theorem State.releaseReset_mem (s : State) : (s.releaseReset).mem = s.mem := rfl
@[simp] theorem State.releaseReset_rst (s : State) : (s.releaseReset).rst = false := rfl
@[simp] theorem State.releaseReset_wait (s : State) : (s.releaseReset).wait = s.wait := rfl
@[simp] theorem State.releaseReset_resets (s : State) : (s.releaseReset).resets = s.resets := rfl
@[simp] theorem State.releaseReset_draws (s : State) : (s.releaseReset).draws = s.draws := rfl
@[simp] theorem State.releaseReset_host (s : State) : (s.releaseReset).host = s.host := rfl

/-! ### tick -/

@[simp] theorem tick_phase (s : State) : (tick s).phase = s.phase := rfl
@[simp] theorem tick_oplatch (s : State) : (tick s).oplatch = s.oplatch := rfl
@[simp] theorem tick_done (s : State) : (tick s).done = s.done := rfl
@[simp] theorem tick_err (s : State) : (tick s).err = s.err := rfl
@[simp] theorem tick_bviol (s : State) : (tick s).bviol = s.bviol := rfl
@[simp] theorem tick_doneIe (s : State) : (tick s).doneIe = s.doneIe := rfl
@[simp] theorem tick_imgW (s : State) : (tick s).imgW = s.imgW := rfl
@[simp] theorem tick_imgH (s : State) : (tick s).imgH = s.imgH := rfl
@[simp] theorem tick_inLen (s : State) : (tick s).inLen = s.inLen := rfl
@[simp] theorem tick_hashLen (s : State) : (tick s).hashLen = s.hashLen := rfl
@[simp] theorem tick_outW (s : State) : (tick s).outW = s.outW := rfl
@[simp] theorem tick_outH (s : State) : (tick s).outH = s.outH := rfl
@[simp] theorem tick_avgR (s : State) : (tick s).avgR = s.avgR := rfl
@[simp] theorem tick_avgG (s : State) : (tick s).avgG = s.avgG := rfl
@[simp] theorem tick_avgB (s : State) : (tick s).avgB = s.avgB := rfl
@[simp] theorem tick_avgA (s : State) : (tick s).avgA = s.avgA := rfl
@[simp] theorem tick_aspect (s : State) : (tick s).aspect = s.aspect := rfl
@[simp] theorem tick_mem (s : State) : (tick s).mem = s.mem := rfl
@[simp] theorem tick_rst (s : State) : (tick s).rst = s.rst := rfl
@[simp] theorem tick_wait (s : State) : (tick s).wait = s.wait - 1 := rfl
@[simp] theorem tick_resets (s : State) : (tick s).resets = s.resets := rfl
@[simp] theorem tick_draws (s : State) : (tick s).draws = s.draws := rfl
@[simp] theorem tick_host (s : State) : (tick s).host = s.host := rfl

/-! ### latchWord -/

@[simp] theorem latchWord_phase (s : State) (w : Word) : (latchWord s w).phase = .busy := rfl
@[simp] theorem latchWord_oplatch (s : State) (w : Word) : (latchWord s w).oplatch = w := rfl
@[simp] theorem latchWord_done (s : State) (w : Word) : (latchWord s w).done = s.done := rfl
@[simp] theorem latchWord_err (s : State) (w : Word) : (latchWord s w).err = s.err := rfl
@[simp] theorem latchWord_bviol (s : State) (w : Word) : (latchWord s w).bviol = s.bviol := rfl
@[simp] theorem latchWord_doneIe (s : State) (w : Word) : (latchWord s w).doneIe = s.doneIe := rfl
@[simp] theorem latchWord_imgW (s : State) (w : Word) : (latchWord s w).imgW = s.imgW := rfl
@[simp] theorem latchWord_imgH (s : State) (w : Word) : (latchWord s w).imgH = s.imgH := rfl
@[simp] theorem latchWord_inLen (s : State) (w : Word) : (latchWord s w).inLen = s.inLen := rfl
@[simp] theorem latchWord_hashLen (s : State) (w : Word) :
    (latchWord s w).hashLen = s.hashLen := rfl
@[simp] theorem latchWord_outW (s : State) (w : Word) : (latchWord s w).outW = s.outW := rfl
@[simp] theorem latchWord_outH (s : State) (w : Word) : (latchWord s w).outH = s.outH := rfl
@[simp] theorem latchWord_avgR (s : State) (w : Word) : (latchWord s w).avgR = s.avgR := rfl
@[simp] theorem latchWord_avgG (s : State) (w : Word) : (latchWord s w).avgG = s.avgG := rfl
@[simp] theorem latchWord_avgB (s : State) (w : Word) : (latchWord s w).avgB = s.avgB := rfl
@[simp] theorem latchWord_avgA (s : State) (w : Word) : (latchWord s w).avgA = s.avgA := rfl
@[simp] theorem latchWord_aspect (s : State) (w : Word) : (latchWord s w).aspect = s.aspect := rfl
@[simp] theorem latchWord_mem (s : State) (w : Word) : (latchWord s w).mem = s.mem := rfl
@[simp] theorem latchWord_rst (s : State) (w : Word) : (latchWord s w).rst = false := rfl
@[simp] theorem latchWord_wait (s : State) (w : Word) : (latchWord s w).wait = 0 := rfl
@[simp] theorem latchWord_resets (s : State) (w : Word) : (latchWord s w).resets = s.resets := rfl
@[simp] theorem latchWord_draws (s : State) (w : Word) : (latchWord s w).draws = s.draws := rfl
@[simp] theorem latchWord_host (s : State) (w : Word) : (latchWord s w).host = s.host := rfl

/-! ### receive -/

@[simp] theorem receive_phase (s : State) (x : HostName) (r : BusResp) :
    (receive s x r).phase = s.phase := rfl
@[simp] theorem receive_oplatch (s : State) (x : HostName) (r : BusResp) :
    (receive s x r).oplatch = s.oplatch := rfl
@[simp] theorem receive_done (s : State) (x : HostName) (r : BusResp) :
    (receive s x r).done = s.done := rfl
@[simp] theorem receive_err (s : State) (x : HostName) (r : BusResp) :
    (receive s x r).err = s.err := rfl
@[simp] theorem receive_bviol (s : State) (x : HostName) (r : BusResp) :
    (receive s x r).bviol = s.bviol := rfl
@[simp] theorem receive_doneIe (s : State) (x : HostName) (r : BusResp) :
    (receive s x r).doneIe = s.doneIe := rfl
@[simp] theorem receive_imgW (s : State) (x : HostName) (r : BusResp) :
    (receive s x r).imgW = s.imgW := rfl
@[simp] theorem receive_imgH (s : State) (x : HostName) (r : BusResp) :
    (receive s x r).imgH = s.imgH := rfl
@[simp] theorem receive_inLen (s : State) (x : HostName) (r : BusResp) :
    (receive s x r).inLen = s.inLen := rfl
@[simp] theorem receive_hashLen (s : State) (x : HostName) (r : BusResp) :
    (receive s x r).hashLen = s.hashLen := rfl
@[simp] theorem receive_outW (s : State) (x : HostName) (r : BusResp) :
    (receive s x r).outW = s.outW := rfl
@[simp] theorem receive_outH (s : State) (x : HostName) (r : BusResp) :
    (receive s x r).outH = s.outH := rfl
@[simp] theorem receive_avgR (s : State) (x : HostName) (r : BusResp) :
    (receive s x r).avgR = s.avgR := rfl
@[simp] theorem receive_avgG (s : State) (x : HostName) (r : BusResp) :
    (receive s x r).avgG = s.avgG := rfl
@[simp] theorem receive_avgB (s : State) (x : HostName) (r : BusResp) :
    (receive s x r).avgB = s.avgB := rfl
@[simp] theorem receive_avgA (s : State) (x : HostName) (r : BusResp) :
    (receive s x r).avgA = s.avgA := rfl
@[simp] theorem receive_aspect (s : State) (x : HostName) (r : BusResp) :
    (receive s x r).aspect = s.aspect := rfl
@[simp] theorem receive_mem (s : State) (x : HostName) (r : BusResp) :
    (receive s x r).mem = s.mem := rfl
@[simp] theorem receive_rst (s : State) (x : HostName) (r : BusResp) :
    (receive s x r).rst = s.rst := rfl
@[simp] theorem receive_wait (s : State) (x : HostName) (r : BusResp) :
    (receive s x r).wait = s.wait := rfl
@[simp] theorem receive_resets (s : State) (x : HostName) (r : BusResp) :
    (receive s x r).resets = s.resets := rfl
@[simp] theorem receive_draws (s : State) (x : HostName) (r : BusResp) :
    (receive s x r).draws = s.draws := rfl
@[simp] theorem receive_host (s : State) (x : HostName) (r : BusResp) :
    (receive s x r).host = advance { setName s.host x r.data with resp := some r } := rfl

/-! ### acknowledge -/

@[simp] theorem acknowledge_phase (s : State) (r : BusResp) :
    (acknowledge s r).phase = s.phase := rfl
@[simp] theorem acknowledge_oplatch (s : State) (r : BusResp) :
    (acknowledge s r).oplatch = s.oplatch := rfl
@[simp] theorem acknowledge_done (s : State) (r : BusResp) : (acknowledge s r).done = s.done := rfl
@[simp] theorem acknowledge_err (s : State) (r : BusResp) : (acknowledge s r).err = s.err := rfl
@[simp] theorem acknowledge_bviol (s : State) (r : BusResp) :
    (acknowledge s r).bviol = s.bviol := rfl
@[simp] theorem acknowledge_doneIe (s : State) (r : BusResp) :
    (acknowledge s r).doneIe = s.doneIe := rfl
@[simp] theorem acknowledge_imgW (s : State) (r : BusResp) : (acknowledge s r).imgW = s.imgW := rfl
@[simp] theorem acknowledge_imgH (s : State) (r : BusResp) : (acknowledge s r).imgH = s.imgH := rfl
@[simp] theorem acknowledge_inLen (s : State) (r : BusResp) :
    (acknowledge s r).inLen = s.inLen := rfl
@[simp] theorem acknowledge_hashLen (s : State) (r : BusResp) :
    (acknowledge s r).hashLen = s.hashLen := rfl
@[simp] theorem acknowledge_outW (s : State) (r : BusResp) : (acknowledge s r).outW = s.outW := rfl
@[simp] theorem acknowledge_outH (s : State) (r : BusResp) : (acknowledge s r).outH = s.outH := rfl
@[simp] theorem acknowledge_avgR (s : State) (r : BusResp) : (acknowledge s r).avgR = s.avgR := rfl
@[simp] theorem acknowledge_avgG (s : State) (r : BusResp) : (acknowledge s r).avgG = s.avgG := rfl
@[simp] theorem acknowledge_avgB (s : State) (r : BusResp) : (acknowledge s r).avgB = s.avgB := rfl
@[simp] theorem acknowledge_avgA (s : State) (r : BusResp) : (acknowledge s r).avgA = s.avgA := rfl
@[simp] theorem acknowledge_aspect (s : State) (r : BusResp) :
    (acknowledge s r).aspect = s.aspect := rfl
@[simp] theorem acknowledge_mem (s : State) (r : BusResp) : (acknowledge s r).mem = s.mem := rfl
@[simp] theorem acknowledge_rst (s : State) (r : BusResp) : (acknowledge s r).rst = s.rst := rfl
@[simp] theorem acknowledge_wait (s : State) (r : BusResp) : (acknowledge s r).wait = s.wait := rfl
@[simp] theorem acknowledge_resets (s : State) (r : BusResp) :
    (acknowledge s r).resets = s.resets := rfl
@[simp] theorem acknowledge_draws (s : State) (r : BusResp) :
    (acknowledge s r).draws = s.draws := rfl
@[simp] theorem acknowledge_host (s : State) (r : BusResp) :
    (acknowledge s r).host = advance { s.host with resp := some r } := rfl

end Sys2Proof.Machine
end

