-- ==== Sys2Proof/Laws/Memory.lean ====
section
/-! SUPPORT. What storing bytes does to the memory: the bytes stored read back, every other byte is
as before, and the canonical form is kept and determines the memory. -/

namespace Sys2Proof.Machine

@[simp] theorem cellsFrom_nil (base : Nat) : cellsFrom base [] = [] := rfl

@[simp] theorem cellsFrom_cons (base : Nat) (b : Byte) (bs : List Byte) :
    cellsFrom base (b :: bs) = (base, b) :: cellsFrom (base + 1) bs := rfl

@[simp] theorem lookupByte_nil (a : Nat) : lookupByte [] a = none := rfl

theorem lookupByte_cons (k : Nat) (v : Byte) (m : Memory) (a : Nat) :
    lookupByte ((k, v) :: m) a = if a = k then some v else lookupByte m a := by
  by_cases h : a = k
  · subst h; simp [lookupByte]
  · have hb : (a == k) = false := by simp [h]
    simp [lookupByte, List.lookup_cons, hb, h]

theorem mem_cellsFrom {base : Nat} {bs : List Byte} {c : Host.Cell} (h : c ∈ cellsFrom base bs) :
    base ≤ c.1 ∧ c.1 < base + bs.length := by
  induction bs generalizing base with
  | nil => simp at h
  | cons b bs ih =>
    simp only [cellsFrom_cons, List.mem_cons, List.length_cons] at h ⊢
    rcases h with rfl | h
    · dsimp only; omega
    · have := ih h
      omega

theorem lookupByte_cellsFrom (base : Nat) (bs : List Byte) (a : Nat) :
    lookupByte (cellsFrom base bs) a =
      if base ≤ a ∧ a < base + bs.length then some (bs.getD (a - base) 0) else none := by
  induction bs generalizing base with
  | nil => rw [if_neg (by simp only [List.length_nil]; omega)]; rfl
  | cons b bs ih =>
    rw [cellsFrom_cons, lookupByte_cons, ih]
    by_cases h : a = base
    · subst h; simp
    · by_cases hr : base + 1 ≤ a ∧ a < base + 1 + bs.length
      · have hr' : base ≤ a ∧ a < base + (b :: bs).length := by
          simp only [List.length_cons]; omega
        obtain ⟨k, hk⟩ : ∃ k, a - base = k + 1 := ⟨a - base - 1, by omega⟩
        have hk' : a - (base + 1) = k := by omega
        rw [if_neg h, if_pos hr, if_pos hr', hk, hk', List.getD_cons_succ]
      · have hr' : ¬(base ≤ a ∧ a < base + (b :: bs).length) := by
          simp only [List.length_cons]; omega
        rw [if_neg h, if_neg hr, if_neg hr']

/-- Looking an address up in the cells that a test on addresses keeps. -/
theorem lookupByte_filter (m : Memory) (p : Nat → Bool) (a : Nat) :
    lookupByte (m.filter fun c => p c.1) a = if p a then lookupByte m a else none := by
  induction m with
  | nil => simp
  | cons c m ih =>
    obtain ⟨k, v⟩ := c
    rw [List.filter_cons, lookupByte_cons]
    by_cases hk : p k = true
    · rw [if_pos hk, lookupByte_cons, ih]
      by_cases ha : a = k
      · subst ha; simp [hk]
      · simp [ha]
    · rw [if_neg hk, ih]
      by_cases ha : a = k
      · subst ha; simp [hk]
      · simp [ha]

theorem lookupByte_append (m m' : Memory) (a : Nat) :
    lookupByte (m ++ m') a = (lookupByte m a).or (lookupByte m' a) := by
  simp [lookupByte, List.lookup_append]

/-- Read after write: the stored bytes, and every other byte as before. -/
theorem lookupByte_storeBytes (m : Memory) (base : Nat) (bs : List Byte) (a : Nat) :
    lookupByte (storeBytes m base bs) a =
      if base ≤ a ∧ a < base + bs.length then some (bs.getD (a - base) 0) else lookupByte m a := by
  unfold storeBytes
  rw [lookupByte_append, lookupByte_append, lookupByte_cellsFrom,
    lookupByte_filter m (fun k => decide (k < base)),
    lookupByte_filter m (fun k => decide (base + bs.length ≤ k))]
  by_cases h1 : a < base
  · have h2 : ¬(base + bs.length ≤ a) := by omega
    have h3 : ¬(base ≤ a ∧ a < base + bs.length) := by omega
    simp [h1, h2, h3]
  · by_cases h2 : base + bs.length ≤ a
    · have h3 : ¬(base ≤ a ∧ a < base + bs.length) := by omega
      simp [h1, h2, h3]
    · have h3 : base ≤ a ∧ a < base + bs.length := by omega
      simp [h1, h3]

theorem cellsFrom_wf (base : Nat) (bs : List Byte) : Memory.wf (cellsFrom base bs) := by
  induction bs generalizing base with
  | nil => simp [Memory.wf]
  | cons b bs ih =>
    simp only [Memory.wf, cellsFrom_cons, List.pairwise_cons]
    exact ⟨fun c hc => by have := mem_cellsFrom hc; omega, ih _⟩

/-- Storing keeps the canonical form. -/
theorem storeBytes_wf {m : Memory} (h : Memory.wf m) (base : Nat) (bs : List Byte) :
    Memory.wf (storeBytes m base bs) := by
  simp only [Memory.wf, storeBytes, List.pairwise_append, List.mem_append, List.mem_filter,
    decide_eq_true_eq]
  refine ⟨⟨h.filter _, cellsFrom_wf base bs, fun x hx y hy => ?_⟩, h.filter _, fun x hx y hy => ?_⟩
  · have := mem_cellsFrom hy; omega
  · rcases hx with hx | hx
    · omega
    · have := mem_cellsFrom hx; omega

/-- The cells after a store are cells of before or of the stored bytes. -/
theorem mem_storeBytes {m : Memory} {base : Nat} {bs : List Byte} {c : Host.Cell}
    (h : c ∈ storeBytes m base bs) : c ∈ m ∨ base ≤ c.1 ∧ c.1 < base + bs.length := by
  simp only [storeBytes, List.mem_append, List.mem_filter] at h
  rcases h with (h | h) | h
  · exact .inl h.1
  · exact .inr (mem_cellsFrom h)
  · exact .inl h.1

/-- Memories in canonical form that hold the same bytes are the same data. -/
theorem memory_ext {m m' : Memory} (hm : Memory.wf m) (hm' : Memory.wf m')
    (h : ∀ a, lookupByte m a = lookupByte m' a) : m = m' := by
  have low : ∀ {n : Memory} {j : Nat}, (∀ d ∈ n, j < d.1) → ∀ i ≤ j, lookupByte n i = none := by
    intro n j hn i hi
    simp only [lookupByte, List.lookup_eq_none_iff]
    intro d hd
    have := hn d hd
    simp; omega
  induction m generalizing m' with
  | nil =>
    cases m' with
    | nil => rfl
    | cons c m' => have := h c.1; rw [lookupByte_cons] at this; simp at this
  | cons c m ih =>
    cases m' with
    | nil => have := h c.1; rw [lookupByte_cons] at this; simp at this
    | cons c' m' =>
      obtain ⟨k, v⟩ := c
      obtain ⟨k', v'⟩ := c'
      simp only [Memory.wf, List.pairwise_cons] at hm hm'
      simp only [lookupByte_cons] at h
      have hk : k = k' := by
        rcases Nat.lt_trichotomy k k' with hlt | heq | hgt
        · have h1 := h k
          rw [if_pos rfl, if_neg (by omega), low hm'.1 k (by omega)] at h1
          simp at h1
        · exact heq
        · have h1 := h k'
          rw [if_pos rfl, if_neg (by omega), low hm.1 k' (by omega)] at h1
          simp at h1
      subst hk
      have hv : v = v' := by have := h k; simpa using this
      subst hv
      rw [ih hm.2 hm'.2]
      intro a
      by_cases ha : a = k
      · subst ha
        rw [low hm.1 a (Nat.le_refl a), low hm'.1 a (Nat.le_refl a)]
      · have := h a
        rwa [if_neg ha, if_neg ha] at this

/-! ### Reading bytes of a state -/

/-- Reading a byte depends only on the memory and the number of resets. -/
theorem readByte_congr {s t : State} (hm : t.mem = s.mem) (hr : t.resets = s.resets) (a : Nat) :
    t.readByte a = s.readByte a := by
  simp [State.readByte, hm, hr]

/-- A byte after a store. -/
theorem readByte_store {s t : State} {base : Nat} {bs : List Byte}
    (hm : t.mem = storeBytes s.mem base bs) (hr : t.resets = s.resets) (a : Nat) :
    t.readByte a =
      if base ≤ a ∧ a < base + bs.length then bs.getD (a - base) 0 else s.readByte a := by
  simp only [State.readByte, hm, hr, lookupByte_storeBytes]
  by_cases h : base ≤ a ∧ a < base + bs.length <;> simp [h]

@[simp] theorem readBytes_length (s : State) (base n : Nat) : (s.readBytes base n).length = n := by
  simp [State.readBytes]

theorem readBytes_getD (s : State) (base n i : Nat) (h : i < n) :
    (s.readBytes base n).getD i 0 = s.readByte (base + i) := by
  simp [State.readBytes, h]

theorem readBytes_congr {s t : State} (hm : t.mem = s.mem) (hr : t.resets = s.resets)
    (base n : Nat) : t.readBytes base n = s.readBytes base n := by
  simp [State.readBytes, readByte_congr hm hr]

@[simp] theorem zeroPadded_length (size : Nat) (bs : List Byte) :
    (zeroPadded size bs).length = max size bs.length := by
  simp only [zeroPadded, List.length_append, List.length_replicate]; omega

theorem zeroPadded_getD (size : Nat) (bs : List Byte) (i : Nat) :
    (zeroPadded size bs).getD i 0 = bs.getD i 0 := by
  simp only [zeroPadded, List.getD_eq_getElem?_getD, List.getElem?_append]
  split
  · rfl
  · next h =>
    rw [List.getElem?_eq_none (by omega : bs.length ≤ i)]
    simp only [List.getElem?_replicate]
    split <;> rfl

/-! ### The writes of the commands -/

@[simp] theorem readByte_complete (s : State) (c : ResultCode) (a : Nat) :
    (s.complete c).readByte a = s.readByte a := rfl

@[simp] theorem readByte_takeError (s : State) (e : CmdError) (a : Nat) :
    (s.takeError e).readByte a = s.readByte a := rfl

/-- R143: HASHBUF holds the hash and then zeros; every other byte is as before. -/
theorem readByte_writeHash (s : State) (hash : List Byte) (a : Nat) :
    (s.writeHash hash).readByte a =
      if 0x100 ≤ a ∧ a < 0x100 + max 32 hash.length then hash.getD (a - 0x100) 0
      else s.readByte a := by
  rw [readByte_store (s := s) (t := s.writeHash hash) (base := Config.hashBase)
    (bs := zeroPadded Config.hashSize hash) rfl rfl, zeroPadded_length, zeroPadded_getD]
  rfl

/-- R144: PIXOUT holds the image and then zeros; every other byte is as before. -/
theorem readByte_writeImage (s : State) (w h : Nat) (rgba : List Byte) (a : Nat) :
    (s.writeImage w h rgba).readByte a =
      if 0x1000 ≤ a ∧ a < 0x1000 + max 4096 rgba.length then rgba.getD (a - 0x1000) 0
      else s.readByte a := by
  rw [readByte_store (s := s) (t := s.writeImage w h rgba) (base := Config.pixoutBase)
    (bs := zeroPadded Config.pixoutSize rgba) rfl rfl, zeroPadded_length, zeroPadded_getD]
  rfl

end Sys2Proof.Machine
end

