-- ==== Sys2Proof/Laws/Bus.lean ====
section
/-! SUPPORT. Everything a host access can do: what a read answers, and the states a write can give. A
proof cites `memRead_cases` and `memWrite_cases` and unfolds neither. -/

namespace Sys2Proof.Machine

theorem busy_iff (s : State) : s.busy = true ↔ s.phase = .busy := by
  simp [State.busy]

theorem not_busy_iff (s : State) : s.busy = false ↔ s.phase = .idle := by
  unfold State.busy
  cases s.phase <;> simp

/-! ### The address map -/

theorem regionOf_regs {a : Nat} : regionOf a = .regs ↔ a < 0x3C := by
  unfold regionOf
  split_ifs <;>
    simp only [Config.regsEnd, Config.hashBase, Config.hashSize, Config.pixoutBase,
      Config.pixoutSize, Config.pixinBase, Config.pixinSize, true_iff, false_iff] at * <;>
    omega

theorem regionOf_hashbuf {a : Nat} : regionOf a = .hashbuf ↔ 0x100 ≤ a ∧ a < 0x120 := by
  unfold regionOf
  split_ifs <;>
    simp only [Config.regsEnd, Config.hashBase, Config.hashSize, Config.pixoutBase,
      Config.pixoutSize, Config.pixinBase, Config.pixinSize, true_iff, false_iff] at * <;>
    omega

theorem regionOf_pixout {a : Nat} : regionOf a = .pixout ↔ 0x1000 ≤ a ∧ a < 0x2000 := by
  unfold regionOf
  split_ifs <;>
    simp only [Config.regsEnd, Config.hashBase, Config.hashSize, Config.pixoutBase,
      Config.pixoutSize, Config.pixinBase, Config.pixinSize, true_iff, false_iff] at * <;>
    omega

theorem regionOf_pixin {a : Nat} : regionOf a = .pixin ↔ 0x10000 ≤ a ∧ a < 0x19C40 := by
  unfold regionOf
  split_ifs <;>
    simp only [Config.regsEnd, Config.hashBase, Config.hashSize, Config.pixoutBase,
      Config.pixoutSize, Config.pixinBase, Config.pixinSize, true_iff, false_iff] at * <;>
    omega

/-- The offset of each register. -/
def regOffset : Reg → Nat
  | .id => 0x000
  | .cmd => 0x004
  | .status => 0x008
  | .irqEn => 0x00C
  | .imgW => 0x010
  | .imgH => 0x014
  | .inLen => 0x018
  | .hashLen => 0x01C
  | .outW => 0x020
  | .outH => 0x024
  | .avgR => 0x028
  | .avgG => 0x02C
  | .avgB => 0x030
  | .avgA => 0x034
  | .aspect => 0x038

theorem regAt_iff (a : Nat) (r : Reg) : regAt a = some r ↔ a = regOffset r := by
  constructor
  · intro h
    unfold regAt at h
    split at h <;> first | (cases h; rfl) | cases h
  · rintro rfl
    cases r <;> rfl

/-- A register offset is below the end of the region. -/
theorem regOffset_lt (r : Reg) : regOffset r < 0x3C := by cases r <;> decide

/-- There is no register outside the register region. -/
theorem regAt_none {a : Nat} (h : 0x3C ≤ a) : regAt a = none := by
  cases hr : regAt a with
  | none => rfl
  | some r =>
    have := (regAt_iff a r).1 hr
    have := regOffset_lt r
    omega

/-- An access in the register region that gets no bus error is to one register, whole. -/
theorem accessOk_reg {o : Offset} {n : Nat} (h : accessOk o n = true)
    (hr : regionOf o.toNat = .regs) : n = 4 ∧ ∃ r, regAt o.toNat = some r := by
  have hlt := regionOf_regs.1 hr
  simp only [accessOk, hr, Bool.and_eq_true, beq_iff_eq, decide_eq_true_eq, Bool.or_eq_true,
    bne_self_eq_false, Bool.false_eq_true, false_or] at h
  obtain ⟨⟨⟨⟨-, hm⟩, -⟩, h4⟩, -⟩ := h
  subst h4
  refine ⟨rfl, ?_⟩
  generalize o.toNat = a at *
  have : a = 4 * (a / 4) := by omega
  rw [this]
  have : a / 4 < 15 := by omega
  interval_cases a / 4 <;> exact ⟨_, rfl⟩

/-- An access that gets no bus error is 1, 2 or 4 bytes wide and lies inside its region. -/
theorem accessOk_fits {o : Offset} {n : Nat} (h : accessOk o n = true) :
    (n = 1 ∨ n = 2 ∨ n = 4) ∧ regionOf o.toNat ≠ .reserved ∧
      o.toNat + n ≤ regionEnd (regionOf o.toNat) := by
  simp only [accessOk, Bool.and_eq_true, beq_iff_eq, decide_eq_true_eq, Bool.or_eq_true,
    bne_iff_ne, or_assoc] at h
  exact ⟨h.1.1.1.1, h.1.1.2, h.2⟩

/-! ### Reads and writes -/

/-- R78: the value of the low bytes of a word. -/
theorem bytesValue_wordBytes (v : Word) {n : Nat} (h : n = 1 ∨ n = 2 ∨ n = 4) :
    bytesValue ((wordBytes v).take n) = BitVec.ofNat 32 (v.toNat % 2 ^ (8 * n)) := by
  apply BitVec.eq_of_getLsbD_eq
  intro i hi
  rw [BitVec.getLsbD_ofNat, Nat.testBit_mod_two_pow, BitVec.testBit_toNat]
  rcases h with rfl | rfl | rfl
  all_goals
    simp only [wordBytes, List.take, bytesValue, BitVec.getLsbD_or, BitVec.getLsbD_shiftLeft,
      BitVec.getLsbD_setWidth, BitVec.getLsbD_extractLsb', hi, decide_true, Bool.true_and]
    interval_cases i <;> simp

/-- What a host read can do. -/
theorem memRead_cases (s : State) (o : Offset) (n : Nat) :
    ((s.rst = true ∨ accessOk o n = false) ∧ memRead s o n = (s, ⟨true, 0⟩)) ∨
    (s.rst = false ∧ accessOk o n = true ∧ s.phase = .busy ∧ isResultAt o.toNat = true ∧
      memRead s o n =
        ({ s with draws := s.draws + 1 }, ⟨false, lowBytes n (Config.busyRead s.draws)⟩)) ∨
    (s.rst = false ∧ accessOk o n = true ∧ (s.phase = .idle ∨ isResultAt o.toNat = false) ∧
      memRead s o n = (s, ⟨false, readData s o n⟩)) := by
  unfold memRead
  cases hr : s.rst <;> cases ha : accessOk o n <;> simp [← busy_iff, ← not_busy_iff]
  cases hb : s.busy <;> cases isResultAt o.toNat <;> simp

/-- What a host write can do. -/
theorem memWrite_cases (s : State) (o : Offset) (n : Nat) (v : Word) :
    ((s.rst = true ∨ accessOk o n = false) ∧ memWrite s o n v = (s, ⟨true, 0⟩)) ∨
    (s.rst = false ∧ accessOk o n = true ∧ s.phase = .busy ∧ isGuardedAt o.toNat = true ∧
      memWrite s o n v = (s.busyViolation, ⟨false, 0⟩)) ∨
    (s.rst = false ∧ accessOk o n = true ∧ (s.phase = .idle ∨ isGuardedAt o.toNat = false) ∧
      ((n = 4 ∧ ∃ r, o.toNat = regOffset r ∧ memWrite s o n v = (writeReg s v r, ⟨false, 0⟩)) ∨
        (regionOf o.toNat = .pixout ∧ memWrite s o n v = (s, ⟨false, 0⟩)) ∨
        ((regionOf o.toNat = .hashbuf ∨ regionOf o.toNat = .pixin) ∧ s.phase = .idle ∧
          memWrite s o n v =
            ({ s with mem := storeBytes s.mem o.toNat ((wordBytes v).take n) },
              ⟨false, 0⟩)))) := by
  unfold memWrite
  by_cases h1 : s.rst = true
  · left; simp [h1]
  simp only [Bool.not_eq_true] at h1
  by_cases h2 : accessOk o n = true
  swap
  · left; simp only [Bool.not_eq_true] at h2; simp [h2]
  right
  simp only [h1, h2, Bool.not_true, Bool.or_self, Bool.false_eq_true, if_false, writeData]
  by_cases h3 : (s.busy && isGuardedAt o.toNat) = true
  · left
    rw [if_pos h3]
    simp only [Bool.and_eq_true, busy_iff] at h3
    exact ⟨trivial, trivial, h3.1, h3.2, rfl⟩
  right
  rw [if_neg h3]
  have h4 : s.phase = .idle ∨ isGuardedAt o.toNat = false := by
    rw [← not_busy_iff]
    simpa [Bool.and_eq_true, Classical.or_iff_not_imp_left] using h3
  refine ⟨trivial, trivial, h4, ?_⟩
  have hidle : isGuardedAt o.toNat = true → s.phase = .idle := by
    rintro h; rcases h4 with h4 | h4
    · exact h4
    · rw [h] at h4; cases h4
  cases hr : regionOf o.toNat with
  | regs =>
    left
    obtain ⟨rfl, r, hreg⟩ := accessOk_reg h2 hr
    exact ⟨rfl, r, (regAt_iff _ _).1 hreg, by simp [hreg]⟩
  | pixout => right; left; exact ⟨rfl, rfl⟩
  | hashbuf => right; right; exact ⟨.inl rfl, hidle (by simp [isGuardedAt, hr]), rfl⟩
  | pixin => right; right; exact ⟨.inr rfl, hidle (by simp [isGuardedAt, hr]), rfl⟩
  | reserved => exact absurd hr (accessOk_fits h2).2.1

/-- A write to a guarded register that takes effect comes while the sequencer is idle. -/
theorem offerCommand_idle {s : State} (h : s.phase = .idle) (v : Word) :
    s.offerCommand v = s.accept v := by
  simp [State.offerCommand, (not_busy_iff s).2 h]

/-! ### An access leaves the host to its own step -/

@[simp] theorem memRead_host (s : State) (o : Offset) (n : Nat) :
    (memRead s o n).1.host = s.host := by
  rcases memRead_cases s o n with ⟨-, e⟩ | ⟨-, -, -, -, e⟩ | ⟨-, -, -, e⟩ <;> rw [e]

@[simp] theorem memWrite_host (s : State) (o : Offset) (n : Nat) (v : Word) :
    (memWrite s o n v).1.host = s.host := by
  rcases memWrite_cases s o n v with ⟨-, e⟩ | ⟨-, -, -, -, e⟩ |
    ⟨-, -, -, ⟨-, r, -, e⟩ | ⟨-, e⟩ | ⟨-, -, e⟩⟩ <;> rw [e]
  · rfl
  · cases r <;> simp only [writeReg]
    · unfold State.offerCommand
      split <;> rfl
    · rfl

end Sys2Proof.Machine
end

