-- ==== Sys2Proof/Laws/Wire.lean ====
section
/-! SUPPORT. The wire format: what the scan lists, how long the packed parts are, what stands where in
them, and that the header words give their fields back. -/

namespace Sys2Proof.Machine

/-! ### Scan -/

theorem mem_takeWhile_range {p : Nat → Bool} (hp : ∀ a b, a ≤ b → p b = true → p a = true)
    (n k : Nat) : k ∈ (List.range n).takeWhile p ↔ k < n ∧ p k = true := by
  induction n with
  | zero => simp
  | succ n ih =>
    rw [List.range_succ, List.takeWhile_append]
    by_cases hall : ((List.range n).takeWhile p).length = (List.range n).length
    · rw [if_pos hall]
      have hmem : ∀ j < n, p j = true := by
        have he : (List.range n).takeWhile p = List.range n :=
          (List.takeWhile_prefix p).eq_of_length hall
        intro j hj
        have hj' := List.mem_range.2 hj
        rw [← he] at hj'
        exact List.mem_takeWhile_imp hj'
      by_cases hn : p n = true
      · simp only [List.takeWhile_cons, hn, List.takeWhile_nil, List.mem_append, List.mem_range,
          List.mem_singleton, if_true]
        constructor
        · rintro (h | rfl)
          · exact ⟨by omega, hmem k h⟩
          · exact ⟨by omega, hn⟩
        · rintro ⟨h, -⟩; omega
      · simp only [List.takeWhile_cons, hn, List.mem_append, List.mem_range]
        constructor
        · rintro (h | h)
          · exact ⟨by omega, hmem k h⟩
          · simp at h
        · rintro ⟨h, hk⟩
          left
          rcases Nat.lt_or_ge k n with h' | h'
          · exact h'
          · exact absurd (hp n k (by omega) hk) hn
    · rw [if_neg hall, ih]
      constructor
      · rintro ⟨h, hk⟩; exact ⟨by omega, hk⟩
      · rintro ⟨h, hk⟩
        refine ⟨?_, hk⟩
        rcases Nat.lt_or_ge k n with h' | h'
        · exact h'
        · exfalso
          apply hall
          have he : (List.range n).takeWhile p = List.range n := by
            rw [List.takeWhile_eq_self_iff]
            intro j hj
            exact hp j k (by have := List.mem_range.1 hj; omega) hk
          rw [he]

/-- R111's `while` stops before nx. -/
theorem scan_row (nx ny cy cx : Nat) :
    cx ∈ (List.range nx).takeWhile (fun cx => decide (cx * ny < nx * (ny - cy))) ↔
      cx < nx ∧ cx * ny < nx * (ny - cy) := by
  rw [mem_takeWhile_range]
  · simp
  · intro a b hab hb
    simp only [decide_eq_true_eq] at hb ⊢
    exact lt_of_le_of_lt (Nat.mul_le_mul_right _ hab) hb

theorem acScan_length (nx ny : Nat) : (acScan nx ny).length = nac nx ny := by
  simp [acScan, nac]

/-! ### Packing -/

@[simp] theorem headerBytesOf_length (h : Header) : (headerBytesOf h).length = 5 := rfl

theorem alphaBytesOf_length {h : Header} (hw : headerWellFormed h = true) :
    (headerBytesOf h ++ alphaBytesOf h).length = Config.headerBytes h.hasAlpha := by
  simp only [headerWellFormed, beq_iff_eq] at hw
  unfold alphaBytesOf Config.headerBytes
  cases ha : h.alpha <;> simp [ha] at hw <;> simp [← hw]

/-- Both packer states emit a byte for two nibbles, the last byte for one. -/
theorem packNibbles_length (nib : List Nibble) :
    (packNibbles .empty nib).length = (nib.length + 1) / 2 ∧
      ∀ b, (packNibbles (.pendingLowNibble b) nib).length = nib.length / 2 + 1 := by
  induction nib with
  | nil => simp [packNibbles]
  | cons n rest ih =>
    refine ⟨?_, fun b => ?_⟩
    · rw [packNibbles, ih.2]; simp only [List.length_cons]; omega
    · rw [packNibbles, List.length_cons, ih.1]; simp only [List.length_cons]

theorem nibblePair_low (lo hi : Nibble) : (nibblePair lo hi).setWidth 4 = lo := by
  ext i _
  simp [nibblePair]

theorem nibblePair_high (lo hi : Nibble) : ((nibblePair lo hi) >>> 4).setWidth 4 = hi := by
  ext i hi'
  have h1 : 4 + i < 8 := by omega
  simp [nibblePair, h1, hi']

theorem nibbleAt_cons (b : Byte) (bs : List Byte) (start k : Nat) :
    nibbleAt (b :: bs) (start + 1) k = nibbleAt bs start k := by
  have : start + 1 + k / 2 = start + k / 2 + 1 := by omega
  simp only [nibbleAt, this, List.getD_cons_succ]

/-- Nibble k + 2 of a stream is nibble k of the stream without its first byte. -/
theorem nibbleAt_add_two (b : Byte) (bs : List Byte) (k : Nat) :
    nibbleAt (b :: bs) 0 (k + 2) = nibbleAt bs 0 k := by
  have h1 : 0 + (k + 2) / 2 = k / 2 + 1 := by omega
  have h2 : (k + 2) % 2 = k % 2 := by omega
  have h3 : 0 + k / 2 = k / 2 := by omega
  simp only [nibbleAt, h1, h2, h3, List.getD_cons_succ]

theorem nibbleAt_append (pre bs : List Byte) (k : Nat) :
    nibbleAt (pre ++ bs) pre.length k = nibbleAt bs 0 k := by
  induction pre with
  | nil => rfl
  | cons b pre ih => rw [List.cons_append, List.length_cons, nibbleAt_cons, ih]

/-- Reading back what the packer emitted, with any bytes after it. -/
theorem nibbleAt_packNibbles (nib : List Nibble) (extra : List Byte) :
    ∀ k < nib.length, nibbleAt (packNibbles .empty nib ++ extra) 0 k = nib.getD k 0 := by
  induction nib using List.twoStepInduction with
  | nil => simp
  | singleton n =>
    intro k hk
    have : k = 0 := by simpa using hk
    subst this
    simpa [nibbleAt, packNibbles] using nibblePair_low n 0
  | cons_cons n n' rest ih _ =>
    intro k hk
    have hp : packNibbles .empty (n :: n' :: rest) = nibblePair n n' :: packNibbles .empty rest :=
      rfl
    rw [hp, List.cons_append]
    match k with
    | 0 => simpa [nibbleAt] using nibblePair_low n n'
    | 1 => simpa [nibbleAt] using nibblePair_high n n'
    | k + 2 =>
      rw [nibbleAt_add_two, ih k (by simp only [List.length_cons] at hk; omega)]
      rfl

/-! ### The header words -/

theorem h24_bytes (w : BitVec 24) :
    h24FromBytes (w.extractLsb' 0 8) (w.extractLsb' 8 8) (w.extractLsb' 16 8) = w := by
  ext i hi
  simp only [h24FromBytes, BitVec.getElem_or, BitVec.getElem_shiftLeft, BitVec.getElem_setWidth,
    BitVec.getLsbD_extractLsb']
  rcases Nat.lt_or_ge i 8 with h | h
  · simp [h, show i < 16 by omega, hi]
  · rcases Nat.lt_or_ge i 16 with h' | h'
    · simp [h', show ¬i < 8 by omega, show i - 8 < 8 by omega, show 8 + (i - 8) = i by omega, hi]
    · simp [show ¬i < 8 by omega, show ¬i < 16 by omega, show ¬i - 8 < 8 by omega,
        show i - 16 < 8 by omega, show 16 + (i - 16) = i by omega, hi]

theorem h16_bytes (w : BitVec 16) :
    h16FromBytes (w.extractLsb' 0 8) (w.extractLsb' 8 8) = w := by
  ext i hi
  simp only [h16FromBytes, BitVec.getElem_or, BitVec.getElem_shiftLeft, BitVec.getElem_setWidth,
    BitVec.getLsbD_extractLsb']
  rcases Nat.lt_or_ge i 8 with h | h
  · simp [h, hi]
  · simp [show ¬i < 8 by omega, show i - 8 < 8 by omega, show 8 + (i - 8) = i by omega, hi]

theorem alphaField_byte (a : AlphaField) : alphaFieldOf (alphaByteOf a) = a := by
  obtain ⟨d, s⟩ := a
  simp only [alphaFieldOf, alphaByteOf, AlphaField.mk.injEq]
  constructor
  · exact nibblePair_low d s
  · ext i hi
    have h1 : 4 + i < 8 := by omega
    simp [h1, hi]

/-- The header words hold every field but the alpha byte's. -/
theorem fields_of_words (h : Header) :
    fieldsOf (h24Of h) (h16Of h) = { h with alpha := none } := by
  obtain ⟨a, b, c, d, e, f, g, i, j, k⟩ := h
  simp only [fieldsOf, Header.mk.injEq]
  refine ⟨?_, ?_, ?_, ?_, ?_, ?_, ?_, ?_, ?_, trivial⟩
  case refine_5 => simp [h24Of]
  case refine_9 => simp [h16Of]
  all_goals
    ext n hn
    simp only [h24Of, h16Of, BitVec.getElem_extractLsb', BitVec.getLsbD_or,
      BitVec.getLsbD_shiftLeft, BitVec.getLsbD_setWidth]
    interval_cases n <;> simp

/-- The fixed header of a packed hash. -/
theorem unpackFixed_pack (h : Header) (nib : List Nibble) (extra : List Byte) :
    unpackFixed (pack h nib ++ extra) = .ok { h with alpha := none } := by
  unfold unpackFixed
  rw [if_neg (by simp [pack])]
  simp only [pack, headerBytesOf, List.cons_append, List.getD_cons_zero, List.getD_cons_succ,
    h24_bytes, h16_bytes, fields_of_words]

/-- The length of a packed hash. -/
theorem pack_length {h : Header} (hw : headerWellFormed h = true) (nib : List Nibble) :
    (pack h nib).length = Config.headerBytes h.hasAlpha + (nib.length + 1) / 2 := by
  unfold pack
  rw [List.length_append, alphaBytesOf_length hw, (packNibbles_length nib).1]

/-! ### Unpacking -/

/-- A list of at least n bytes and the same list with bytes after it agree below n. -/
theorem getD_append_left (hb extra : List Byte) {i : Nat} (h : i < hb.length) :
    (hb ++ extra).getD i 0 = hb.getD i 0 := by
  simp [List.getD_eq_getElem?_getD, List.getElem?_append_left h]

/-- The fixed header is a function of the first five bytes. -/
theorem unpackFixed_congr {hb hb' : List Byte} (hl : 5 ≤ hb.length) (hl' : 5 ≤ hb'.length)
    (h : ∀ i < 5, hb'.getD i 0 = hb.getD i 0) : unpackFixed hb' = unpackFixed hb := by
  unfold unpackFixed
  rw [if_neg (by omega), if_neg (by omega), h 0 (by omega), h 1 (by omega), h 2 (by omega),
    h 3 (by omega), h 4 (by omega)]

/-- What reading the header can give: TooShort, or the fields of the first five bytes with the alpha
byte when has_alpha = 1. -/
theorem unpackHeader_cases (hb : List Byte) :
    (unpackHeader hb = .error .tooShort ∧
      (hb.length < 5 ∨ (hb.length < 6 ∧ ∃ h, unpackFixed hb = .ok h ∧ h.hasAlpha = true))) ∨
    (∃ h, unpackFixed hb = .ok h ∧ 5 ≤ hb.length ∧ h.alpha = none ∧
      ((h.hasAlpha = false ∧ unpackHeader hb = .ok h) ∨
        (h.hasAlpha = true ∧ 6 ≤ hb.length ∧
          unpackHeader hb = .ok { h with alpha := some (alphaFieldOf (hb.getD 5 0)) }))) := by
  unfold unpackHeader
  by_cases h5 : hb.length < 5
  · left
    simp [unpackFixed, h5]
  · obtain ⟨h, hh, ha⟩ : ∃ h, unpackFixed hb = .ok h ∧ h.alpha = none := by
      simp [unpackFixed, h5, fieldsOf]
    simp only [hh, unpackAlpha]
    by_cases hA : h.hasAlpha = true
    · by_cases h6 : hb.length < 6
      · left; exact ⟨by simp [hA, h6], .inr ⟨h6, h, rfl, hA⟩⟩
      · right; exact ⟨h, rfl, by omega, ha, .inr ⟨hA, by omega, by simp [hA, h6]⟩⟩
    · right
      exact ⟨h, rfl, by omega, ha, .inl ⟨by simpa using hA, by simp [hA]⟩⟩

end Sys2Proof.Machine
end

