-- ==== Sys2Proof/Laws/Commands.lean ====
section
/-! SUPPORT. Everything a completion step can do: what reading a hash can give, and the next states of
the five commands. A proof cites `exec_cases` and unfolds no meaning. -/

namespace Sys2Proof.Machine

/-! ### Reading a hash -/

/-- The header fields of the first five bytes of a list. -/
theorem unpackFixed_ok {hb : List Byte} (h : 5 ≤ hb.length) :
    unpackFixed hb = .ok (fieldsOf (h24FromBytes (hb.getD 0 0) (hb.getD 1 0) (hb.getD 2 0))
      (h16FromBytes (hb.getD 3 0) (hb.getD 4 0))) := by
  unfold unpackFixed
  rw [if_neg (by omega)]

theorem unpackFixed_tooShort {hb : List Byte} (h : hb.length < 5) :
    unpackFixed hb = .error .tooShort := by
  unfold unpackFixed
  rw [if_pos h]

/-- What the aspect-ratio peek can give. -/
theorem aspectRatio_cases (hb : List Byte) :
    (hb.length < 5 ∧ aspectRatio hb = .error .tooShort) ∨
      (5 ≤ hb.length ∧ ∃ h, unpackFixed hb = .ok h ∧ aspectRatio hb = .ok (ratioOf h)) := by
  rcases Nat.lt_or_ge hb.length 5 with h | h
  · left; simp [aspectRatio, unpackFixed_tooShort h, h]
  · right; simp [aspectRatio, unpackFixed_ok h, h]

/-- The aspect ratio of a header does not depend on its alpha byte. -/
theorem ratioOf_alpha (h : Header) (a : Option AlphaField) :
    ratioOf { h with alpha := a } = ratioOf h := rfl

/-- The average colour of a header. -/
def averageOf (h : Header) : Rgba :=
  let c := inverseLpq (deqLDc h.lDc) (deqPqDc h.pDc) (deqPqDc h.qDc)
  ⟨clamp01 c.1, clamp01 c.2.1, clamp01 c.2.2, alphaDcOf h⟩

/-- What the average-colour peek can give. -/
theorem averageFromHash_cases (hb : List Byte) :
    (unpackHeader hb = .error .tooShort ∧ averageFromHash hb = .error .tooShort) ∨
      ∃ h, unpackHeader hb = .ok h ∧ averageFromHash hb = .ok (averageOf h) := by
  rcases unpackHeader_cases hb with ⟨h, -⟩ | ⟨h, -, -, -, ⟨-, h'⟩ | ⟨-, -, h'⟩⟩
  · left; simp [averageFromHash, h]
  · right; exact ⟨h, h', by simp [averageFromHash, h', averageOf]⟩
  · right; exact ⟨_, h', by simp [averageFromHash, h', averageOf]⟩

/-- The nibbles of a hash that is long enough for them. -/
def nibblesAt (hb : List Byte) (h : Header) : List Nibble :=
  (List.range (nTotalOf h.hasAlpha (lGridOf h))).map (nibbleAt hb (Config.headerBytes h.hasAlpha))

/-- The header's fixed fields, when the whole header reads. -/
theorem unpackFixed_of_header {hb : List Byte} {h : Header} (hh : unpackHeader hb = .ok h) :
    5 ≤ hb.length ∧ unpackFixed hb = .ok { h with alpha := none } := by
  rcases unpackHeader_cases hb with ⟨e, -⟩ | ⟨h', hf, h5, ha, ⟨-, e⟩ | ⟨-, -, e⟩⟩
  · rw [e] at hh; cases hh
  · rw [e] at hh; cases hh
    refine ⟨h5, ?_⟩
    rw [hf, ← ha]
  · rw [e] at hh; cases hh
    refine ⟨h5, ?_⟩
    rw [hf, ← ha]

/-- What decoding a hash can give. -/
theorem decodeHash_cases (cos : F32 → F32) (hb : List Byte) :
    (unpackHeader hb = .error .tooShort ∧ decodeHash cos hb = .error .tooShort) ∨
    (∃ h, unpackHeader hb = .ok h ∧ hb.length < hashLenOf h ∧
      decodeHash cos hb = .error .tooShort) ∨
    (∃ h im, unpackHeader hb = .ok h ∧ hashLenOf h ≤ hb.length ∧ decodeHash cos hb = .ok im ∧
      outputSize (ratioOf h) = (im.w, im.h) ∧
      im.rgba = inverseDct cos (dequantize h (nibblesAt hb h)) im.w im.h) := by
  cases hh : unpackHeader hb with
  | error e =>
    left
    rcases unpackHeader_cases hb with ⟨e', -⟩ | ⟨_, -, -, -, ⟨-, e'⟩ | ⟨-, -, e'⟩⟩
    · rw [e'] at hh; cases hh
      refine ⟨rfl, ?_⟩
      rcases aspectRatio_cases hb with ⟨-, ha⟩ | ⟨-, h, -, ha⟩ <;> simp [decodeHash, ha, e']
    · rw [e'] at hh; cases hh
    · rw [e'] at hh; cases hh
  | ok h =>
    right
    obtain ⟨h5, hf⟩ := unpackFixed_of_header hh
    have ha : aspectRatio hb = .ok (ratioOf h) := by simp [aspectRatio, hf, ratioOf_alpha]
    rcases Nat.lt_or_ge hb.length (hashLenOf h) with hl | hl
    · left; exact ⟨h, rfl, hl, by simp [decodeHash, ha, hh, unpackAc, hl]⟩
    · right
      have hd : ∀ size, outputSize (ratioOf h) = size → decodeHash cos hb =
          .ok ⟨size.1, size.2, inverseDct cos (dequantize h (nibblesAt hb h)) size.1 size.2⟩ := by
        intro size hs
        subst hs
        simp only [decodeHash, ha, hh, unpackAc, if_neg (Nat.not_lt.2 hl), nibblesAt]
      obtain ⟨size, hs⟩ : ∃ size, outputSize (ratioOf h) = size := ⟨_, rfl⟩
      exact ⟨h, _, rfl, hl, hd size hs, hs, rfl⟩

/-! ### The commands -/

@[simp] theorem codeOf_ne_ok (e : CmdError) : codeOf e ≠ .ok := by cases e <;> decide

@[simp] theorem finish_ok (s s' : State) : s.finish (.ok s') = s'.complete .ok := rfl
@[simp] theorem finish_error (s : State) (e : CmdError) : s.finish (.error e) = s.takeError e := rfl

/-- R142's preconditions. -/
theorem contractOk_iff (w h n : Nat) :
    contractOk w h n = true ↔ w ≤ 100 ∧ h ≤ 100 ∧ w ≠ 0 ∧ h ≠ 0 ∧ n = w * h * 4 := by
  simp only [contractOk, Bool.and_eq_true, decide_eq_true_eq, and_assoc]
  rfl

/-- What a command can do: take an error, or write its outputs and complete with OK. -/
theorem exec_cases {i : Instr} {s t : State} (h : exec i s = .next t) :
    (i = .nop ∧ t = s.complete .ok) ∨
    (i = .encode ∧ contractOk (imgWOf s) (imgHOf s) (inLenOf s) = false ∧
      t = s.takeError .contractViolation) ∨
    (i = .encode ∧ contractOk (imgWOf s) (imgHOf s) (inLenOf s) = true ∧
      t = (s.writeHash (encodeHash Config.cos32 (imgWOf s) (imgHOf s)
        (pixelOperand s))).complete .ok) ∨
    (i = .decode ∧ decodeHash Config.cos32 (hashOperand s) = .error .tooShort ∧
      t = s.takeError .tooShort) ∨
    (i = .decode ∧ ∃ im, decodeHash Config.cos32 (hashOperand s) = .ok im ∧
      t = (s.writeImage im.w im.h im.rgba).complete .ok) ∨
    (i = .averageColor ∧ averageFromHash (hashOperand s) = .error .tooShort ∧
      t = s.takeError .tooShort) ∨
    (i = .averageColor ∧ ∃ c, averageFromHash (hashOperand s) = .ok c ∧
      t = (s.writeAverage c.r c.g c.b c.a).complete .ok) ∨
    (i = .aspectRatio ∧ aspectRatio (hashOperand s) = .error .tooShort ∧
      t = s.takeError .tooShort) ∨
    (i = .aspectRatio ∧ ∃ r, aspectRatio (hashOperand s) = .ok r ∧
      t = (s.writeAspect r).complete .ok) := by
  cases i with
  | nop =>
    left
    simp only [exec, execNop, finish_ok, Host.Outcome.next.injEq] at h
    exact ⟨rfl, h.symm⟩
  | encode =>
    simp only [exec, execEncode, Host.Outcome.next.injEq] at h
    subst h
    cases hc : contractOk (imgWOf s) (imgHOf s) (inLenOf s) <;> simp
  | decode =>
    simp only [exec, execDecode, Host.Outcome.next.injEq] at h
    subst h
    have he : ∀ e, decodeHash Config.cos32 (hashOperand s) = .error e → e = .tooShort := by
      intro e h
      rcases decodeHash_cases Config.cos32 (hashOperand s) with
        ⟨-, h'⟩ | ⟨_, -, -, h'⟩ | ⟨_, _, -, -, h', -⟩ <;> rw [h'] at h <;> cases h <;> rfl
    cases hd : decodeHash Config.cos32 (hashOperand s) with
    | error e => cases he e hd; simp
    | ok im => simp
  | averageColor =>
    simp only [exec, execAverageColor, Host.Outcome.next.injEq] at h
    subst h
    rcases averageFromHash_cases (hashOperand s) with ⟨-, e⟩ | ⟨_, -, e⟩ <;> simp [e]
  | aspectRatio =>
    simp only [exec, execAspectRatio, Host.Outcome.next.injEq] at h
    subst h
    rcases aspectRatio_cases (hashOperand s) with ⟨-, e⟩ | ⟨-, _, -, e⟩ <;> simp [e]

/-- Every command answers a next state. -/
theorem exec_next (i : Instr) (s : State) : ∃ t, exec i s = .next t := by
  cases i <;> exact ⟨_, rfl⟩

/-! ### The operands -/

@[simp] theorem hashOperand_length (s : State) : (hashOperand s).length = s.hashLen.toNat := by
  simp [hashOperand]

theorem hashOperand_getD {s : State} {i : Nat} (h : i < s.hashLen.toNat) :
    (hashOperand s).getD i 0 = s.readByte (0x100 + i) :=
  readBytes_getD s _ _ _ h

end Sys2Proof.Machine
end

