-- ==== Sys2Proof/Laws/Float.lean ====
section
/-! SUPPORT. Rounding: the magnitude patterns are ordered as the values they stand for, the rounded
pattern is one of the two that bracket the exact value, and so rounding is monotone and exact on the
numbers of the format. -/

namespace Sys2Proof.Machine

/-! ### Magnitude patterns and their values -/

theorem magUnits_small {m : Nat} (h : m < 2 ^ 24) : magUnits m = m := by
  unfold magUnits
  split
  · next h0 => omega
  · next h0 =>
    have h1 : m / 2 ^ 23 = 1 := by omega
    rw [h1]; norm_num; omega

/-- The pattern with `e` binades and significand `m` stands for `m * 2^e` units. -/
theorem magUnits_scaled {e m : Nat} (hlo : e = 0 ∨ 2 ^ 23 ≤ m) (hhi : m ≤ 2 ^ 24) :
    magUnits (e * 2 ^ 23 + m) = m * 2 ^ e := by
  rcases Nat.lt_or_ge m (2 ^ 23) with hm | hm
  · have he : e = 0 := by omega
    subst he
    rw [magUnits_small (by omega)]; simp
  · rcases Nat.lt_or_ge m (2 ^ 24) with hm' | hm'
    · have hd : (e * 2 ^ 23 + m) / 2 ^ 23 = e + 1 := by omega
      have hr : (e * 2 ^ 23 + m) % 2 ^ 23 = m - 2 ^ 23 := by omega
      unfold magUnits
      rw [hd, hr, if_neg (by omega), Nat.add_sub_cancel, Nat.add_sub_cancel' hm]
    · have hm2 : m = 2 ^ 24 := by omega
      have hd : (e * 2 ^ 23 + m) / 2 ^ 23 = e + 2 := by omega
      have hr : (e * 2 ^ 23 + m) % 2 ^ 23 = 0 := by omega
      unfold magUnits
      rw [hd, hr, if_neg (by omega), hm2]
      have : e + 2 - 1 = e + 1 := by omega
      rw [this, Nat.pow_succ 2 e]; ring

theorem magUnits_lt_succ (m : Nat) : magUnits m < magUnits (m + 1) := by
  rcases Nat.lt_or_ge m (2 ^ 23) with h | h
  · rw [magUnits_small (by omega), magUnits_small (by omega)]; omega
  · obtain ⟨e, f, hf, rfl⟩ : ∃ e f, f < 2 ^ 23 ∧ m = e * 2 ^ 23 + (2 ^ 23 + f) :=
      ⟨m / 2 ^ 23 - 1, m % 2 ^ 23, Nat.mod_lt _ (by norm_num), by omega⟩
    rw [magUnits_scaled (.inr (by omega)) (by omega),
      Nat.add_assoc, magUnits_scaled (.inr (by omega)) (by omega)]
    exact Nat.mul_lt_mul_of_pos_right (by omega) (by positivity)

theorem magUnits_strictMono : StrictMono magUnits := strictMono_nat_of_lt_succ magUnits_lt_succ

@[simp] theorem magUnits_lt_iff {m n : Nat} : magUnits m < magUnits n ↔ m < n :=
  magUnits_strictMono.lt_iff_lt

@[simp] theorem magUnits_le_iff {m n : Nat} : magUnits m ≤ magUnits n ↔ m ≤ n :=
  magUnits_strictMono.le_iff_le

/-! ### The rounded pattern brackets the exact value -/

/-- What rounding can give: the pattern `lo` at or below the exact value, or the next one, which is
above it; the nearer of the two, and of two equally near the even one. -/
theorem roundMag_cases {num den : Nat} (hden : 0 < den) :
    ∃ lo, magUnits lo * den ≤ num ∧ num < magUnits (lo + 1) * den ∧
      ((roundMag num den = lo ∧ num - magUnits lo * den ≤ magUnits (lo + 1) * den - num ∧
          (num - magUnits lo * den = magUnits (lo + 1) * den - num → lo % 2 = 0)) ∨
        (roundMag num den = lo + 1 ∧
          magUnits (lo + 1) * den - num ≤ num - magUnits lo * den ∧
          (num - magUnits lo * den = magUnits (lo + 1) * den - num → (lo + 1) % 2 = 0))) := by
  obtain ⟨e, he⟩ : ∃ e, e = Nat.log2 (num / den) - 23 := ⟨_, rfl⟩
  obtain ⟨m, hm⟩ : ∃ m, m = num / (den * 2 ^ e) := ⟨_, rfl⟩
  have hdpos : 0 < den * 2 ^ e := by positivity
  have hq : m = num / den / 2 ^ e := by rw [hm, Nat.div_div_eq_div_mul]
  have hhi : m < 2 ^ 24 := by
    rw [hq]
    rcases Nat.eq_zero_or_pos (num / den) with h0 | h0
    · rw [h0]; simp
    · rw [Nat.div_lt_iff_lt_mul (by positivity), ← Nat.pow_add]
      have h1 : num / den < 2 ^ (Nat.log2 (num / den) + 1) := Nat.lt_log2_self
      exact lt_of_lt_of_le h1 (Nat.pow_le_pow_right (by norm_num) (by omega))
  have hlo : e = 0 ∨ 2 ^ 23 ≤ m := by
    rcases Nat.eq_zero_or_pos e with h0 | h0
    · exact .inl h0
    · right
      have hne : num / den ≠ 0 := by
        intro h; rw [h] at he; simp at he; omega
      rw [hq, Nat.le_div_iff_mul_le (by positivity), ← Nat.pow_add]
      have h1 : 2 ^ Nat.log2 (num / den) ≤ num / den := Nat.log2_self_le hne
      exact le_trans (Nat.pow_le_pow_right (by norm_num) (by omega)) h1
  have hmod := Nat.div_add_mod num (den * 2 ^ e)
  have hr := Nat.mod_lt num hdpos
  have u0 : magUnits (e * 2 ^ 23 + m) * den = den * 2 ^ e * m := by
    rw [magUnits_scaled hlo (by omega)]; ring
  have u1 : magUnits (e * 2 ^ 23 + m + 1) * den = den * 2 ^ e * m + den * 2 ^ e := by
    rw [Nat.add_assoc, magUnits_scaled (hlo.imp_right (by omega)) (by omega)]; ring
  have hdef : roundMag num den = e * 2 ^ 23 +
      (if den * 2 ^ e < 2 * (num % (den * 2 ^ e)) ∨
        (2 * (num % (den * 2 ^ e)) = den * 2 ^ e ∧ m % 2 = 1) then m + 1 else m) := by
    rw [hm, he]; rfl
  rw [← hm] at hmod
  have heven : (e * 2 ^ 23 + m) % 2 = m % 2 := by omega
  refine ⟨e * 2 ^ 23 + m, by rw [u0]; omega, by rw [u1]; omega, ?_⟩
  rw [hdef, u0, u1]
  split
  · next h => exact .inr ⟨by omega, by omega, by omega⟩
  · next h => exact .inl ⟨rfl, by omega, by omega⟩

/-- Rounding does not pass a number of the format from below. -/
theorem roundMag_le {num den M : Nat} (hden : 0 < den) (h : num ≤ magUnits M * den) :
    roundMag num den ≤ M := by
  obtain ⟨lo, h1, h2, h3⟩ := roundMag_cases (num := num) hden
  have hle : lo ≤ M := by
    rw [← magUnits_le_iff]
    exact Nat.le_of_mul_le_mul_right (h1.trans h) hden
  rcases h3 with ⟨h3, -, -⟩ | ⟨h3, h4, -⟩
  · omega
  · rcases Nat.lt_or_ge lo M with hlt | hge
    · omega
    · have : lo = M := by omega
      subst this
      omega

/-- Rounding does not pass a number of the format from above. -/
theorem le_roundMag {num den M : Nat} (hden : 0 < den) (h : magUnits M * den ≤ num) :
    M ≤ roundMag num den := by
  obtain ⟨lo, -, h2, h3⟩ := roundMag_cases (num := num) hden
  have hlt : M < lo + 1 := by
    rw [← magUnits_lt_iff]
    exact Nat.lt_of_mul_lt_mul_right (lt_of_le_of_lt h h2)
  rcases h3 with ⟨h3, -⟩ | ⟨h3, -⟩ <;> omega

/-- A number of the format is rounded to itself. -/
theorem roundMag_exact {den : Nat} (hden : 0 < den) (M : Nat) :
    roundMag (magUnits M * den) den = M :=
  Nat.le_antisymm (roundMag_le hden le_rfl) (le_roundMag hden le_rfl)

/-! ### Patterns -/

theorem fPack_toNat {neg : Bool} {m : Nat} (h : m < 2 ^ 31) :
    (fPack neg m).toNat = if neg then 2 ^ 31 + m else m := by
  cases neg
  · simp [fPack]; omega
  · simp [fPack]; omega

theorem fSign_eq (x : F32) : fSign x = decide (2 ^ 31 ≤ x.toNat) := by
  unfold fSign
  rw [← BitVec.msb_eq_getLsbD_last, BitVec.msb_eq_decide]

theorem fPack_mag {neg : Bool} {m : Nat} (h : m < 2 ^ 31) : fMag (fPack neg m) = m := by
  unfold fMag
  rw [fPack_toNat h]
  cases neg <;> simp <;> omega

theorem fPack_sign {neg : Bool} {m : Nat} (h : m < 2 ^ 31) : fSign (fPack neg m) = neg := by
  rw [fSign_eq, fPack_toNat h]
  cases neg
  · simpa using h
  · simp

theorem fMag_lt (x : F32) : fMag x < 2 ^ 31 := Nat.mod_lt _ (by norm_num)

/-- A pattern is its sign and its magnitude. -/
theorem fPack_eta (x : F32) : fPack (fSign x) (fMag x) = x := by
  apply BitVec.eq_of_toNat_eq
  have hx := x.isLt
  rw [fPack_toNat (fMag_lt x), fSign_eq]
  unfold fMag
  by_cases h : 2 ^ 31 ≤ x.toNat
  · rw [if_pos (by simpa using h)]; omega
  · rw [if_neg (by simpa using h)]; omega

theorem roundMag_min_lt (num den : Nat) : min (roundMag num den) infMag < 2 ^ 31 := by
  have : infMag < 2 ^ 31 := by decide
  omega

@[simp] theorem fRound_mag (neg : Bool) (num den : Nat) :
    fMag (fRound neg num den) = min (roundMag num den) infMag := fPack_mag (roundMag_min_lt _ _)

@[simp] theorem fRound_sign (neg : Bool) (num den : Nat) :
    fSign (fRound neg num den) = neg := fPack_sign (roundMag_min_lt _ _)

@[simp] theorem fRound_not_nan (neg : Bool) (num den : Nat) :
    fIsNaN (fRound neg num den) = false := by
  simp [fIsNaN]

theorem fRound_exact {neg : Bool} {den M : Nat} (hden : 0 < den) (hM : M ≤ infMag) :
    fRound neg (magUnits M * den) den = fPack neg M := by
  unfold fRound
  rw [roundMag_exact hden, Nat.min_eq_left hM]

/-- A natural number below 2^24 converts exactly (spec/00_scope.md R12). -/
theorem f32_units {n : Nat} (h : n < 2 ^ 24) :
    fSign (f32 n) = false ∧ fFinite (f32 n) ∧ fUnits (f32 n) = n * 2 ^ 149 := by
  have hmag : ∃ M, M < infMag ∧ magUnits M = n * 2 ^ 149 := by
    rcases Nat.eq_zero_or_pos n with h0 | h0
    · exact ⟨0, by decide, by subst h0; decide⟩
    · obtain ⟨k, hk⟩ : ∃ k, k = Nat.log2 n := ⟨_, rfl⟩
      have hk1 : 2 ^ k ≤ n := hk ▸ Nat.log2_self_le (by omega)
      have hk2 : n < 2 ^ (k + 1) := hk ▸ Nat.lt_log2_self
      have hk3 : k ≤ 23 := by
        by_contra hc
        have : 2 ^ 24 ≤ 2 ^ k := Nat.pow_le_pow_right (by norm_num) (by omega)
        omega
      have hp : 2 ^ k * 2 ^ (23 - k) = 2 ^ 23 := by rw [← Nat.pow_add]; congr 1; omega
      have hp' : 2 ^ (k + 1) * 2 ^ (23 - k) = 2 ^ 24 := by rw [← Nat.pow_add]; congr 1; omega
      refine ⟨(126 + k) * 2 ^ 23 + n * 2 ^ (23 - k), ?_, ?_⟩
      · have : n * 2 ^ (23 - k) < 2 ^ 24 := by
          rw [← hp']; exact Nat.mul_lt_mul_of_pos_right hk2 (by positivity)
        have hi : infMag = 255 * 2 ^ 23 := by decide
        omega
      · rw [magUnits_scaled, Nat.mul_assoc, ← Nat.pow_add]
        · congr 2; omega
        · right; rw [← hp]; exact Nat.mul_le_mul_right _ hk1
        · rw [← hp']; exact le_of_lt (Nat.mul_lt_mul_of_pos_right hk2 (by positivity))
  obtain ⟨M, hM, hu⟩ := hmag
  have he : f32 n = fPack false M := by
    have := fRound_exact (neg := false) (den := 1) (M := M) (by norm_num) (le_of_lt hM)
    rwa [hu, Nat.mul_one] at this
  have hM' : M < 2 ^ 31 := lt_trans hM (by decide)
  rw [he, fFinite, fUnits, fPack_mag hM', fPack_sign hM']
  exact ⟨rfl, hM, hu⟩

/-- A number of 2^23 or more is whole: a multiple of 2^149 units. -/
theorem whole_of_large {M : Nat} (h : 2 ^ 172 ≤ magUnits M) : magUnits M % 2 ^ 149 = 0 := by
  rcases Nat.lt_or_ge M (2 ^ 23) with hm | hm
  · rw [magUnits_small (by omega)] at h
    have : (2 : Nat) ^ 23 ≤ 2 ^ 172 := Nat.pow_le_pow_right (by norm_num) (by norm_num)
    omega
  · obtain ⟨e, f, hf, rfl⟩ : ∃ e f, f < 2 ^ 23 ∧ M = e * 2 ^ 23 + (2 ^ 23 + f) :=
      ⟨M / 2 ^ 23 - 1, M % 2 ^ 23, Nat.mod_lt _ (by norm_num), by omega⟩
    rw [magUnits_scaled (.inr (by omega)) (by omega)] at h ⊢
    have he : 149 ≤ e := by
      by_contra hc
      have h1 : 2 ^ e ≤ 2 ^ 148 := Nat.pow_le_pow_right (by norm_num) (by omega)
      have h2 : (2 ^ 23 + f) * 2 ^ e < 2 ^ 24 * 2 ^ 148 :=
        lt_of_lt_of_le (Nat.mul_lt_mul_of_pos_right (by omega) (by positivity))
          (Nat.mul_le_mul_left _ h1)
      rw [← Nat.pow_add] at h2
      exact absurd h2 (by omega)
    obtain ⟨k, rfl⟩ := Nat.exists_eq_add_of_le he
    rw [Nat.pow_add, Nat.mul_left_comm]
    exact Nat.mul_mod_right _ _

/-! ### The operations on finite numbers -/

theorem fIsNaN_of_finite {x : F32} (h : fFinite x) : fIsNaN x = false := by
  simp only [fIsNaN, fFinite, decide_eq_false_iff_not] at *; omega

theorem fIsInf_of_finite {x : F32} (h : fFinite x) : fIsInf x = false := by
  simp only [fIsInf, fFinite, beq_eq_false_iff_ne] at *; omega

theorem fIsZero_iff (x : F32) : fIsZero x = true ↔ fUnits x = 0 := by
  have h0 : magUnits 0 = 0 := by decide
  constructor
  · intro h
    simp only [fIsZero, beq_iff_eq] at h
    rw [fUnits, h, h0]
  · intro h
    simp only [fIsZero, beq_iff_eq]
    apply magUnits_strictMono.injective
    rw [h0]; exact h

/-- The sum of two numbers that are not negative is rounded once. -/
theorem fAdd_nonneg {x y : F32} (hx : fFinite x) (hy : fFinite y) (sx : fSign x = false)
    (sy : fSign y = false) : fAdd x y = fRound false (fUnits x + fUnits y) 1 := by
  unfold fAdd
  simp only [fIsNaN_of_finite hx, fIsNaN_of_finite hy, fIsInf_of_finite hx, fIsInf_of_finite hy,
    fInt, sx, sy, Bool.or_self, Bool.and_self, Bool.false_eq_true, if_false]
  have hn : ((fUnits x : Int) + fUnits y).natAbs = fUnits x + fUnits y := by omega
  by_cases h0 : (fUnits x : Int) + fUnits y = 0
  · have h1 : fUnits x + fUnits y = 0 := by omega
    rw [if_pos h0, h1]; decide
  · rw [if_neg h0, hn]
    congr 1

/-- A product of finite numbers is rounded once. -/
theorem fMul_finite {x y : F32} (hx : fFinite x) (hy : fFinite y) :
    fMul x y = fRound (fSign x != fSign y) (fUnits x * fUnits y) (2 ^ 149) := by
  simp [fMul, fIsNaN_of_finite hx, fIsNaN_of_finite hy, fIsInf_of_finite hx, fIsInf_of_finite hy]

/-- A quotient of finite numbers with a divisor that is not zero is rounded once. -/
theorem fDiv_finite {x y : F32} (hx : fFinite x) (hy : fFinite y) (h0 : fUnits y ≠ 0) :
    fDiv x y = fRound (fSign x != fSign y) (fUnits x * 2 ^ 149) (fUnits y) := by
  have hz : fIsZero y = false := by
    rw [← Bool.not_eq_true, fIsZero_iff]; exact h0
  simp [fDiv, fIsNaN_of_finite hx, fIsNaN_of_finite hy, fIsInf_of_finite hx, fIsInf_of_finite hy,
    hz]

/-- A result that is at most a number of the format is finite and at most that number. -/
theorem fRound_le_units {num den M : Nat} (neg : Bool) (hden : 0 < den) (hM : M < infMag)
    (h : num ≤ magUnits M * den) :
    fFinite (fRound neg num den) ∧ fUnits (fRound neg num den) ≤ magUnits M := by
  have h1 := roundMag_le hden h
  have h2 := fRound_mag neg num den
  constructor
  · unfold fFinite; omega
  · unfold fUnits; rw [magUnits_le_iff]; omega

/-- Each natural number below 2^24 has a pattern. -/
theorem whole_mag {n : Nat} (h : n < 2 ^ 24) : ∃ M, M < infMag ∧ magUnits M = n * 2 ^ 149 :=
  ⟨fMag (f32 n), (f32_units h).2.1, (f32_units h).2.2⟩

/-- Converting a natural number to binary32 and back. -/
theorem toU_f32_small {n : Nat} (h : n < 2 ^ 24) : toU 32 (f32 n) = n := by
  obtain ⟨c1, c2, c3⟩ := f32_units h
  unfold toU
  rw [fIsNaN_of_finite c2, fIsInf_of_finite c2, c1, c3, Nat.mul_div_cancel _ (by positivity)]
  by_cases hz : fIsZero (f32 n) = true
  · rw [hz]
    rw [fIsZero_iff, c3] at hz
    have : n = 0 := by
      rcases Nat.mul_eq_zero.1 hz with h0 | h0
      · exact h0
      · exact absurd h0 (by positivity)
    simp [this]
  · have hz' : fIsZero (f32 n) = false := by simpa using hz
    have hn : ¬ (2 ^ 32 - 1 ≤ n) := by omega
    rw [hz']
    simp only [Bool.or_self, Bool.false_eq_true, if_false, Bool.false_or, decide_eq_true_eq]
    rw [if_neg hn]

/-- R14 of a finite number that is not negative: the nearest natural number, halves upward. -/
theorem roundHA_finite {x : F32} (hf : fFinite x) (hs : fSign x = false) :
    roundHA x = f32 ((2 * fUnits x + 2 ^ 149) / 2 ^ 150) := by
  have e : ∀ n, fRound false (n * 2 ^ 149) 1 = f32 n := fun n => by rw [f32]
  unfold roundHA
  rw [fIsNaN_of_finite hf, fIsInf_of_finite hf, hs, Bool.or_self, if_neg Bool.false_ne_true, e]

/-- R180: an L grid dimension is 1 to l_limit. -/
theorem lGridDim_bounds {limit d m : Nat} (hl1 : 1 ≤ limit) (hl2 : limit ≤ 7) (hd : 1 ≤ d)
    (hdm : d ≤ m) (hm : m ≤ 100) : 1 ≤ lGridDim limit d m ∧ lGridDim limit d m ≤ limit := by
  have hLd : limit * d ≤ 7 * 100 := Nat.mul_le_mul hl2 (by omega)
  have hm0 : 0 < m := by omega
  obtain ⟨a1, a2, a3⟩ := f32_units (n := limit * d) (by omega)
  obtain ⟨b1, b2, b3⟩ := f32_units (n := m) (by omega)
  have hpos : 0 < fUnits (f32 m) := by rw [b3]; positivity
  obtain ⟨M, hM, hu⟩ := whole_mag (n := limit) (by omega)
  have hle : fUnits (f32 (limit * d)) * 2 ^ 149 ≤ magUnits M * fUnits (f32 m) := by
    rw [hu, a3, b3]
    calc limit * d * 2 ^ 149 * 2 ^ 149 ≤ limit * m * 2 ^ 149 * 2 ^ 149 := by gcongr
      _ = _ := by ring
  obtain ⟨q1, q2⟩ := fRound_le_units false hpos hM hle
  have hq : fDiv (f32 (limit * d)) (f32 m) =
      fRound false (fUnits (f32 (limit * d)) * 2 ^ 149) (fUnits (f32 m)) := by
    rw [fDiv_finite a2 b2 (by omega), a1, b1, bne_self_eq_false]
  rw [hu] at q2
  have hr : roundHA (fDiv (f32 (limit * d)) (f32 m)) =
      f32 ((2 * fUnits (fDiv (f32 (limit * d)) (f32 m)) + 2 ^ 149) / 2 ^ 150) := by
    rw [roundHA_finite (by rw [hq]; exact q1) (by rw [hq, fRound_sign])]
  have hn : (2 * fUnits (fDiv (f32 (limit * d)) (f32 m)) + 2 ^ 149) / 2 ^ 150 ≤ limit := by
    rw [hq]; omega
  have heq : lGridDim limit d m =
      max 1 ((2 * fUnits (fDiv (f32 (limit * d)) (f32 m)) + 2 ^ 149) / 2 ^ 150) := by
    unfold lGridDim
    rw [hr, toU_f32_small (by omega)]
  rw [heq]
  exact ⟨le_max_left _ _, max_le hl1 hn⟩

end Sys2Proof.Machine
end

