-- ==== Sys2Proof/Laws/Codec.lean ====
section
/-! SUPPORT. What the encoder makes and what the decoder needs of it: the lengths of its lists, the
form of its header, the sizes of decoded images, and that no conversion into a register field or a
header field loses a bit. -/

namespace Sys2Proof.Machine

/-! ### Conversions that lose nothing -/

/-- R15: the conversion to an N-bit natural fits N bits. -/
theorem toU_lt (n : Nat) (x : F32) : toU n x < 2 ^ n := by
  have hp : 0 < 2 ^ n := by positivity
  unfold toU
  split
  · exact hp
  · split
    · omega
    · next h =>
      simp only [Bool.or_eq_true, decide_eq_true_eq, not_or] at h
      omega

/-- R200: an N-bit field holds the whole of `toU_N`. -/
theorem qn_toNat (n : Nat) (x : F32) : (qn n x).toNat = toU n (roundHA x) := by
  unfold qn
  rw [BitVec.toNat_ofNat, Nat.mod_eq_of_lt (toU_lt _ _)]

/-- R166: an output byte holds the whole of `toU_8`. -/
theorem byte8_toNat (v : F32) : (byte8 v).toNat = toU 8 (fMul (f32 255) (clamp01 v)) := by
  unfold byte8
  rw [BitVec.toNat_ofNat, Nat.mod_eq_of_lt (toU_lt _ _)]

/-- R180, R209: the L grid dimensions fit the three bits of l_min. -/
theorem lGrid_bounds {w h : Nat} (hasAlpha : Bool) (hw : 1 ≤ w) (hw' : w ≤ 100) (hh : 1 ≤ h)
    (hh' : h ≤ 100) :
    (1 ≤ (lGrid w h hasAlpha).1 ∧ (lGrid w h hasAlpha).1 ≤ lMaxOf hasAlpha) ∧
      1 ≤ (lGrid w h hasAlpha).2 ∧ (lGrid w h hasAlpha).2 ≤ lMaxOf hasAlpha := by
  have hl : 1 ≤ lMaxOf hasAlpha ∧ lMaxOf hasAlpha ≤ 7 := by cases hasAlpha <;> decide
  exact ⟨lGridDim_bounds hl.1 hl.2 hw (Nat.le_max_left w h) (by omega),
    lGridDim_bounds hl.1 hl.2 hh (Nat.le_max_right w h) (by omega)⟩

/-- R40, R41, R280: the sizes of a decoded image fit OUT_W and OUT_H; one of them is 32. -/
theorem outputSize_bounds (h : Header) :
    (outputSize (ratioOf h)).1 ≤ 32 ∧ (outputSize (ratioOf h)).2 ≤ 32 ∧
      ((outputSize (ratioOf h)).1 = 32 ∨ (outputSize (ratioOf h)).2 = 32) := by
  have key : ∀ (a l : Bool) (m : BitVec 3),
      let g := if l then (lMaxOf a, m.toNat) else (m.toNat, lMaxOf a)
      let o := outputSize (fDiv (f32 g.1) (f32 g.2))
      o.1 ≤ 32 ∧ o.2 ≤ 32 ∧ (o.1 = 32 ∨ o.2 = 32) := by decide +kernel
  exact key h.hasAlpha h.isLandscape h.lMin

/-! ### The encoder's lists -/

/-- R186: normalising keeps the number of AC values. -/
theorem normalise_length (ac : List F32) (scale : F32) : (normalise ac scale).length = ac.length := by
  unfold normalise
  split <;> simp

/-- R184: a channel has one AC value for each scan entry after the first. -/
theorem encodeChannel_length (cos : F32 → F32) (ch : List F32) (w h nx ny : Nat) :
    (encodeChannel cos ch w h nx ny).ac.length = nac nx ny := by
  simp [encodeChannel, normalise_length, acList, acScan_length]

/-- R224: the encoder packs N_total nibbles. -/
theorem nibblesOf_length (cos : F32 → F32) (w h : Nat) (px : List Pixel) :
    (nibblesOf (transform cos w h px)).length =
      nTotalOf (transform cos w h px).hasAlpha (lGrid w h (transform cos w h px).hasAlpha) := by
  generalize he : transform cos w h px = e
  have hl : e.l.ac.length =
      nac (clampGrid (lGrid w h e.hasAlpha)).1 (clampGrid (lGrid w h e.hasAlpha)).2 := by
    rw [← he]; exact encodeChannel_length _ _ _ _ _ _
  have hp : e.p.ac.length = nac Config.pqGrid Config.pqGrid := by
    rw [← he]; exact encodeChannel_length _ _ _ _ _ _
  have hq : e.q.ac.length = nac Config.pqGrid Config.pqGrid := by
    rw [← he]; exact encodeChannel_length _ _ _ _ _ _
  have ha : e.a.ac.length = if e.hasAlpha then nac Config.aGrid Config.aGrid else 0 := by
    have h1 : e.a = if e.hasAlpha then
        encodeChannel cos ((planes (averageColour px) px).map Lpqa.a) w h Config.aGrid Config.aGrid
      else absentAlphaChannel := by rw [← he]; rfl
    rw [h1]
    split
    · exact encodeChannel_length _ _ _ _ _ _
    · rfl
  unfold nibblesOf nTotalOf
  simp only [List.length_map, List.length_append]
  rw [hl, hp, hq, ha]

/-- R107, R210: the header the encoder makes has its alpha byte exactly with alpha. -/
theorem headerOf_wellFormed (e : Encoded) (w h : Nat) :
    headerWellFormed (headerOf e w h) = true := by
  unfold headerWellFormed headerOf quantizeHeader
  cases e.hasAlpha <;> rfl

end Sys2Proof.Machine
end

