-- ==== Sys2Proof/Laws/PerInstr.lean ====
section
/-! SUPPORT. Facts about each command as syntax, one lemma per constructor of `Instr`. -/

namespace Sys2Proof.Laws

/-- R100, R101: the command word of a command has bits [31:8] 0 and an OPCODE of the map. -/
def EncodedWordIsWellFormed.Statement (i : Instr) : Prop := wordWellFormed (encode i) = true

theorem EncodedWordIsWellFormed.nop : EncodedWordIsWellFormed.Statement .nop := by
  unfold EncodedWordIsWellFormed.Statement; decide

theorem EncodedWordIsWellFormed.encode : EncodedWordIsWellFormed.Statement .encode := by
  unfold EncodedWordIsWellFormed.Statement; decide

theorem EncodedWordIsWellFormed.decode : EncodedWordIsWellFormed.Statement .decode := by
  unfold EncodedWordIsWellFormed.Statement; decide

theorem EncodedWordIsWellFormed.averageColor :
    EncodedWordIsWellFormed.Statement .averageColor := by
  unfold EncodedWordIsWellFormed.Statement; decide

theorem EncodedWordIsWellFormed.aspectRatio : EncodedWordIsWellFormed.Statement .aspectRatio := by
  unfold EncodedWordIsWellFormed.Statement; decide

end Sys2Proof.Laws
end

