-- ==== Sys2Proof/Laws/Step.lean ====
section
/-! SUPPORT. Everything a step can do: the completion step of the latched command word, or one
operation of the host with one bus cycle of latency. A proof cites `step_cases` and `hostStep_cases`
and unfolds neither. -/

namespace Sys2Proof.Machine

/-! ### The latched command word -/

/-- The four bytes of a word give the word back. -/
theorem wordOfBytes_wordBytes (w : Word) :
    ∃ b0 b1 b2 b3, wordBytes w = [b0, b1, b2, b3] ∧ wordOfBytes b0 b1 b2 b3 = w := by
  refine ⟨_, _, _, _, rfl, ?_⟩
  ext i hi
  simp only [wordOfBytes]
  interval_cases i <;> simp

/-- What takes the place of fetch decodes the latched word. -/
theorem fetchInstr_eq (s : State) : fetchInstr s = decodeWord s.oplatch := by
  obtain ⟨b0, b1, b2, b3, h1, h2⟩ := wordOfBytes_wordBytes s.oplatch
  unfold fetchInstr fetchBytes fetchWord
  rw [h1, decodeBytes, h2]
  cases decodeWord s.oplatch <;> rfl

/-- The decoder's answer by the opcode of a word whose bits [31:8] are 0. -/
theorem decodeWord_small {w : Word} (h : w.extractLsb' 8 24 = 0) :
    decodeWord w = decodeOpcode (w.extractLsb' 0 8) := by
  unfold decodeWord
  rw [if_pos h]

theorem coreTurn_iff (s : State) :
    coreTurn s = true ↔ s.phase = .busy ∧ s.rst = false ∧ s.wait = 0 := by
  simp [coreTurn, busy_iff, and_assoc]

/-! ### The step -/

/-- What a step can do. -/
theorem step_cases {s t : State} (h : step s = .next t) :
    (s.phase = .busy ∧ s.rst = false ∧ s.wait = 0 ∧
      ((∃ i, decodeWord s.oplatch = .ok i ∧ exec i s = .next t) ∨
        (∃ e, decodeWord s.oplatch = .error e ∧ t = s.takeError .illegalCommand))) ∨
    (¬(s.phase = .busy ∧ s.rst = false ∧ s.wait = 0) ∧ t = hostStep (tick s)) := by
  unfold step at h
  by_cases hc : coreTurn s = true
  · left
    rw [if_pos hc, fetchInstr_eq] at h
    obtain ⟨h1, h2, h3⟩ := (coreTurn_iff s).1 hc
    refine ⟨h1, h2, h3, ?_⟩
    cases hd : decodeWord s.oplatch with
    | ok i => left; rw [hd] at h; exact ⟨i, rfl, h⟩
    | error e =>
      right
      rw [hd] at h
      simp only [completeIllegal, Host.Outcome.next.injEq] at h
      exact ⟨e, rfl, h.symm⟩
  · right
    rw [if_neg hc] at h
    simp only [Host.Outcome.next.injEq] at h
    exact ⟨fun hh => hc ((coreTurn_iff s).2 hh), h.symm⟩

/-- Every step answers a next state. -/
theorem step_next (s : State) : ∃ t, step s = .next t := by
  unfold step
  split
  · split
    · exact exec_next _ s
    · exact ⟨_, rfl⟩
  · exact ⟨_, rfl⟩

/-- The step when the completion step is not due. -/
theorem step_host {s : State} (h : ¬(s.phase = .busy ∧ s.rst = false ∧ s.wait = 0)) :
    step s = .next (hostStep (tick s)) := by
  unfold step
  rw [if_neg (fun hc => h ((coreTurn_iff s).1 hc))]

/-! ### The host -/

/-- What one operation of the host does to the block: nothing, an advance of the draw counter, a
write on the bus, or a change of the reset input. -/
theorem hostOp_cases (s : State) (op : HostOp) :
    ∃ h : HostState,
      (hostOp s op = { s with host := h }) ∨
      (hostOp s op = { s with draws := s.draws + 1, host := h }) ∨
      (∃ a n v, hostOp s op = { (memWrite s a n v).1 with host := h }) ∨
      (op = .rst true ∧ hostOp s op = { s.assertReset with host := h }) ∨
      (op = .rst false ∧ hostOp s op = { s.releaseReset with host := h }) := by
  have writeCase : ∀ (s' : State) (r : BusResp),
      acknowledge s' r = { s' with host := advance { s'.host with resp := some r } } :=
    fun _ _ => rfl
  have readCase : ∀ a n x, ∃ h : HostState,
      receive (memRead s a n).1 x (memRead s a n).2 = { s with host := h } ∨
      receive (memRead s a n).1 x (memRead s a n).2 =
        { s with draws := s.draws + 1, host := h } := by
    intro a n x
    rcases memRead_cases s a n with ⟨-, e⟩ | ⟨-, -, -, -, e⟩ | ⟨-, -, -, e⟩ <;> rw [e]
    · exact ⟨_, .inl rfl⟩
    · exact ⟨_, .inr rfl⟩
    · exact ⟨_, .inl rfl⟩
  cases op with
  | read a n x =>
    obtain ⟨h, e | e⟩ := readCase a n x
    · exact ⟨h, .inl (by simpa only [hostOp] using e)⟩
    · exact ⟨h, .inr (.inl (by simpa only [hostOp] using e))⟩
  | write a n v =>
    simp only [hostOp, writeCase]
    exact ⟨_, .inr (.inr (.inl ⟨a, n, v, rfl⟩))⟩
  | readAddr addr n x =>
    simp only [hostOp]
    cases windowOffset addr with
    | none => exact ⟨_, .inr (.inl rfl)⟩
    | some a =>
      obtain ⟨h, e | e⟩ := readCase a n x
      · exact ⟨h, .inl (by simpa only [platformRead] using e)⟩
      · exact ⟨h, .inr (.inl (by simpa only [platformRead] using e))⟩
  | writeAddr addr n v =>
    simp only [hostOp]
    cases windowOffset addr with
    | none => exact ⟨_, .inr (.inl rfl)⟩
    | some a =>
      simp only [platformWrite, writeCase]
      exact ⟨_, .inr (.inr (.inl ⟨a, n, v, rfl⟩))⟩
  | label l => exact ⟨_, .inl rfl⟩
  | bnz x l =>
    simp only [hostOp]
    split <;> exact ⟨_, .inl rfl⟩
  | andImm x v => exact ⟨_, .inl rfl⟩
  | waitIrq =>
    simp only [hostOp]
    split
    · exact ⟨_, .inl rfl⟩
    · exact ⟨s.host, .inl rfl⟩
  | rst level =>
    cases level
    · exact ⟨advance s.host, .inr (.inr (.inr (.inr ⟨rfl, rfl⟩)))⟩
    · exact ⟨advance s.host, .inr (.inr (.inr (.inl ⟨rfl, rfl⟩)))⟩

/-- What the host's step does: its next operation, or nothing when its program has ended. -/
theorem hostStep_cases (s : State) :
    (s.host.prog[s.host.pc]? = none ∧ hostStep s = s) ∨
      ∃ op, op ∈ s.host.prog ∧ s.host.prog[s.host.pc]? = some op ∧ hostStep s = hostOp s op := by
  unfold hostStep
  cases h : s.host.prog[s.host.pc]? with
  | none => left; exact ⟨rfl, rfl⟩
  | some op => right; exact ⟨op, List.mem_of_getElem? h, rfl, rfl⟩

end Sys2Proof.Machine
end

