-- ==== Sys2Proof/Tests/Slice0.lean ====
section
/-! SUPPORT. Tests: ill-formed terms the checks refuse, words written out from the opcode map, one or
two vectors of spec/95_test_vectors.md for each command, and for each obligation with hypotheses a
state and operands that meet them. -/

namespace Sys2Proof.Tests

open Sys2Proof Sys2Proof.Machine

/-! ### States -/

/-- A hash in HASHBUF and its length in HASH_LEN. -/
def withHash (hash : List Byte) : State :=
  { State.reset with
    mem := storeBytes [] 0x100 hash
    hashLen := BitVec.ofNat 6 hash.length }

/-- A running command whose completion is due, for a latched word. -/
def due (s : State) (w : Word) : State := { s with phase := .busy, oplatch := w }

/-- The inputs of an ENCODE. -/
def withImage (w h : BitVec 16) (n : Word) : State :=
  { State.reset with imgW := w, imgH := h, inLen := n }

/-- The hash of V-ENC-1. -/
def hash1 : List Byte := [0x00, 0x08, 0x02, 0x07, 0x00] ++ List.replicate 19 0
/-- The hash of V-ENC-6, with alpha. -/
def hash6 : List Byte := [0x00, 0x08, 0x82, 0x05, 0x00, 0x00] ++ List.replicate 19 0

/-- The header of V-ENC-1. -/
def header1 : Header := ⟨0, 32, 32, 0, false, 7, 0, 0, false, none⟩
/-- The header of V-UP-2, with alpha. -/
def header6 : Header := ⟨0, 32, 32, 0, true, 5, 0, 0, false, some ⟨8, 8⟩⟩

/-- What a check says of the state an instruction gives. -/
def holdsAfter (o : Host.Outcome State Fault Refusal) (p : State → Bool) : Bool :=
  match o with
  | .next t => p t
  | .fault _ => false
  | .refused _ => false

theorem holdsAfter_next {o : Host.Outcome State Fault Refusal} {p : State → Bool}
    (h : holdsAfter o p = true) : ∃ t, o = .next t ∧ p t = true := by
  cases o with
  | next t => exact ⟨t, rfl, h⟩
  | fault r => cases h
  | refused r => cases h

/-! ### WellFormed refuses -/

theorem test_reserved_bits_refused : reservedBitsClear 0x00000101#32 = false := by decide
theorem test_reserved_opcode_refused : opcodeDefined 0x00000005#32 = false := by decide
theorem test_word_refused : wordWellFormed 0x80000001#32 = false := by decide
theorem test_header_without_alpha_byte_refused :
    headerWellFormed { header1 with hasAlpha := true } = false := by decide
theorem test_header_with_alpha_byte_refused :
    headerWellFormed { header6 with hasAlpha := false } = false := by decide
theorem test_label_twice_refused : labelsDistinct [.label 0, .label 0] = false := by decide
theorem test_label_missing_refused : targetsDefined [.label 0, .bnz 0 1] = false := by decide
theorem test_name_unset_refused : namesAssigned [] [.andImm 0 1] = false := by decide
theorem test_program_refused : programWellFormed [.bnz 0 1] = false := by decide
theorem test_wait_done_accepted : programWellFormed (waitDone 0 0) = true := by decide
theorem test_every_instruction_accepted :
    [Instr.nop, .encode, .decode, .averageColor, .aspectRatio].all Instr.wellFormed = true := by
  decide

/-! ### Decoding, from the bits of R100 and R101 -/

theorem test_decode_nop :
    decodeTableWord 32 0b00000000000000000000000000000000 = some .nop := by decide
theorem test_decode_encode :
    decodeTableWord 32 0b00000000000000000000000000000001 = some .encode := by decide
theorem test_decode_decode :
    decodeTableWord 32 0b00000000000000000000000000000010 = some .decode := by decide
theorem test_decode_average_color :
    decodeTableWord 32 0b00000000000000000000000000000011 = some .averageColor := by decide
theorem test_decode_aspect_ratio :
    decodeTableWord 32 0b00000000000000000000000000000100 = some .aspectRatio := by decide
/-- The bytes of a word lie least significant first (R78). -/
theorem test_decode_bytes :
    decodeBytes [0x03, 0x00, 0x00, 0x00, 0xAA] = .ok (.averageColor, [0xAA]) := by decide
theorem test_decode_rejects :
    decodeWord 0x05#32 = .error .reservedOpcode ∧ decodeWord 0x100#32 = .error .reservedBits ∧
      decodeBytes [0x01, 0x00, 0x00] = .error .tooFewBytes := by decide

/-! ### The commands -/

/-- V-ERR-7. -/
theorem test_nop : holdsAfter (step (State.reset.withFetchWord 32 0))
    (fun t => statusWord t == 0x2) = true := by decide
/-- V-ENC-1; the hash of a black pixel does not depend on the cosine unit. -/
theorem test_encode_black_pixel :
    encodeHash (fun _ => fOne) 1 1 [0x00, 0x00, 0x00, 0xFF] = hash1 := by decide +kernel
/-- R142: an image of 101 × 1. -/
theorem test_encode_too_wide : holdsAfter (exec .encode (withImage 101 1 404))
    (fun t => statusWord t == 0x22 && t.hashLen == 0) = true := by decide
/-- V-DEC-1, for one pixel of the image. -/
theorem test_decode_pixel :
    pixelBytes (fun _ => fOne) (fun _ => fOne)
      (dequantize header1 (List.replicate 37 0)) = [0x03, 0x00, 0x00, 0xFF] := by decide +kernel
/-- V-ERR-3: one byte short of HashLen. -/
theorem test_decode_too_short : holdsAfter (exec .decode (withHash (hash1.take 23)))
    (fun t => statusWord t == 0x12) = true := by decide +kernel
/-- V-AVG-4's alpha and V-AVG-3's colour: the fields of `D5 FB AB 03 FF 88`. -/
theorem test_average_color : holdsAfter
    (exec .averageColor (withHash [0xD5, 0xFB, 0xAB, 0x03, 0xFF, 0x88]))
    (fun t => t.avgR == 0x3F7F52A0 && t.avgG == 0 && t.avgB == 0x3BAD6000 &&
      t.avgA == 0x3F088889 && statusWord t == 0x2) = true := by decide +kernel
/-- V-ERR-2: five bytes with the alpha flag. -/
theorem test_average_color_too_short : holdsAfter
    (exec .averageColor (withHash [0x00, 0x08, 0x82, 0x05, 0x00]))
    (fun t => statusWord t == 0x12 && t.avgA == 0) = true := by decide +kernel
/-- V-ASP-1. -/
theorem test_aspect_ratio : holdsAfter
    (exec .aspectRatio (withHash [0xD5, 0xFB, 0x03, 0x04, 0x80]))
    (fun t => t.aspect == 0x3FE00000 && statusWord t == 0x2) = true := by decide +kernel
/-- V-ASP-2: a divisor of 0. -/
theorem test_aspect_ratio_infinite : holdsAfter
    (exec .aspectRatio (withHash [0x00, 0x08, 0x02, 0x00, 0x80]))
    (fun t => t.aspect == 0x7F800000) = true := by decide +kernel
/-- V-ERR-6. -/
theorem test_illegal_command : holdsAfter (step (State.reset.withFetchWord 32 0x101))
    (fun t => statusWord t == 0x32) = true := by decide
/-- V-BSY-1: a busy violation while NOP runs. -/
theorem test_busy_violation :
    let s := due State.reset 0
    (memWrite s 0x010 4 5).1.imgW = 0 ∧ statusWord (memWrite s 0x010 4 5).1 = 0x101 := by decide
/-- V-BUS-2. -/
theorem test_hashbuf_byte :
    ((memWrite State.reset 0x103 1 0xAB).1).readByte 0x103 = 0xAB := by decide +kernel

/-- V-ENC-10: the header bytes of fields that all differ. -/
theorem test_header_bytes :
    headerBytesOf ⟨30, 31, 32, 3, false, 7, 8, 16, false, none⟩ = [0xDE, 0x07, 0x0E, 0x47, 0x20] := by
  decide +kernel

/-! ### Witnesses: states and operands that meet the hypotheses of the obligations -/

/-- StepRunsLatchedCommand. -/
theorem witness_step_runs :
    ∀ i ∈ [Instr.nop, .encode, .decode, .averageColor, .aspectRatio],
      let s := due State.reset (encode i)
      s.phase = .busy ∧ s.rst = false ∧ s.wait = 0 ∧
        decodeBytes (wordBytes s.oplatch) = .ok (i, []) := by decide

/-- IllegalWordCompletes: the least and the greatest word of each clause. -/
theorem witness_illegal_word :
    ∀ w ∈ [0x100, 0x80000000, 0x5, 0xFF],
      let s := due State.reset (BitVec.ofNat 32 w)
      s.phase = .busy ∧ s.rst = false ∧ s.wait = 0 ∧
        (s.oplatch.extractLsb' 8 24 ≠ 0 ∨ 5 ≤ (s.oplatch.extractLsb' 0 8).toNat) := by decide

/-- EncodeCompletes: the smallest and the largest image. -/
theorem witness_encode_completes :
    ∀ s ∈ [withImage 1 1 4, withImage 100 100 40000],
      s.imgW.toNat ≤ 100 ∧ s.imgH.toNat ≤ 100 ∧ s.imgW.toNat ≠ 0 ∧ s.imgH.toNat ≠ 0 ∧
        s.inLen.toNat = s.imgW.toNat * s.imgH.toNat * 4 := by decide

/-- DecodeCompletes, without and with alpha, at HASH_LEN = HashLen; the nibbles, the size and the
image are the ones the equations name. -/
theorem witness_decode_completes :
    (let s := withHash hash1
     5 ≤ s.hashLen.toNat ∧ unpackHeader (s.readBytes 0x100 s.hashLen.toNat) = .ok header1 ∧
       hashLenOf header1 = s.hashLen.toNat) ∧
    (let s := withHash ([0x00, 0x08, 0x82, 0x05, 0x00, 0x88] ++ List.replicate 19 0)
     5 ≤ s.hashLen.toNat ∧ unpackHeader (s.readBytes 0x100 s.hashLen.toNat) = .ok header6 ∧
       hashLenOf header6 = s.hashLen.toNat) := by decide +kernel

/-- AverageColorCompletes: the shortest hash without and with alpha, and one byte less of each. -/
theorem witness_average_completes :
    (∀ s ∈ [withHash (hash1.take 5), withHash (hash6.take 6)],
      5 ≤ s.hashLen.toNat ∧
        (decide (128 ≤ (s.readByte (0x100 + 2)).toNat) = true → 6 ≤ s.hashLen.toNat)) ∧
    ∀ s ∈ [withHash (hash1.take 4), withHash (hash6.take 5)],
      s.hashLen.toNat < 5 ∨
        (decide (128 ≤ (s.readByte (0x100 + 2)).toNat) = true ∧ s.hashLen.toNat < 6) := by
  decide +kernel

/-- AspectRatioCompletes: the shortest hash, and one byte less. -/
theorem witness_aspect_completes :
    5 ≤ (withHash (hash1.take 5)).hashLen.toNat ∧ (withHash (hash1.take 4)).hashLen.toNat < 5 := by
  decide +kernel

/-- ContractViolationCauses, ErrorsWriteNoOutput: each cause at its boundary. -/
theorem witness_contract_violation :
    ∀ s ∈ [withImage 101 1 404, withImage 1 101 404, withImage 0 1 0, withImage 1 0 0,
        withImage 1 1 3],
      ∃ t, exec .encode s = .next t ∧ t.err = .contractViolation := by
  intro s hs
  refine ⟨s.takeError .contractViolation, ?_, rfl⟩
  simp only [List.mem_cons, List.not_mem_nil, or_false] at hs
  rcases hs with rfl | rfl | rfl | rfl | rfl <;> rfl

/-- TooShortCauses: each cause one byte short, the two longest HashLen among them. -/
theorem witness_too_short :
    ∀ p ∈ [(Instr.decode, withHash (hash1.take 4)), (.decode, withHash (hash1.take 23)),
        (.decode, withHash ([0x00, 0x08, 0x82, 0x06, 0x80] ++ List.replicate 22 0)),
        (.decode, withHash ([0x00, 0x08, 0x82, 0x07, 0x80] ++ List.replicate 23 0)),
        (.averageColor, withHash (hash1.take 4)), (.averageColor, withHash (hash6.take 5)),
        (.aspectRatio, withHash (hash1.take 4))],
      holdsAfter (exec p.1 p.2) (fun t => t.err == .tooShort) = true := by decide +kernel

/-- CommandsWriteOnlyTheirOutputs, InterruptLine: each command can give a next state. -/
theorem witness_exec_next :
    ∀ i ∈ [Instr.nop, .encode, .decode, .averageColor, .aspectRatio],
      ∃ t, exec i (withHash hash1) = .next t := fun i _ => exec_next i _

/-- UnpackOfPackedHash, PackPlacesNibbles, AcFactorTable: headers without and with alpha, an odd and an
even count of nibbles. -/
theorem witness_pack :
    ∀ p ∈ [(header1, List.replicate 37 (7 : Nibble)), (header6, List.replicate 38 9)],
      headerWellFormed p.1 = true ∧ p.2.length = nTotalOf p.1.hasAlpha (lGridOf p.1) := by
  decide +kernel

/-- UnpackersAgree: a list just too short and one just long enough for the count. -/
theorem witness_unpackers :
    0 < 3 ∧ [0x12#8].length < 0 + (3 + 1) / 2 ∧ ¬[0x12#8, 0x03#8].length < 0 + (3 + 1) / 2 := by
  decide

/-- TrailingBytesIgnored, PaddingNibbleIgnored: a hash of an odd count, exactly HashLen long, and a
last byte that differs in its high nibble. -/
theorem witness_trailing :
    let last := 5 + (nTotalOf header1.hasAlpha (lGridOf header1) - 1) / 2
    unpackHeader hash1 = .ok header1 ∧ hashLenOf header1 = hash1.length ∧ 5 ≤ hash1.length ∧
      nTotalOf header1.hasAlpha (lGridOf header1) % 2 = 1 ∧ last = 23 ∧
      (0xF0#8).setWidth 4 = (hash1.getD last 0).setWidth 4 ∧ 0xF0#8 ≠ hash1.getD last 0 := by
  decide +kernel

/-- ScanListsTriangularSet, EncodedHashLength, LongAxisGetsLimit: both ends of the dimensions. -/
theorem witness_dimensions : ∀ n ∈ [1, 100], 1 ≤ n ∧ n ≤ 100 := by decide

theorem encode_succeeds {s : State}
    (h : contractOk (imgWOf s) (imgHOf s) (inLenOf s) = true) :
    ∃ t, exec .encode s = .next t ∧ t.err = .ok := by
  obtain ⟨t, ht⟩ := exec_next .encode s
  refine ⟨t, ht, ?_⟩
  simp only [exec, execEncode, h, if_true, finish_ok, Host.Outcome.next.injEq] at ht
  rw [← ht, State.complete_err]

/-- EncodedHashDecodes, AspectRatioOfEncodedHash: an ENCODE that succeeds. -/
theorem witness_encode_succeeds : ∃ t, exec .encode (withImage 1 1 4) = .next t ∧ t.err = .ok :=
  encode_succeeds (by decide)

/-- AspectRatioOfEncodedHash, the clause on the alpha fields: an ENCODE that succeeds, of the pixel of
V-ENC-8, whose A is 128. -/
theorem witness_encode_alpha :
    let s := { withImage 1 1 4 with mem := storeBytes [] 0x10000 [10, 10, 10, 128] }
    (∃ t, exec .encode s = .next t ∧ t.err = .ok) ∧
      (transform Config.cos32 1 1 (toPixels (s.readBytes 0x10000 4))).hasAlpha = true :=
  ⟨encode_succeeds (by decide), by decide +kernel⟩

/-- HasAlphaIffSomePixelNotOpaque: an opaque image and one with a pixel of A = 254. -/
theorem witness_has_alpha :
    let opaqueImage : List Pixel := [⟨1, 2, 3, 255⟩]
    let alphaImage : List Pixel := [⟨1, 2, 3, 255⟩, ⟨1, 2, 3, 254⟩]
    opaqueImage.length = 1 * 1 ∧ (opaqueImage.any fun p => decide (p.a.toNat < 255)) = false ∧
      alphaImage.length = 2 * 1 ∧ (alphaImage.any fun p => decide (p.a.toNat < 255)) = true := by
  decide

/-- TransparentImageAveragesToZero: pixels of A = 0. -/
theorem witness_transparent : ∀ p ∈ [(⟨255, 1, 0, 0⟩ : Pixel), ⟨0, 7, 9, 0⟩], p.a = 0 := by decide

/-- DcIsRunningMean: a cosine unit with cos32(+0.0) = 1.0, and a plane of 2 × 1. -/
theorem witness_dc : (fun _ => fOne : F32 → F32) 0 = fOne ∧ [fOne, fHalf].length = 2 * 1 := by decide

/-- DcIsRunningMean, the clauses on the scale: a channel whose scale is above 0 and one whose scale is
0. -/
theorem witness_scale :
    fLt 0 (encodeChannel (fun _ => fOne) [fOne, fHalf] 2 1 3 3).scale = true ∧
      fLt 0 (encodeChannel (fun _ => fOne) [0, 0] 2 1 3 3).scale = false := by decide +kernel

/-- AcNibbleVectors: the smallest grid and the largest. -/
theorem witness_quantizer : ∀ g ∈ [((1, 7) : Nat × Nat), (7, 7)], g.1 ≤ 7 ∧ g.2 ≤ 7 := by decide

/-- ZeroChannelPacksZeroNibbles: both zeros. -/
theorem witness_zero_channel :
    ∀ v ∈ [(0 : F32), 0x80000000], v = 0 ∨ v = 0x80000000 := by simp

/-- OpaqueHashDecodesOpaque: a hash without alpha that decodes to a non-empty image and has an average
colour. -/
theorem witness_opaque_hash :
    unpackHeader hash1 = .ok header1 ∧ header1.hasAlpha = false ∧
      (match decodeHash (fun _ => fOne) hash1 with
        | .ok im => decide (0 < im.w * im.h)
        | .error _ => false) = true ∧
      (match averageFromHash hash1 with
        | .ok _ => true
        | .error _ => false) = true := by decide +kernel

/-- DecodedImageIsRowMajor: the last byte of the last pixel of a 32 × 18 image. -/
theorem witness_row_major : 31 < 32 ∧ 17 < 18 ∧ 3 < 4 := by decide

/-- RoundingIsNearestTiesToEven: a quotient that is no number of the format, the least value that
rounds to infinity and the one before it. -/
theorem witness_rounding :
    0 < 3 ∧ fFinite (fRound false 10 3) ∧ fFinite 0x80000003#32 ∧
      fFinite (fRound true ((2 ^ 25 - 1) * 2 ^ 252 - 1) 1) ∧
      ¬fFinite (fRound true ((2 ^ 25 - 1) * 2 ^ 252) 1) := by
  unfold fFinite; decide +kernel

/-- RoundingIsNearestTiesToEven, the clauses on operands: zeros and numbers that are not zero, NaN,
infinities of both signs, and a sum that is zero. -/
theorem witness_operands :
    fFinite 0x80000000#32 ∧ fUnits 0x80000000#32 = 0 ∧ fFinite fOne ∧ fUnits fOne ≠ 0 ∧
      fInt fOne + fInt 0xBF800000 = 0 ∧ fIsNaN 0xFF800001#32 = true ∧
      fIsInf 0x7F800000#32 = true ∧ fIsInf 0xFF800000#32 = true ∧
      fSign 0x7F800000#32 ≠ fSign 0xFF800000#32 ∧ 2 ^ 24 - 1 < 2 ^ 24 := by
  unfold fFinite; decide +kernel

/-- RoundingIsNearestTiesToEven, the clauses on comparisons, fmax and clamp01: numbers that are not NaN,
and numbers at the ends of each part of clamp01. -/
theorem witness_comparisons :
    fIsNaN fOne = false ∧ fIsNaN 0xFF800000#32 = false ∧
      (∀ x ∈ [0x80000000, 0x00000000, 0xFF800000], fLe (BitVec.ofNat 32 x) 0 = true) ∧
      (∀ x ∈ [0x00000001, 0x3F800000],
        fLt 0 (BitVec.ofNat 32 x) = true ∧ fLe (BitVec.ofNat 32 x) 0x3F800000 = true) ∧
      ∀ x ∈ [0x3F800001, 0x7F800000], fLt 0x3F800000 (BitVec.ofNat 32 x) = true := by
  decide +kernel

/-- RoundHalfAwayFromZero: a tie, the largest finite number, and numbers that are not finite. -/
theorem witness_round_half_away :
    fFinite 0xBF000000#32 ∧ fFinite 0x7F7FFFFF#32 ∧ ¬fFinite 0x7F800000#32 ∧
      ¬fFinite 0xFFC00000#32 := by
  unfold fFinite; decide +kernel

/-- ToUnsignedSaturates: NaN, both zeros, a negative number and minus infinity; zero, 2.5 and the
greatest finite number; plus infinity. -/
theorem witness_to_unsigned :
    fIsNaN 0x7F800001#32 = true ∧
      (∀ x ∈ [0x00000000, 0x80000000, 0x80000001, 0xFF800000],
        fLe (BitVec.ofNat 32 x) 0 = true) ∧
      (∀ x ∈ [0x00000000, 0x40200000, 0x7F7FFFFF],
        fFinite (BitVec.ofNat 32 x) ∧ fSign (BitVec.ofNat 32 x) = false) ∧
      fIsInf 0x7F800000#32 = true ∧ fSign 0x7F800000#32 = false := by
  unfold fFinite; decide +kernel

/-- StatusRegister, HashLenWriteIsLegalised, InputRegistersReadBack, CommandAcceptance, InterruptLine,
ReadOnlyWritesIgnored, BufferWriteReadsBack, BusErrorCauses: idle and running states out of reset, a due
completion, and values that clear DONE and that set and clear DONE_IE. -/
theorem witness_idle_and_busy :
    State.reset.rst = false ∧ State.reset.phase = .idle ∧ (due State.reset 1).rst = false ∧
      (due State.reset 1).phase = .busy ∧ (due State.reset 1).wait = 0 ∧
      (0x102#32).getLsbD 1 = true ∧ (1#32).getLsbD 0 = true ∧ (0x102#32).getLsbD 0 = false ∧
      ({ State.reset with done := true } : State).done = true := by decide

/-- BusErrorCauses: the first and the last offset of each reserved part, an illegal width, a
misaligned access, a narrow register access, and accesses that would leave a region; each is an error. -/
theorem witness_bus_error :
    ∀ p ∈ [(0x3C#17, 4), (0xFF, 1), (0x120, 4), (0xFFF, 1), (0x2000, 4), (0xFFFF, 1),
        (0x19C40, 4), (0x1FFFF, 1), (0x100, 3), (0x100, 0), (0x102, 4), (0x038, 1), (0x03A, 2),
        (0x11E, 4), (0x1FFE, 4), (0x19C3E, 4), (0x03A, 4)],
      (memRead State.reset p.1 p.2).2.error = true := by decide

/-- The last access of each region and width that gets no bus error. -/
theorem witness_bus_ok :
    ∀ p ∈ [(0x000#17, 4), (0x038, 4), (0x100, 1), (0x11E, 2), (0x11C, 4), (0x1000, 4), (0x1FFF, 1),
        (0x10000, 4), (0x19C3F, 1)],
      (memRead State.reset p.1 p.2).2.error = false := by decide

/-- BusyWritesIgnored: the ends of each clause's ranges. -/
theorem witness_busy_writes :
    let s := due State.reset 1
    s.phase = .busy ∧ s.rst = false ∧
      (∀ p ∈ [(0x004#17, 4), (0x010, 4), (0x01C, 4), (0x100, 1), (0x11F, 1), (0x10000, 2),
        (0x19C3C, 4)], accessOk p.1 p.2 = true ∧
          (p.1.toNat = 0x004 ∨ (0x010 ≤ p.1.toNat ∧ p.1.toNat < 0x020) ∨
            (0x100 ≤ p.1.toNat ∧ p.1.toNat < 0x120) ∨ 0x10000 ≤ p.1.toNat)) ∧
      accessOk 0x008 4 = true ∧ accessOk 0x00C 4 = true ∧
      (∀ p ∈ [(0x000#17, 4), (0x020, 4), (0x038, 4), (0x1000, 1), (0x1FFC, 4)],
        accessOk p.1 p.2 = true ∧ (p.1.toNat = 0x000 ∨ (0x020 ≤ p.1.toNat ∧ p.1.toNat < 0x03C) ∨
          (0x1000 ≤ p.1.toNat ∧ p.1.toNat < 0x2000))) := by decide

/-- ReadOnlyWritesIgnored: the ends of each clause's ranges. -/
theorem witness_read_only :
    ∀ p ∈ [(0x000#17, 4), (0x020, 4), (0x038, 4), (0x1000, 1), (0x1FFC, 4)],
      accessOk p.1 p.2 = true ∧ (p.1.toNat = 0x000 ∨ (0x020 ≤ p.1.toNat ∧ p.1.toNat < 0x03C) ∨
        (0x1000 ≤ p.1.toNat ∧ p.1.toNat < 0x2000)) := by decide

/-- BusyReadsOfResultsAreFree: offsets that are result locations and offsets that are not, and every
register's own offset. -/
theorem witness_busy_reads :
    (∀ p ∈ [(0x01C#17, 4), (0x038, 4), (0x100, 1), (0x11E, 2), (0x1FFF, 1)],
      accessOk p.1 p.2 = true ∧ isResultAt p.1.toNat = true) ∧
    (∀ p ∈ [(0x000#17, 4), (0x018, 4), (0x10000, 4)],
      accessOk p.1 p.2 = true ∧ isResultAt p.1.toNat = false) ∧
    (∀ k < 15, accessOk (BitVec.ofNat 17 (4 * k)) 4 = true) ∧
    State.reset.phase = .idle ∧ (due State.reset 1).phase = .busy := by decide

/-- BufferWriteReadsBack: the ends of HASHBUF and PIXIN. -/
theorem witness_buffer_write :
    ∀ p ∈ [(0x100#17, 4), (0x11E, 2), (0x10000, 4), (0x19C3F, 1)],
      accessOk p.1 p.2 = true ∧
        ((0x100 ≤ p.1.toNat ∧ p.1.toNat < 0x120) ∨ 0x10000 ≤ p.1.toNat) := by decide

/-- WindowDecoding: an address the block decodes. -/
theorem witness_window : windowOffset Config.pBase = some 0 := by
  simp [windowOffset, Config.windowSize]

/-- WindowDecoding, HostProgramOperations: the address just past the window. -/
theorem witness_outside : windowOffset (Config.pBase + 0x20000) = none := by
  simp [windowOffset, Config.windowSize]

/-- A host that has read 1 into name 0 and stands at a `bnz`. -/
def looping : State :=
  { State.reset with host := ⟨[.label 3, .bnz 0 3], 1, [(0, 1)], none⟩ }

/-- HostProgramOperations: a name that is not 0 and one that is, and a label of the program; hosts with
and without a next operation where no completion is due, idle or with latency left; both levels of the
interrupt line. -/
theorem witness_host_program :
    nameValue looping.host 0 ≠ 0 ∧ HostOp.label 3 ∈ looping.host.prog ∧
      nameValue ({ looping.host with names := [(0, 0)] } : HostState) 0 = 0 ∧
      looping.host.prog[looping.host.pc]? = some (.bnz 0 3) ∧ looping.phase = .idle ∧
      State.reset.host.prog[State.reset.host.pc]? = none ∧
      ({ due State.reset 1 with wait := 1 } : State).wait ≠ 0 ∧ State.reset.irq = false ∧
      ({ State.reset with done := true, doneIe := true } : State).irq = true := by decide

/-- InputsHeldWhileBusy: a write while a command runs. -/
theorem witness_inputs_held :
    (due State.reset 1).phase = .busy ∧ HostOp.write 0x010 4 5 ≠ .rst true := by decide

/-- OnlyCommandsWriteResults: steps that change OUT_H, AVG_A and ASPECT. -/
theorem witness_results_change :
    holdsAfter (step (due (withHash ([0x00, 0x08, 0x02, 0x00, 0x00] ++ List.replicate 12 0)) 2))
        (fun t => !t.rst && t.outH != 0) = true ∧
      holdsAfter (step (due (withHash hash1) 3)) (fun t => !t.rst && t.avgA != 0) = true ∧
      holdsAfter (step (due (withHash hash1) 4)) (fun t => !t.rst && t.aspect != 0) = true := by
  decide +kernel

/-- BusyEndsOnlyByCompletionOrReset: BUSY ends by completion, and by reset with latency left. -/
theorem witness_busy_ends :
    holdsAfter (step (due State.reset 0)) (fun t => !t.busy && t.done) = true ∧
      holdsAfter (step { due State.reset 0 with
        wait := 5, host := ⟨[.rst true], 0, [], none⟩ }) (fun t => !t.busy && t.rst) = true := by
  decide

/-- BusyCommandCompletes: a command with latency left and a host that drives the reset input to its
released level and polls. -/
theorem witness_busy_completes :
    let s := { due State.reset 0 with wait := 5, host := ⟨.rst false :: waitDone 0 0, 0, [], none⟩ }
    s.phase = .busy ∧ s.rst = false ∧ HostOp.rst true ∉ s.host.prog ∧
      HostOp.rst false ∈ s.host.prog := by decide

/-- ResetAbandonsCommand, the clause on the release: a step that releases the reset input. -/
theorem witness_release :
    let s := { State.reset with host := ⟨[.rst false], 0, [], none⟩ }.assertReset
    s.rst = true ∧ s.block = State.reset ∧
      holdsAfter (step s) (fun t => !t.rst) = true := by decide

/-- The four invariants hold in a state with bytes written, results set and a command running, and a
step leaves it. -/
theorem witness_invariants :
    let s : State := { due (withHash hash1) 3 with outW := 32, outH := 18, avgA := fOne, aspect := fOne }
    memoryLegal s ∧ (hashLenLegal s ∧ outSizeLegal s ∧ averageLegal s ∧ aspectLegal s) ∧
      sequencerLegal s ∧ resetHeld s ∧ ∃ t, step s = .next t := by
  refine ⟨?_, ⟨?_, ?_, ?_, ?_⟩, ?_, ?_, step_next _⟩
  · unfold memoryLegal; decide +kernel
  · unfold hashLenLegal; decide +kernel
  · unfold outSizeLegal; decide
  · unfold averageLegal inUnit; decide
  · unfold aspectLegal; decide
  · unfold sequencerLegal; decide
  · unfold resetHeld; decide

/-- StepKeepsResetHeld: a state with the reset input asserted. -/
theorem witness_reset_held :
    let s := State.reset.assertReset
    s.rst = true ∧ s.block = State.reset ∧ ∃ t, step s = .next t := ⟨rfl, rfl, step_next _⟩

end Sys2Proof.Tests
end

section
/-! Rounding against the numbers themselves (spec/00_scope.md R12): nothing is nearer than the rounded
pattern, a tie goes to the even pattern, and the overflow threshold is half a unit past the largest
finite number. -/

namespace Sys2Proof.Machine

@[simp] theorem magUnits_inj {m n : Nat} : magUnits m = magUnits n ↔ m = n :=
  magUnits_strictMono.injective.eq_iff

@[simp] theorem magUnits_zero : magUnits 0 = 0 := by decide

theorem magUnits_mul_lt {m n den : Nat} (hden : 0 < den) (h : m < n) :
    magUnits m * den < magUnits n * den :=
  Nat.mul_lt_mul_of_pos_right (magUnits_lt_iff.2 h) hden

/-- Every pattern stands at or below the lower bracket of the rounded value, or at or above the upper
one, where it is no nearer than the bracket. -/
theorem roundMag_nearest {num den : Nat} (hden : 0 < den) (n : Nat) :
    |((magUnits (roundMag num den) * den : Nat) : Int) - num| ≤
        |((magUnits n * den : Nat) : Int) - num| ∧
      (|((magUnits (roundMag num den) * den : Nat) : Int) - num| =
          |((magUnits n * den : Nat) : Int) - num| →
        magUnits (roundMag num den) ≠ magUnits n → roundMag num den % 2 = 0) := by
  obtain ⟨lo, hlo, hhi, hr⟩ := roundMag_cases (num := num) hden
  have below : n < lo → magUnits n * den < magUnits lo * den := magUnits_mul_lt hden
  have above : lo + 1 < n → magUnits (lo + 1) * den < magUnits n * den := magUnits_mul_lt hden
  have place : n < lo ∨ n = lo ∨ n = lo + 1 ∨ lo + 1 < n := by omega
  rw [ne_eq, magUnits_inj, Int.abs_eq_natAbs, Int.abs_eq_natAbs]
  rcases hr with ⟨hr, near, even⟩ | ⟨hr, near, even⟩ <;> rw [hr] <;>
    rcases place with h | rfl | rfl | h <;> omega

/-- An odd pattern is left for the next one exactly from the midpoint of the two on. -/
theorem lt_roundMag_iff_of_odd {num den M : Nat} (hden : 0 < den) (hM : M % 2 = 1) :
    M < roundMag num den ↔ (magUnits M + magUnits (M + 1)) * den ≤ 2 * num := by
  obtain ⟨lo, hlo, hhi, hr⟩ := roundMag_cases (num := num) hden
  have step : magUnits M * den < magUnits (M + 1) * den := magUnits_mul_lt hden (Nat.lt_succ_self M)
  rw [Nat.add_mul]
  rcases Nat.lt_trichotomy lo M with h | rfl | h
  · have : magUnits (lo + 1) * den ≤ magUnits M * den :=
      Nat.mul_le_mul_right _ (magUnits_le_iff.2 h)
    omega
  · omega
  · have : magUnits (M + 1) * den ≤ magUnits lo * den :=
      Nat.mul_le_mul_right _ (magUnits_le_iff.2 h)
    omega

/-- `(2^25 - 1) * 2^252` units are halfway from the largest finite number to the pattern of infinity. -/
theorem maxFinite_midpoint :
    magUnits (infMag - 1) + magUnits (infMag - 1 + 1) = 2 * ((2 ^ 25 - 1) * 2 ^ 252) := by
  decide +kernel

theorem fRound_finite_iff {neg : Bool} {num den : Nat} :
    fFinite (fRound neg num den) ↔ roundMag num den < infMag := by
  rw [fFinite, fRound_mag]; omega

theorem fRound_inf_of_not_finite {neg : Bool} {num den : Nat}
    (h : ¬fFinite (fRound neg num den)) : fIsInf (fRound neg num den) = true := by
  rw [fRound_finite_iff] at h
  rw [fIsInf, fRound_mag, beq_iff_eq]; omega

theorem fRound_mag_of_finite {neg : Bool} {num den : Nat} (h : fFinite (fRound neg num den)) :
    fMag (fRound neg num den) = roundMag num den := by
  rw [fRound_finite_iff] at h
  rw [fRound_mag]; omega

theorem fRound_finite_iff_lt_midpoint {neg : Bool} {num den : Nat} (hden : 0 < den) :
    fFinite (fRound neg num den) ↔ num < den * ((2 ^ 25 - 1) * 2 ^ 252) := by
  have past := lt_roundMag_iff_of_odd (num := num) (M := infMag - 1) hden (by decide)
  rw [maxFinite_midpoint, Nat.mul_assoc, Nat.mul_comm _ den] at past
  have : infMag - 1 + 1 = infMag := by decide
  rw [fRound_finite_iff]
  omega

end Sys2Proof.Machine
end

section
/-! The fields of a pattern, and what the two sign operations do to them (R12, R17). -/

namespace Sys2Proof.Machine

theorem infMag_eq : infMag = 255 * 2 ^ 23 := by decide

theorem fMag_eq_fields (x : F32) :
    fMag x = x.toNat / 2 ^ 23 % 2 ^ 8 * 2 ^ 23 + x.toNat % 2 ^ 23 := by
  unfold fMag; omega

theorem fFinite_iff_exponent (x : F32) : fFinite x ↔ x.toNat / 2 ^ 23 % 2 ^ 8 < 255 := by
  rw [fFinite, fMag_eq_fields, infMag_eq]; omega

theorem fIsInf_iff_fields (x : F32) :
    fIsInf x = true ↔ x.toNat / 2 ^ 23 % 2 ^ 8 = 255 ∧ x.toNat % 2 ^ 23 = 0 := by
  rw [fIsInf, beq_iff_eq, fMag_eq_fields, infMag_eq]; omega

theorem fIsNaN_iff_fields (x : F32) :
    fIsNaN x = true ↔ x.toNat / 2 ^ 23 % 2 ^ 8 = 255 ∧ x.toNat % 2 ^ 23 ≠ 0 := by
  rw [fIsNaN, decide_eq_true_iff, fMag_eq_fields, infMag_eq]; omega

theorem fUnits_eq_fields (x : F32) :
    fUnits x = if x.toNat / 2 ^ 23 % 2 ^ 8 = 0 then x.toNat % 2 ^ 23
      else (2 ^ 23 + x.toNat % 2 ^ 23) * 2 ^ (x.toNat / 2 ^ 23 % 2 ^ 8 - 1) := by
  have he : fMag x / 2 ^ 23 = x.toNat / 2 ^ 23 % 2 ^ 8 := by rw [fMag_eq_fields]; omega
  have hf : fMag x % 2 ^ 23 = x.toNat % 2 ^ 23 := by rw [fMag_eq_fields]; omega
  rw [fUnits, magUnits, he, hf]

/-- The magnitude is what is left of the pattern without its top bit. -/
theorem fMag_eq_setWidth (x : F32) : fMag x = (x.setWidth 31).toNat := by
  rw [fMag, BitVec.toNat_setWidth]

@[simp] theorem fNeg_sign (x : F32) : fSign (fNeg x) = !fSign x := by
  rw [fSign, fNeg, BitVec.getLsbD_xor, fSign]; simp

@[simp] theorem fNeg_mag (x : F32) : fMag (fNeg x) = fMag x := by
  have : (0x80000000 : F32).setWidth 31 = 0#31 := by decide
  rw [fMag_eq_setWidth, fNeg, BitVec.setWidth_xor, this, BitVec.xor_zero, fMag_eq_setWidth]

@[simp] theorem fAbs_sign (x : F32) : fSign (fAbs x) = false := by
  rw [fSign, fAbs, BitVec.getLsbD_and]; simp

@[simp] theorem fAbs_mag (x : F32) : fMag (fAbs x) = fMag x := by
  have : (0x7FFFFFFF : F32).setWidth 31 = BitVec.allOnes 31 := by decide
  rw [fMag_eq_setWidth, fAbs, BitVec.setWidth_and, this, BitVec.and_allOnes, fMag_eq_setWidth]

@[simp] theorem fNeg_isNaN (x : F32) : fIsNaN (fNeg x) = fIsNaN x := by rw [fIsNaN, fNeg_mag, fIsNaN]
@[simp] theorem fNeg_isInf (x : F32) : fIsInf (fNeg x) = fIsInf x := by rw [fIsInf, fNeg_mag, fIsInf]
@[simp] theorem fNeg_finite (x : F32) : fFinite (fNeg x) ↔ fFinite x := by
  rw [fFinite, fNeg_mag, fFinite]
@[simp] theorem fNeg_units (x : F32) : fUnits (fNeg x) = fUnits x := by rw [fUnits, fNeg_mag, fUnits]

@[simp] theorem fNeg_int (x : F32) : fInt (fNeg x) = -fInt x := by
  rw [fInt, fInt, fNeg_sign, fNeg_units]
  cases fSign x <;> simp

/-! ### The three kinds of patterns: finite, infinite and NaN -/

theorem fIsInf_iff_mag (x : F32) : fIsInf x = true ↔ fMag x = infMag := beq_iff_eq

theorem fIsNaN_of_inf {x : F32} (h : fIsInf x = true) : fIsNaN x = false := by
  rw [fIsInf_iff_mag] at h
  rw [fIsNaN, h]; decide

theorem fIsZero_of_inf {x : F32} (h : fIsInf x = true) : fIsZero x = false := by
  rw [fIsInf_iff_mag] at h
  rw [fIsZero, h]; decide

theorem not_finite_iff (x : F32) : ¬fFinite x ↔ fIsNaN x = true ∨ fIsInf x = true := by
  rw [fIsInf_iff_mag, fFinite, fIsNaN, decide_eq_true_iff]; omega

@[simp] theorem fIsNaN_fNaN : fIsNaN fNaN = true := by decide

end Sys2Proof.Machine
end

section
/-! What the four operations give on each kind of operands (R12). -/

namespace Sys2Proof.Machine

theorem fAdd_finite {x y : F32} (hx : fFinite x) (hy : fFinite y) :
    fAdd x y = if fInt x + fInt y = 0 then fPack (fSign x && fSign y) 0
      else fRound (decide (fInt x + fInt y < 0)) (fInt x + fInt y).natAbs 1 := by
  simp [fAdd, fIsNaN_of_finite hx, fIsNaN_of_finite hy, fIsInf_of_finite hx, fIsInf_of_finite hy]

theorem fSub_finite {x y : F32} (hx : fFinite x) (hy : fFinite y) :
    fSub x y = if fInt x - fInt y = 0 then fPack (fSign x && !fSign y) 0
      else fRound (decide (fInt x - fInt y < 0)) (fInt x - fInt y).natAbs 1 := by
  rw [fSub, fAdd_finite hx ((fNeg_finite y).2 hy), fNeg_int, fNeg_sign, ← sub_eq_add_neg]

theorem fDiv_zero_divisor {x y : F32} (hx : fFinite x) (hy : fFinite y) (h : fUnits y = 0) :
    fDiv x y = if fUnits x = 0 then fNaN else fPack (fSign x != fSign y) infMag := by
  simp [fDiv, fIsNaN_of_finite hx, fIsNaN_of_finite hy, fIsInf_of_finite hx, fIsInf_of_finite hy,
    (fIsZero_iff y).2 h, fIsZero_iff]

/-! ### A NaN operand -/

section
variable {x y : F32} (h : fIsNaN x = true ∨ fIsNaN y = true)
include h

theorem fAdd_nan : fAdd x y = fNaN := by rcases h with h | h <;> simp [fAdd, h]
theorem fMul_nan : fMul x y = fNaN := by rcases h with h | h <;> simp [fMul, h]
theorem fDiv_nan : fDiv x y = fNaN := by rcases h with h | h <;> simp [fDiv, h]
theorem fSub_nan : fSub x y = fNaN := fAdd_nan (by rwa [fNeg_isNaN])
theorem fLt_nan : fLt x y = false := by rcases h with h | h <;> simp [fLt, h]
theorem fLe_nan : fLe x y = false := by rcases h with h | h <;> simp [fLe, h]

end

/-! ### One infinite operand and a finite one -/

section
variable {x y : F32} (hx : fIsInf x = true) (hy : fFinite y)
include hx hy

theorem fAdd_inf_finite : fAdd x y = x := by
  simp [fAdd, hx, fIsNaN_of_inf hx, fIsNaN_of_finite hy, fIsInf_of_finite hy]

theorem fAdd_finite_inf : fAdd y x = x := by
  simp [fAdd, hx, fIsNaN_of_inf hx, fIsNaN_of_finite hy, fIsInf_of_finite hy]

theorem fSub_inf_finite : fSub x y = x := fAdd_inf_finite hx ((fNeg_finite y).2 hy)

theorem fSub_finite_inf : fSub y x = fNeg x := fAdd_finite_inf (by rwa [fNeg_isInf]) hy

theorem fMul_inf_finite :
    fMul x y = if fUnits y = 0 then fNaN else fPack (fSign x != fSign y) infMag := by
  simp [fMul, hx, fIsNaN_of_inf hx, fIsZero_of_inf hx, fIsNaN_of_finite hy, fIsZero_iff]

theorem fMul_finite_inf : fMul y x = fMul x y := by
  rw [fMul_inf_finite hx hy]
  simp [fMul, hx, fIsNaN_of_inf hx, fIsZero_of_inf hx, fIsNaN_of_finite hy, fIsZero_iff,
    bne_comm (a := fSign y)]

theorem fDiv_inf_finite : fDiv x y = fPack (fSign x != fSign y) infMag := by
  simp [fDiv, hx, fIsNaN_of_inf hx, fIsNaN_of_finite hy, fIsInf_of_finite hy]

theorem fDiv_finite_inf : fDiv y x = fPack (fSign x != fSign y) 0 := by
  simp [fDiv, hx, fIsNaN_of_inf hx, fIsNaN_of_finite hy, fIsInf_of_finite hy,
    bne_comm (a := fSign y)]

end

/-! ### Two infinite operands -/

section
variable {x y : F32} (hx : fIsInf x = true) (hy : fIsInf y = true)
include hx hy

theorem fAdd_inf_inf : fAdd x y = if fSign x = fSign y then x else fNaN := by
  simp [fAdd, hx, hy, fIsNaN_of_inf hx, fIsNaN_of_inf hy]

theorem fSub_inf_inf : fSub x y = if fSign x = fSign y then fNaN else x := by
  rw [fSub, fAdd_inf_inf hx (by rwa [fNeg_isInf]), fNeg_sign]
  cases fSign x <;> cases fSign y <;> rfl

theorem fMul_inf_inf : fMul x y = fPack (fSign x != fSign y) infMag := by
  simp [fMul, hx, fIsNaN_of_inf hx, fIsNaN_of_inf hy, fIsZero_of_inf hx, fIsZero_of_inf hy]

theorem fDiv_inf_inf : fDiv x y = fNaN := by
  simp [fDiv, hx, hy, fIsNaN_of_inf hx, fIsNaN_of_inf hy]

end

end Sys2Proof.Machine
end

section
/-! The order of the patterns is the order of the numbers (R18), and fmax and clamp01 in it (R17). -/

namespace Sys2Proof.Machine

/-- On patterns of one sign this is the order of the magnitudes; the two zeros have one key and one
value. -/
theorem fKey_lt_iff (x y : F32) : fKey x < fKey y ↔ fInt x < fInt y := by
  have zero_or_pos (m : Nat) : m = 0 ∧ magUnits m = 0 ∨ 0 < m ∧ 0 < magUnits m := by
    rcases Nat.eq_zero_or_pos m with rfl | h
    · exact .inl ⟨rfl, magUnits_zero⟩
    · exact .inr ⟨h, by simpa using magUnits_lt_iff.2 h⟩
  have hx := zero_or_pos (fMag x)
  have hy := zero_or_pos (fMag y)
  have hxy := magUnits_lt_iff (m := fMag x) (n := fMag y)
  have hyx := magUnits_lt_iff (m := fMag y) (n := fMag x)
  unfold fKey fInt fUnits
  cases fSign x <;> cases fSign y <;>
    simp only [if_true, if_false, Bool.false_eq_true] <;> omega

theorem fKey_le_iff (x y : F32) : fKey x ≤ fKey y ↔ fInt x ≤ fInt y := by
  rw [← not_lt, fKey_lt_iff, not_lt]

theorem fKey_of_inf {x : F32} (h : fIsInf x = true) :
    fKey x = if fSign x then -(infMag : Int) else infMag := by
  rw [fKey, (fIsInf_iff_mag x).1 h]

theorem fKey_abs_of_finite {x : F32} (h : fFinite x) :
    -(infMag : Int) < fKey x ∧ fKey x < infMag := by
  unfold fFinite at h
  unfold fKey
  split <;> omega

theorem fLt_eq {x y : F32} (hx : fIsNaN x = false) (hy : fIsNaN y = false) :
    fLt x y = decide (fKey x < fKey y) := by simp [fLt, hx, hy]

theorem fLe_eq {x y : F32} (hx : fIsNaN x = false) (hy : fIsNaN y = false) :
    fLe x y = decide (fKey x ≤ fKey y) := by simp [fLe, hx, hy]

theorem fLt_iff {x y : F32} :
    fLt x y = true ↔ fIsNaN x = false ∧ fIsNaN y = false ∧ fKey x < fKey y := by
  simp [fLt, and_assoc]

theorem fLe_iff {x y : F32} :
    fLe x y = true ↔ fIsNaN x = false ∧ fIsNaN y = false ∧ fKey x ≤ fKey y := by
  simp [fLe, and_assoc]

theorem fLt_finite_iff {x y : F32} (hx : fFinite x) (hy : fFinite y) :
    fLt x y = true ↔ fInt x < fInt y := by
  rw [fLt_eq (fIsNaN_of_finite hx) (fIsNaN_of_finite hy), decide_eq_true_iff, fKey_lt_iff]

theorem fLe_finite_iff {x y : F32} (hx : fFinite x) (hy : fFinite y) :
    fLe x y = true ↔ fInt x ≤ fInt y := by
  rw [fLe_eq (fIsNaN_of_finite hx) (fIsNaN_of_finite hy), decide_eq_true_iff, fKey_le_iff]

/-- The infinities are the ends of the order. -/
theorem compare_inf_finite {x y : F32} (hx : fIsInf x = true) (hy : fFinite y) :
    fLt x y = fSign x ∧ fLe x y = fSign x ∧ (fLt y x = !fSign x) ∧ (fLe y x = !fSign x) := by
  have nx := fIsNaN_of_inf hx
  have ny := fIsNaN_of_finite hy
  obtain ⟨hlo, hhi⟩ := fKey_abs_of_finite hy
  rw [fLt_eq nx ny, fLe_eq nx ny, fLt_eq ny nx, fLe_eq ny nx, fKey_of_inf hx]
  cases fSign x <;>
    simp only [if_true, if_false, Bool.false_eq_true, Bool.not_true, Bool.not_false,
      decide_eq_true_eq, decide_eq_false_iff_not] <;> omega

theorem compare_inf_inf {x y : F32} (hx : fIsInf x = true) (hy : fIsInf y = true) :
    fLt x y = (fSign x && !fSign y) ∧ fLe x y = (fSign x || !fSign y) := by
  rw [fLt_eq (fIsNaN_of_inf hx) (fIsNaN_of_inf hy), fLe_eq (fIsNaN_of_inf hx) (fIsNaN_of_inf hy),
    fKey_of_inf hx, fKey_of_inf hy]
  cases fSign x <;> cases fSign y <;> decide

theorem fMax_spec {x y : F32} (hx : fIsNaN x = false) (hy : fIsNaN y = false) :
    (fMax x y = x ∨ fMax x y = y) ∧ fLe x (fMax x y) = true ∧ fLe y (fMax x y) = true := by
  have hmax : fMax x y = if fKey x < fKey y then y else x := by
    simp [fMax, hx, hy, fLt_eq hx hy]
  rw [hmax]
  split
  · next h => exact ⟨.inr rfl, fLe_iff.2 ⟨hx, hy, h.le⟩, fLe_iff.2 ⟨hy, hy, le_rfl⟩⟩
  · next h => exact ⟨.inl rfl, fLe_iff.2 ⟨hx, hx, le_rfl⟩, fLe_iff.2 ⟨hy, hx, not_lt.1 h⟩⟩

@[simp] theorem fKey_zero : fKey 0 = 0 := by decide

theorem fLt_false_of_fLe {x y : F32} (h : fLe x y = true) : fLt y x = false := by
  obtain ⟨hx, hy, hle⟩ := fLe_iff.1 h
  rw [fLt_eq hy hx, decide_eq_false_iff_not, not_lt]; exact hle

theorem clamp01_of_not_pos {x : F32} (h : fIsNaN x = true ∨ fLe x 0 = true) : clamp01 x = 0 := by
  have : fLt 0 x = false := h.elim (fun h => fLt_nan (.inr h)) fLt_false_of_fLe
  rw [clamp01, this, if_neg Bool.false_ne_true]

theorem clamp01_of_unit {x : F32} (h0 : fLt 0 x = true) (h1 : fLe x fOne = true) :
    clamp01 x = x := by
  rw [clamp01, if_pos h0, fLt_false_of_fLe h1, if_neg Bool.false_ne_true]

theorem clamp01_of_gt_one {x : F32} (h : fLt fOne x = true) : clamp01 x = fOne := by
  obtain ⟨-, hx, hlt⟩ := fLt_iff.1 h
  have one_pos : (0 : Int) < fKey fOne := by decide
  have h0 : fLt 0 x = true := fLt_iff.2 ⟨by decide, hx, by rw [fKey_zero]; omega⟩
  rw [clamp01, if_pos h0, if_pos h]

end Sys2Proof.Machine
end

section
/-! The conversions to whole numbers (R14, R15). -/

namespace Sys2Proof.Machine

/-- The whole number nearest to a finite number is a number of the format: below 2^24 every whole
number is one, and from there on the number is whole itself. -/
theorem rounded_whole_mag {x : F32} (hx : fFinite x) :
    ∃ M, M < infMag ∧ magUnits M = (fUnits x + 2 ^ 148) / 2 ^ 149 * 2 ^ 149 := by
  rcases Nat.lt_or_ge ((fUnits x + 2 ^ 148) / 2 ^ 149) (2 ^ 24) with small | large
  · exact whole_mag small
  · have whole : fUnits x % 2 ^ 149 = 0 := whole_of_large (by unfold fUnits at large; omega)
    exact ⟨fMag x, hx, by change fUnits x = _; omega⟩

theorem roundHA_of_not_finite {x : F32} (h : ¬fFinite x) : roundHA x = x := by
  rw [not_finite_iff] at h
  rcases h with h | h <;> simp [roundHA, h]

theorem roundHA_of_finite {x : F32} (h : fFinite x) :
    fFinite (roundHA x) ∧ fSign (roundHA x) = fSign x ∧
      fUnits (roundHA x) = (fUnits x + 2 ^ 148) / 2 ^ 149 * 2 ^ 149 := by
  obtain ⟨M, hM, hu⟩ := rounded_whole_mag h
  have hM31 : M < 2 ^ 31 := hM.trans (by decide)
  have halve : (2 * fUnits x + 2 ^ 149) / 2 ^ 150 = (fUnits x + 2 ^ 148) / 2 ^ 149 := by omega
  have hr : roundHA x = fPack (fSign x) M := by
    rw [← fRound_exact one_pos hM.le, mul_one, hu, ← halve]
    simp [roundHA, fIsNaN_of_finite h, fIsInf_of_finite h]
  rw [hr, fFinite, fUnits, fPack_mag hM31, fPack_sign hM31]
  exact ⟨hM, rfl, hu⟩

theorem fLe_zero_iff {x : F32} :
    fLe x 0 = true ↔ fIsNaN x = false ∧ (fSign x = true ∨ fIsZero x = true) := by
  have zero_not_nan : fIsNaN 0 = false := by decide
  rw [fLe_iff, zero_not_nan, fKey_zero, fKey, fIsZero, beq_iff_eq]
  cases fSign x <;> simp

theorem toU_of_not_pos (n : Nat) {x : F32} (h : fIsNaN x = true ∨ fLe x 0 = true) :
    toU n x = 0 := by
  rw [fLe_zero_iff] at h
  rcases h with h | ⟨-, h | h⟩ <;> simp [toU, h]

theorem toU_of_finite (n : Nat) {x : F32} (hx : fFinite x) (hs : fSign x = false) :
    toU n x = min (fUnits x / 2 ^ 149) (2 ^ n - 1) := by
  cases hz : fIsZero x
  · simp only [toU, fIsNaN_of_finite hx, fIsInf_of_finite hx, hs, hz, Bool.or_self, Bool.false_or,
      Bool.false_eq_true, if_false, decide_eq_true_eq]
    split <;> omega
  · rw [(fIsZero_iff x).1 hz]
    simp [toU, hz]

theorem toU_of_inf (n : Nat) {x : F32} (hx : fIsInf x = true) (hs : fSign x = false) :
    toU n x = 2 ^ n - 1 := by
  simp [toU, hx, hs, fIsNaN_of_inf hx, fIsZero_of_inf hx]

end Sys2Proof.Machine
end

section
/-! The obligations on binary32. -/

namespace Sys2Proof.Machine

/-- Settles O35: the rounding clause by the brackets of `roundMag_cases`, the others by what each
operation gives on each kind of operands. -/
theorem roundingIsNearestTiesToEven : Obligations.RoundingIsNearestTiesToEven := by
  unfold Obligations.RoundingIsNearestTiesToEven
  refine ⟨?round, ?fields, ?pack, ?finite, ?nan, ?infFinite, ?infInf, fun n => f32_units,
    fun x y hx hy => ⟨fLt_finite_iff hx hy, fLe_finite_iff hx hy⟩,
    fun x y h => ⟨fLt_nan h, fLe_nan h⟩, fun x y => compare_inf_finite,
    fun x y => compare_inf_inf, fun x y => fMax_spec,
    fun x => ⟨clamp01_of_not_pos, clamp01_of_unit, clamp01_of_gt_one⟩⟩
  case round =>
    intro neg num den hden
    refine ⟨fRound_sign _ _ _, fRound_finite_iff_lt_midpoint hden, fRound_inf_of_not_finite, ?_⟩
    intro hfin z _
    have nearest := roundMag_nearest (num := num) hden (fMag z)
    rw [← fRound_mag_of_finite hfin, Nat.cast_mul, Nat.cast_mul] at nearest
    exact nearest
  case fields =>
    exact fun x => ⟨fFinite_iff_exponent x, fIsInf_iff_fields x, fIsNaN_iff_fields x, fSign_eq x, rfl,
      fUnits_eq_fields x, rfl, fNeg_sign x, fNeg_mag x, fAbs_sign x, fAbs_mag x⟩
  case pack =>
    intro neg m hm
    rw [fPack_toNat hm]
    cases neg <;> simp
  case finite =>
    intro x y hx hy
    refine ⟨fAdd_finite hx hy, fSub_finite hx hy, fMul_finite hx hy, fDiv_finite hx hy, ?_, ?_⟩
    · intro hy0 hx0
      rw [fDiv_zero_divisor hx hy hy0, if_neg hx0]; rfl
    · intro hy0 hx0
      rw [fDiv_zero_divisor hx hy hy0, if_pos hx0, fIsNaN_fNaN]
  case nan =>
    intro x y h
    rw [fAdd_nan h, fSub_nan h, fMul_nan h, fDiv_nan h, fIsNaN_fNaN]
    exact ⟨rfl, rfl, rfl, rfl⟩
  case infFinite =>
    intro x y hx hy
    refine ⟨fAdd_inf_finite hx hy, fAdd_finite_inf hx hy, fSub_inf_finite hx hy,
      fSub_finite_inf hx hy, fun h => ⟨?_, fMul_finite_inf hx hy⟩, fun h => ?_,
      fDiv_inf_finite hx hy, fDiv_finite_inf hx hy⟩
    · rw [fMul_inf_finite hx hy, if_neg h]; rfl
    · rw [fMul_finite_inf hx hy, fMul_inf_finite hx hy, if_pos h, fIsNaN_fNaN]
      exact ⟨rfl, rfl⟩
  case infInf =>
    intro x y hx hy
    rw [fAdd_inf_inf hx hy, fSub_inf_inf hx hy, fDiv_inf_inf hx hy, fIsNaN_fNaN]
    refine ⟨fun h => ?_, fun h => ?_, fMul_inf_inf hx hy, rfl⟩
    · rw [if_pos h, if_pos h, fIsNaN_fNaN]; exact ⟨rfl, rfl⟩
    · rw [if_neg h, if_neg h, fIsNaN_fNaN]; exact ⟨rfl, rfl⟩

/-- Settles O36: the nearest whole number is a number of the format, so rounding it changes nothing. -/
theorem roundHalfAwayFromZero : Obligations.RoundHalfAwayFromZero := by
  unfold Obligations.RoundHalfAwayFromZero
  exact fun x => ⟨roundHA_of_finite, roundHA_of_not_finite⟩

/-- Settles O37, one clause for each kind of operand. -/
theorem toUnsignedSaturates : Obligations.ToUnsignedSaturates := by
  unfold Obligations.ToUnsignedSaturates
  exact fun n x => ⟨toU_of_not_pos n, toU_of_finite n, toU_of_inf n⟩

end Sys2Proof.Machine
end

section
/-! Bounds on what the commands write: the number of bytes of a hash and of an image, the sizes, and
the ranges of the colour components and of the ratio (R39 to R43, R115, R280). -/

namespace Sys2Proof.Machine

/-! ### Numbers in a range -/

theorem fLe_zero_of_sign {x : F32} (hn : fIsNaN x = false) (hs : fSign x = false) :
    fLe 0 x = true := by
  rw [fLe_iff, fKey_zero, fKey, hs]
  exact ⟨by decide, hn, by simp⟩

theorem inUnit_zero : inUnit 0 := by unfold inUnit; decide

theorem inUnit_one : inUnit fOne := by unfold inUnit; decide

/-- R17: the clamp gives a number in [0, 1] for every operand, NaN and the infinities among them. -/
theorem inUnit_clamp01 (x : F32) : inUnit (clamp01 x) := by
  unfold clamp01
  split_ifs with pos big
  · exact inUnit_one
  · obtain ⟨h0, hx, lt⟩ := fLt_iff.1 pos
    rw [fLt_eq (by decide) hx, decide_eq_true_iff, not_lt] at big
    exact ⟨fLe_iff.2 ⟨h0, hx, lt.le⟩, fLe_iff.2 ⟨hx, by decide, big⟩⟩
  · exact inUnit_zero

/-- A quotient of natural numbers is rounded once, and rounding does not pass 1. -/
theorem inUnit_div {m n : Nat} (hn : n < 2 ^ 24) (pos : 0 < n) (le : m ≤ n) :
    inUnit (fDiv (f32 m) (f32 n)) := by
  obtain ⟨sm, fm, um⟩ := f32_units (le.trans_lt hn)
  obtain ⟨sn, fn, un⟩ := f32_units hn
  have upos : 0 < fUnits (f32 n) := by rw [un]; positivity
  have one_units : magUnits (fMag fOne) = 2 ^ 149 := by decide +kernel
  have one_finite : fFinite fOne := by unfold fFinite; decide
  have one_sign : fSign fOne = false := by decide
  have bound : fUnits (f32 m) * 2 ^ 149 ≤ magUnits (fMag fOne) * fUnits (f32 n) := by
    rw [one_units, um, un, Nat.mul_comm]
    gcongr
  obtain ⟨fin, units⟩ := fRound_le_units false upos one_finite bound
  rw [fDiv_finite fm fn upos.ne', sm, sn, bne_self_eq_false]
  refine ⟨fLe_zero_of_sign (fRound_not_nan _ _ _) (fRound_sign _ _ _), ?_⟩
  rw [fLe_finite_iff fin one_finite, fInt, fInt, fRound_sign, one_sign]
  simpa [fUnits] using units

/-- A quotient of natural numbers that are not both 0 is a number that is not negative, infinity
when the divisor is 0. -/
theorem div_not_neg {m n : Nat} (hm : m < 2 ^ 24) (hn : n < 2 ^ 24) (h : m ≠ 0 ∨ n ≠ 0) :
    fLe 0 (fDiv (f32 m) (f32 n)) = true := by
  obtain ⟨sm, fm, um⟩ := f32_units hm
  obtain ⟨sn, fn, un⟩ := f32_units hn
  rcases Nat.eq_zero_or_pos n with rfl | pos
  · have um0 : fUnits (f32 m) ≠ 0 := by rw [um]; simpa using h
    rw [fDiv_zero_divisor fm fn (by rw [un, Nat.zero_mul]), if_neg um0, sm, sn]
    decide
  · have upos : fUnits (f32 n) ≠ 0 := by rw [un]; positivity
    rw [fDiv_finite fm fn upos, sm, sn, bne_self_eq_false]
    exact fLe_zero_of_sign (fRound_not_nan _ _ _) (fRound_sign _ _ _)

/-- R266, R267: the alpha DC is k / 15 with k at most 15, or 1. -/
theorem inUnit_alphaDcOf (h : Header) : inUnit (alphaDcOf h) := by
  unfold alphaDcOf
  cases h.alpha with
  | none => exact inUnit_one
  | some a =>
    have := a.aDc.isLt
    exact inUnit_div (by norm_num) (by norm_num) (by omega)

/-- R108: an L grid dimension is at most 7, and the one on the long axis is not 0. -/
theorem lGridOf_bounds (h : Header) :
    (lGridOf h).1 ≤ 7 ∧ (lGridOf h).2 ≤ 7 ∧ ((lGridOf h).1 ≠ 0 ∨ (lGridOf h).2 ≠ 0) := by
  have lmax : 5 ≤ lMaxOf h.hasAlpha ∧ lMaxOf h.hasAlpha ≤ 7 := by cases h.hasAlpha <;> decide
  have lmin := h.lMin.isLt
  unfold lGridOf
  split <;> dsimp only <;> omega

/-- R43, R251: the ratio of a header is not negative; it is infinity when l_min on the y axis is 0.
-/
theorem ratioOf_not_neg (h : Header) : fLe 0 (ratioOf h) = true := by
  obtain ⟨hx, hy, h0⟩ := lGridOf_bounds h
  exact div_not_neg (by omega) (by omega) h0

/-! ### Lengths -/

/-- R115: the bytes of a hash by its flag and its L grid, for every grid within the limits. -/
theorem hashBytes_le (a : Bool) :
    ∀ x ≤ lMaxOf a, ∀ y ≤ lMaxOf a, Config.headerBytes a + (nTotalOf a (x, y) + 1) / 2 ≤ 25 := by
  cases a <;> decide

/-- R115, R143: the hash of an image of legal size has at most 25 bytes. -/
theorem encodeHash_length_le (cos : F32 → F32) {w h n : Nat} (hc : contractOk w h n = true)
    (px : List Byte) : (encodeHash cos w h px).length ≤ 25 := by
  obtain ⟨hw, hh, hw0, hh0, -⟩ := (contractOk_iff w h n).1 hc
  unfold encodeHash
  rw [pack_length (headerOf_wellFormed _ _ _), nibblesOf_length]
  obtain ⟨⟨-, hx⟩, -, hy⟩ := lGrid_bounds (transform cos w h (toPixels px)).hasAlpha
    (Nat.pos_of_ne_zero hw0) hw (Nat.pos_of_ne_zero hh0) hh
  exact hashBytes_le _ _ hx _ hy

/-- R286: an image of width w and height h has four bytes for each pixel. -/
theorem inverseDct_length (cos : F32 → F32) (v : DeqImage) (w h : Nat) :
    (inverseDct cos v w h).length = w * h * 4 := by
  simp [inverseDct, List.length_flatMap, pixelBytes]
  ring

end Sys2Proof.Machine
end

section
/-! What a completion step writes, with the bounds on it, and the two groups of rules a step keeps
its invariants by: the completion step's and the host's. -/

namespace Sys2Proof.Machine

/-! ### The writes of a completion step -/

/-- OUT_W and OUT_H of a decoded image (R280). -/
def imageSizeLegal (w h : Nat) : Prop := (w = 32 ∧ h ≤ 32) ∨ (h = 32 ∧ w ≤ 32)

/-- What a command's outputs can turn a state into (R141 to R146). -/
inductive Writes (s : State) : Instr → State → Prop
  | nop : Writes s .nop s
  | encode (hash : List Byte) : hash.length ≤ 25 → Writes s .encode (s.writeHash hash)
  | decode (w h : Nat) (rgba : List Byte) : imageSizeLegal w h → rgba.length ≤ 4096 →
      Writes s .decode (s.writeImage w h rgba)
  | averageColor (r g b a : F32) : inUnit r → inUnit g → inUnit b → inUnit a →
      Writes s .averageColor (s.writeAverage r g b a)
  | aspectRatio (r : F32) : fLe 0 r = true → Writes s .aspectRatio (s.writeAspect r)

/-- R144, R280: a decoded image has a legal size and fits PIXOUT. -/
theorem decodeHash_bounds {cos : F32 → F32} {hb : List Byte} {im : Image}
    (h : decodeHash cos hb = .ok im) : imageSizeLegal im.w im.h ∧ im.rgba.length ≤ 4096 := by
  rcases decodeHash_cases cos hb with ⟨-, e⟩ | ⟨-, -, -, e⟩ | ⟨hdr, im', -, -, e, size, rgba⟩ <;>
    rw [e] at h <;> cases h
  obtain ⟨hw, hh, long⟩ := outputSize_bounds hdr
  rw [size] at hw hh long
  refine ⟨?_, ?_⟩
  · unfold imageSizeLegal; omega
  · rw [rgba, inverseDct_length]
    have : im.w * im.h ≤ 32 * 32 := Nat.mul_le_mul hw hh
    omega

/-- R145: the components of an average colour are in [0, 1]. -/
theorem averageFromHash_inUnit {hb : List Byte} {c : Rgba} (h : averageFromHash hb = .ok c) :
    inUnit c.r ∧ inUnit c.g ∧ inUnit c.b ∧ inUnit c.a := by
  rcases averageFromHash_cases hb with ⟨-, e⟩ | ⟨hdr, -, e⟩ <;> rw [e] at h <;> cases h
  exact ⟨inUnit_clamp01 _, inUnit_clamp01 _, inUnit_clamp01 _, inUnit_alphaDcOf hdr⟩

/-- R146: an aspect ratio is not negative. -/
theorem aspectRatio_not_neg {hb : List Byte} {r : F32} (h : aspectRatio hb = .ok r) :
    fLe 0 r = true := by
  rcases aspectRatio_cases hb with ⟨-, e⟩ | ⟨-, hdr, -, e⟩ <;> rw [e] at h <;> cases h
  exact ratioOf_not_neg hdr

/-- R140: a command takes an error and writes nothing, or writes its outputs and completes with OK.
-/
theorem exec_writes {i : Instr} {s t : State} (h : exec i s = .next t) :
    (∃ e, t = s.takeError e) ∨ ∃ u, Writes s i u ∧ t = u.complete .ok := by
  rcases exec_cases h with ⟨rfl, e⟩ | ⟨-, -, e⟩ | ⟨rfl, hc, e⟩ | ⟨-, -, e⟩ | ⟨rfl, im, him, e⟩ |
    ⟨-, -, e⟩ | ⟨rfl, c, hc, e⟩ | ⟨-, -, e⟩ | ⟨rfl, r, hr, e⟩
  · exact .inr ⟨_, .nop, e⟩
  · exact .inl ⟨_, e⟩
  · exact .inr ⟨_, .encode _ (encodeHash_length_le _ hc _), e⟩
  · exact .inl ⟨_, e⟩
  · obtain ⟨size, len⟩ := decodeHash_bounds him
    exact .inr ⟨_, .decode _ _ _ size len, e⟩
  · exact .inl ⟨_, e⟩
  · obtain ⟨hr, hg, hb, ha⟩ := averageFromHash_inUnit hc
    exact .inr ⟨_, .averageColor _ _ _ _ hr hg hb ha, e⟩
  · exact .inl ⟨_, e⟩
  · exact .inr ⟨_, .aspectRatio _ (aspectRatio_not_neg hr), e⟩

/-- R50: a completion step sets DONE. -/
theorem exec_done {i : Instr} {s t : State} (h : exec i s = .next t) : t.done = true := by
  rcases exec_writes h with ⟨e, rfl⟩ | ⟨u, -, rfl⟩ <;> rfl

/-! ### What the steps keep -/

/-- What every operation of the host but the assertion of reset keeps: what does not rest on the
host and the draw counter, and what a write on the bus and the release of reset keep. -/
theorem hostOp_keeps {P : State → Prop}
    (uncounted : ∀ s d h, P s → P { s with draws := d, host := h })
    (write : ∀ s o n v, P s → P (memWrite s o n v).1)
    (release : ∀ s, P s → P s.releaseReset)
    {s : State} {op : HostOp} (hop : op ≠ .rst true) (hs : P s) : P (hostOp s op) := by
  obtain ⟨h, e | e | ⟨o, n, v, e⟩ | ⟨e, -⟩ | ⟨-, e⟩⟩ := hostOp_cases s op
  · rw [e]; exact uncounted s _ h hs
  · rw [e]; exact uncounted s _ h hs
  · rw [e]; exact uncounted _ _ h (write s o n v hs)
  · exact absurd e hop
  · rw [e]; exact uncounted _ _ h (release s hs)

theorem hostOp_rst_true (s : State) :
    hostOp s (.rst true) = { s.assertReset with host := advance s.host } := rfl

/-- What a step keeps: what a host's bus cycle keeps, what reset brings about, and what the
completion of a due command and of an illegal word keeps. -/
theorem step_keeps {P : State → Prop}
    (uncounted : ∀ s d h, P s → P { s with draws := d, host := h })
    (waits : ∀ s, P s → P (tick s))
    (write : ∀ s o n v, P s → P (memWrite s o n v).1)
    (asserted : ∀ s : State, P s.assertReset)
    (release : ∀ s, P s → P s.releaseReset)
    (error : ∀ s e, s.wait = 0 → P s → P (s.takeError e))
    (completes : ∀ s i u, s.wait = 0 → Writes s i u → P s → P (u.complete .ok))
    {s t : State} (hs : P s) (h : step s = .next t) : P t := by
  rcases step_cases h with ⟨-, -, hw, ⟨i, -, hx⟩ | ⟨e, -, rfl⟩⟩ | ⟨-, rfl⟩
  · rcases exec_writes hx with ⟨e, rfl⟩ | ⟨u, hu, rfl⟩
    · exact error s e hw hs
    · exact completes s i u hw hu hs
  · exact error s _ hw hs
  · have ht := waits s hs
    rcases hostStep_cases (tick s) with ⟨-, e⟩ | ⟨op, -, -, e⟩ <;> rw [e]
    · exact ht
    · by_cases hop : op = .rst true
      · subst hop
        exact uncounted _ _ (advance s.host) (asserted (tick s))
      · exact hostOp_keeps uncounted write release hop ht

end Sys2Proof.Machine
end

section
/-! What a write on the bus leaves unchanged: the memory outside the bytes stored in HASHBUF or
PIXIN, and the results that only commands write (R75, R84, R85). -/

namespace Sys2Proof.Machine

/-- R84: the guarded registers by their offsets. -/
theorem isGuardedAt_reg (r : Reg) : isGuardedAt (regOffset r) = regIsGuarded r := by
  cases r <;> rfl

/-- PIXOUT, OUT_W and OUT_H are the same in two states (R40, R41). -/
structure SameImage (s t : State) : Prop where
  outW : t.outW = s.outW
  outH : t.outH = s.outH
  pixout : ∀ a, 0x1000 ≤ a → a < 0x2000 → t.readByte a = s.readByte a

/-- The AVG registers are the same in two states (R42). -/
structure SameAverage (s t : State) : Prop where
  avgR : t.avgR = s.avgR
  avgG : t.avgG = s.avgG
  avgB : t.avgB = s.avgB
  avgA : t.avgA = s.avgA

/-- Every result that only a command writes is the same in two states (R85). -/
structure SameResults (s t : State) : Prop where
  image : SameImage s t
  average : SameAverage s t
  aspect : t.aspect = s.aspect

theorem SameImage.of_mem {s t : State} (hw : t.outW = s.outW) (hh : t.outH = s.outH)
    (hm : t.mem = s.mem) (hr : t.resets = s.resets) : SameImage s t :=
  ⟨hw, hh, fun a _ _ => readByte_congr hm hr a⟩

theorem SameImage.trans {s t u : State} (h : SameImage s t) (h' : SameImage t u) :
    SameImage s u :=
  ⟨h'.outW.trans h.outW, h'.outH.trans h.outH,
    fun a lo hi => (h'.pixout a lo hi).trans (h.pixout a lo hi)⟩

theorem SameAverage.trans {s t u : State} (h : SameAverage s t) (h' : SameAverage t u) :
    SameAverage s u :=
  ⟨h'.avgR.trans h.avgR, h'.avgG.trans h.avgG, h'.avgB.trans h.avgB, h'.avgA.trans h.avgA⟩

theorem SameResults.refl (s : State) : SameResults s s :=
  ⟨.of_mem rfl rfl rfl rfl, ⟨rfl, rfl, rfl, rfl⟩, rfl⟩

theorem SameResults.trans {s t u : State} (h : SameResults s t) (h' : SameResults t u) :
    SameResults s u :=
  ⟨h.image.trans h'.image, h.average.trans h'.average, h'.aspect.trans h.aspect⟩

/-- A write to a register stores no byte, counts no reset and changes no result that only a command
writes (R85). -/
theorem writeReg_keeps (s : State) (v : Word) (r : Reg) :
    (writeReg s v r).mem = s.mem ∧ SameResults s (writeReg s v r) := by
  have same : ∀ t : State, t.outW = s.outW → t.outH = s.outH → t.mem = s.mem →
      t.resets = s.resets → SameAverage s t → t.aspect = s.aspect →
      t.mem = s.mem ∧ SameResults s t :=
    fun t w h m n avg asp => ⟨m, ⟨.of_mem w h m n, avg, asp⟩⟩
  cases r
  case cmd =>
    simp only [writeReg, State.offerCommand]
    split <;> exact same _ rfl rfl rfl rfl ⟨rfl, rfl, rfl, rfl⟩ rfl
  all_goals exact same _ rfl rfl rfl rfl ⟨rfl, rfl, rfl, rfl⟩ rfl

/-- The memory after a write on the bus: as before, or, while no command runs, with the value's
bytes stored inside HASHBUF or PIXIN. -/
theorem memWrite_mem (s : State) (o : Offset) (n : Nat) (v : Word) :
    (memWrite s o n v).1.mem = s.mem ∨
      ∃ bs : List Byte, s.phase = .idle ∧
        (memWrite s o n v).1.mem = storeBytes s.mem o.toNat bs ∧
        ((0x100 ≤ o.toNat ∧ o.toNat + bs.length ≤ 0x120) ∨
          (0x10000 ≤ o.toNat ∧ o.toNat + bs.length ≤ 0x19C40)) := by
  rcases memWrite_cases s o n v with ⟨-, e⟩ | ⟨-, -, -, -, e⟩ |
    ⟨-, ok, -, ⟨-, r, -, e⟩ | ⟨-, e⟩ | ⟨region, idle, e⟩⟩ <;> rw [e]
  · exact .inl rfl
  · exact .inl rfl
  · exact .inl (writeReg_keeps s v r).1
  · exact .inl rfl
  · refine .inr ⟨_, idle, rfl, ?_⟩
    obtain ⟨-, -, fits⟩ := accessOk_fits ok
    have len : ((wordBytes v).take n).length ≤ n := by simp
    rcases region with hr | hr <;> rw [hr] at fits <;>
      simp only [regionEnd, Config.hashBase, Config.hashSize, Config.pixinBase,
        Config.pixinSize] at fits
    · exact .inl ⟨(regionOf_hashbuf.1 hr).1, by omega⟩
    · exact .inr ⟨(regionOf_pixin.1 hr).1, by omega⟩

/-- R85: no write on the bus changes a result that only a command writes; HASHBUF and PIXIN, where
it stores bytes, lie outside PIXOUT. -/
theorem memWrite_results (s : State) (o : Offset) (n : Nat) (v : Word) :
    SameResults s (memWrite s o n v).1 := by
  have stored := memWrite_mem s o n v
  rcases memWrite_cases s o n v with ⟨-, e⟩ | ⟨-, -, -, -, e⟩ |
    ⟨-, -, -, ⟨-, r, -, e⟩ | ⟨-, e⟩ | ⟨-, -, e⟩⟩ <;> rw [e] at stored ⊢
  · exact .refl s
  · exact ⟨.of_mem rfl rfl rfl rfl, ⟨rfl, rfl, rfl, rfl⟩, rfl⟩
  · exact (writeReg_keeps s v r).2
  · exact .refl s
  · refine ⟨⟨rfl, rfl, fun a lo hi => ?_⟩, ⟨rfl, rfl, rfl, rfl⟩, rfl⟩
    rcases stored with hm | ⟨bs, -, hm, range⟩
    · exact readByte_congr hm rfl a
    · rw [readByte_store hm rfl, if_neg (by omega)]

end Sys2Proof.Machine
end

section
/-! What a write on the bus does to the sequencer and to the inputs of a running command
(R49, R50, R84). -/

namespace Sys2Proof.Machine

/-- R49: a write on the bus accepts a command while none runs, or leaves the sequencer as it is,
except that a write to STATUS can clear DONE. -/
theorem memWrite_sequencer (s : State) (o : Offset) (n : Nat) (v : Word) :
    (s.phase = .idle ∧ (memWrite s o n v).1 = s.accept v) ∨
      ((memWrite s o n v).1.phase = s.phase ∧ (memWrite s o n v).1.err = s.err ∧
        (memWrite s o n v).1.wait = s.wait ∧
        ((memWrite s o n v).1.done = true → s.done = true)) := by
  rcases memWrite_cases s o n v with ⟨-, e⟩ | ⟨-, -, -, -, e⟩ |
    ⟨-, -, guard, ⟨-, r, hr, e⟩ | ⟨-, e⟩ | ⟨-, -, e⟩⟩ <;> rw [e]
  case inr.inr.inl =>
    cases r
    case cmd =>
      rw [hr, isGuardedAt_reg] at guard
      have idle : s.phase = .idle := guard.resolve_right (by decide)
      exact .inl ⟨idle, offerCommand_idle idle v⟩
    case status => exact .inr ⟨rfl, rfl, rfl, fun h => (Bool.and_eq_true_iff.1 h).1⟩
    all_goals exact .inr ⟨rfl, rfl, rfl, id⟩
  all_goals exact .inr ⟨rfl, rfl, rfl, id⟩

/-- HASH_LEN after a write on the bus. -/
theorem memWrite_hashLen (s : State) (o : Offset) (n : Nat) (v : Word) :
    (memWrite s o n v).1.hashLen = s.hashLen ∨
      (memWrite s o n v).1.hashLen = hashLenOfWrite v := by
  rcases memWrite_cases s o n v with ⟨-, e⟩ | ⟨-, -, -, -, e⟩ |
    ⟨-, -, -, ⟨-, r, -, e⟩ | ⟨-, e⟩ | ⟨-, -, e⟩⟩ <;> rw [e]
  case inr.inr.inl =>
    cases r
    case cmd => simp only [writeReg, State.offerCommand]; split <;> exact .inl rfl
    case hashLen => exact .inr rfl
    all_goals exact .inl rfl
  all_goals exact .inl rfl

/-- R39: HASH_LEN takes the smaller of the value and 32. -/
theorem hashLenOfWrite_toNat (v : Word) : (hashLenOfWrite v).toNat = min v.toNat 32 := by
  have : min v.toNat 32 < 2 ^ 6 := by omega
  rw [hashLenOfWrite, Config.hashSize, BitVec.toNat_ofNat, Nat.mod_eq_of_lt this]

/-- A state in which the command that runs in `s` still runs, with the same command word, inputs and
buffers (R50). -/
structure SameCommand (s t : State) : Prop where
  phase : t.phase = s.phase
  oplatch : t.oplatch = s.oplatch
  imgW : t.imgW = s.imgW
  imgH : t.imgH = s.imgH
  inLen : t.inLen = s.inLen
  hashLen : t.hashLen = s.hashLen
  mem : t.mem = s.mem
  resets : t.resets = s.resets

theorem SameCommand.refl (s : State) : SameCommand s s :=
  ⟨rfl, rfl, rfl, rfl, rfl, rfl, rfl, rfl⟩

theorem SameCommand.trans {s t u : State} (h : SameCommand s t) (h' : SameCommand t u) :
    SameCommand s u :=
  ⟨h'.phase.trans h.phase, h'.oplatch.trans h.oplatch, h'.imgW.trans h.imgW, h'.imgH.trans h.imgH,
    h'.inLen.trans h.inLen, h'.hashLen.trans h.hashLen, h'.mem.trans h.mem,
    h'.resets.trans h.resets⟩

/-- R84: the writes to registers that take effect while a command runs reach none of its inputs. -/
theorem writeReg_unguarded (s : State) (v : Word) {r : Reg} (h : regIsGuarded r = false) :
    SameCommand s (writeReg s v r) := by
  cases r
  case cmd | imgW | imgH | inLen | hashLen => cases h
  all_goals exact ⟨rfl, rfl, rfl, rfl, rfl, rfl, rfl, rfl⟩

/-- R84: while a command runs, no write on the bus reaches its inputs. -/
theorem memWrite_busy {s : State} (busy : s.phase = .busy) (o : Offset) (n : Nat) (v : Word) :
    SameCommand s (memWrite s o n v).1 := by
  have running : s.phase ≠ .idle := by rw [busy]; decide
  rcases memWrite_cases s o n v with ⟨-, e⟩ | ⟨-, -, -, -, e⟩ |
    ⟨-, -, guard, ⟨-, r, hr, e⟩ | ⟨-, e⟩ | ⟨-, idle, e⟩⟩ <;> rw [e]
  · exact .refl s
  · exact ⟨rfl, rfl, rfl, rfl, rfl, rfl, rfl, rfl⟩
  · rw [hr, isGuardedAt_reg] at guard
    exact writeReg_unguarded s v (guard.resolve_left running)
  · exact .refl s
  · exact absurd idle running

/-- R50: while a command runs, no operation of the host but the assertion of reset reaches its
inputs. -/
theorem hostOp_busy {s : State} {op : HostOp} (busy : s.phase = .busy) (hop : op ≠ .rst true) :
    SameCommand s (hostOp s op) := by
  refine hostOp_keeps (P := SameCommand s) ?uncounted ?write ?release hop (.refl s)
  case uncounted => exact fun u d h hu => hu.trans ⟨rfl, rfl, rfl, rfl, rfl, rfl, rfl, rfl⟩
  case write => exact fun u o n v hu => hu.trans (memWrite_busy (hu.phase.trans busy) o n v)
  case release => exact fun u hu => hu.trans ⟨rfl, rfl, rfl, rfl, rfl, rfl, rfl, rfl⟩

/-- R85: no operation of the host but the assertion of reset changes a result that only a command
writes. -/
theorem hostOp_results (s : State) {op : HostOp} (hop : op ≠ .rst true) :
    SameResults s (hostOp s op) := by
  refine hostOp_keeps (P := SameResults s) ?uncounted ?write ?release hop (.refl s)
  case uncounted =>
    exact fun u d h hu => hu.trans ⟨.of_mem rfl rfl rfl rfl, ⟨rfl, rfl, rfl, rfl⟩, rfl⟩
  case write => exact fun u o n v hu => hu.trans (memWrite_results u o n v)
  case release =>
    exact fun u hu => hu.trans ⟨.of_mem rfl rfl rfl rfl, ⟨rfl, rfl, rfl, rfl⟩, rfl⟩

/-- The assertion of reset is seen in the level of the reset input after it. -/
theorem hostOp_rst_level {s : State} {op : HostOp} (h : (hostOp s op).rst = false) :
    op ≠ .rst true := by
  rintro rfl
  rw [hostOp_rst_true] at h
  exact absurd h (by simp)

end Sys2Proof.Machine
end

section
/-! The invariants of the step (R34, R39 to R43, R45, R49, R70, R280). -/

namespace Sys2Proof.Machine

/-- R70: every byte from HASHBUF's, PIXOUT's or PIXIN's first to its last is a buffer byte. -/
theorem inBuffers_of_range {a : Nat}
    (h : (0x100 ≤ a ∧ a < 0x120) ∨ (0x1000 ≤ a ∧ a < 0x2000) ∨ (0x10000 ≤ a ∧ a < 0x19C40)) :
    inBuffers a = true := by
  rw [← regionOf_hashbuf, ← regionOf_pixout, ← regionOf_pixin] at h
  rcases h with h | h | h <;> simp [inBuffers, h]

/-- A store inside one buffer keeps the memory legal. -/
theorem memoryLegal_store {s t : State} {base : Nat} {bs : List Byte} (hs : memoryLegal s)
    (hm : t.mem = storeBytes s.mem base bs)
    (range : (0x100 ≤ base ∧ base + bs.length ≤ 0x120) ∨
      (0x1000 ≤ base ∧ base + bs.length ≤ 0x2000) ∨
      (0x10000 ≤ base ∧ base + bs.length ≤ 0x19C40)) : memoryLegal t := by
  obtain ⟨wf, listed⟩ := hs
  rw [memoryLegal, hm]
  refine ⟨storeBytes_wf wf base bs, fun c hc => ?_⟩
  rcases mem_storeBytes hc with old | new
  · exact listed c old
  · exact inBuffers_of_range (by omega)

/-- What memoryLegal says depends on the memory alone. -/
theorem memoryLegal_congr {s t : State} (hs : memoryLegal s) (hm : t.mem = s.mem) :
    memoryLegal t := by
  rwa [memoryLegal, hm]

theorem memoryLegal_reset : memoryLegal State.reset :=
  ⟨List.Pairwise.nil, fun _ h => absurd h List.not_mem_nil⟩

theorem memWrite_memoryLegal {s : State} (hs : memoryLegal s) (o : Offset) (n : Nat) (v : Word) :
    memoryLegal (memWrite s o n v).1 := by
  rcases memWrite_mem s o n v with hm | ⟨bs, -, hm, range⟩
  · exact memoryLegal_congr hs hm
  · exact memoryLegal_store hs hm (by omega)

/-- A hash fills HASHBUF and an image fills PIXOUT exactly. -/
theorem writes_memoryLegal {s u : State} {i : Instr} (hs : memoryLegal s) (h : Writes s i u) :
    memoryLegal u := by
  cases h with
  | encode hash len =>
    refine memoryLegal_store hs rfl (.inl ?_)
    rw [zeroPadded_length, Config.hashBase, Config.hashSize]; omega
  | decode w h rgba size len =>
    refine memoryLegal_store hs rfl (.inr (.inl ?_))
    rw [zeroPadded_length, Config.pixoutBase, Config.pixoutSize]; omega
  | nop | averageColor | aspectRatio => exact memoryLegal_congr hs rfl

/-- Settles O56: each store of the host and of a command lies inside one buffer. -/
theorem stepKeepsMemoryLegal : Obligations.StepKeepsMemoryLegal := by
  unfold Obligations.StepKeepsMemoryLegal
  refine fun s t hs h => step_keeps ?uncounted ?waits ?write ?asserted ?release ?error
    ?completes hs h
  case uncounted | waits | release => intros; exact memoryLegal_congr ‹_› rfl
  case write => exact fun _ o n v hs => memWrite_memoryLegal hs o n v
  case asserted => exact fun _ => memoryLegal_reset
  case error => exact fun _ _ _ hs => hs
  case completes => exact fun _ _ u _ hu hs => writes_memoryLegal (u := u) hs hu

/-- What holds of every result register (R39 to R43). -/
def resultsLegal (s : State) : Prop :=
  hashLenLegal s ∧ outSizeLegal s ∧ averageLegal s ∧ aspectLegal s

/-- The result registers of a state with the same results, but perhaps another HASH_LEN. -/
theorem resultsLegal_congr {s t : State} (hs : resultsLegal s) (hr : SameResults s t)
    (hl : hashLenLegal t) : resultsLegal t := by
  obtain ⟨-, size, average, aspect⟩ := hs
  refine ⟨hl, ?_, ?_, ?_⟩
  · rwa [outSizeLegal, hr.image.outW, hr.image.outH]
  · rwa [averageLegal, hr.average.avgR, hr.average.avgG, hr.average.avgB, hr.average.avgA]
  · rwa [aspectLegal, hr.aspect]

theorem resultsLegal_reset : resultsLegal State.reset := by
  refine ⟨?_, .inl ⟨rfl, rfl⟩, ⟨inUnit_zero, inUnit_zero, inUnit_zero, inUnit_zero⟩, inUnit_zero.1⟩
  unfold hashLenLegal; decide

theorem memWrite_resultsLegal {s : State} (hs : resultsLegal s) (o : Offset) (n : Nat) (v : Word) :
    resultsLegal (memWrite s o n v).1 := by
  refine resultsLegal_congr hs (memWrite_results s o n v) ?_
  rcases memWrite_hashLen s o n v with e | e <;> rw [hashLenLegal, e]
  · exact hs.1
  · rw [hashLenOfWrite_toNat]; exact min_le_right _ _

theorem outSizeLegal_writeImage (s : State) {w h : Nat} (rgba : List Byte)
    (size : imageSizeLegal w h) : outSizeLegal (s.writeImage w h rgba) := by
  have small : ∀ {n : Nat}, n ≤ 32 → (BitVec.ofNat 6 n).toNat ≤ 32 := fun hn => by
    rw [BitVec.toNat_ofNat]; omega
  rcases size with ⟨rfl, hh⟩ | ⟨rfl, hw⟩
  · exact .inr (.inl ⟨rfl, small hh⟩)
  · exact .inr (.inr ⟨rfl, small hw⟩)

theorem writes_resultsLegal {s u : State} {i : Instr} (hs : resultsLegal s) (h : Writes s i u) :
    resultsLegal u := by
  obtain ⟨len, size, average, aspect⟩ := hs
  cases h with
  | nop => exact ⟨len, size, average, aspect⟩
  | encode hash hash_len =>
    refine ⟨?_, size, average, aspect⟩
    rw [hashLenLegal, State.writeHash_hashLen, BitVec.toNat_ofNat, Config.hashSize]; omega
  | decode w h rgba hwh => exact ⟨len, outSizeLegal_writeImage s rgba hwh, average, aspect⟩
  | averageColor r g b a hr hg hb ha => exact ⟨len, size, ⟨hr, hg, hb, ha⟩, aspect⟩
  | aspectRatio r hr => exact ⟨len, size, average, hr⟩

/-- Settles O57: what a command writes is legal by the bounds of its sub-blocks, a write to HASH_LEN
by its minimum. -/
theorem stepKeepsResultsLegal : Obligations.StepKeepsResultsLegal := by
  unfold Obligations.StepKeepsResultsLegal
  refine fun s t hs h => step_keeps (P := resultsLegal) ?uncounted ?waits ?write ?asserted
    ?release ?error ?completes hs h
  case uncounted | waits | release => intros; assumption
  case write => exact fun _ o n v hs => memWrite_resultsLegal hs o n v
  case asserted => exact fun _ => resultsLegal_reset
  case error => exact fun _ _ _ hs => hs
  case completes => exact fun _ _ u _ hu hs => writes_resultsLegal (u := u) hs hu

theorem sequencerLegal_reset : sequencerLegal State.reset :=
  ⟨fun h => absurd h (by decide), fun _ => rfl⟩

theorem memWrite_sequencerLegal {s : State} (hs : sequencerLegal s) (o : Offset) (n : Nat)
    (v : Word) : sequencerLegal (memWrite s o n v).1 := by
  obtain ⟨running, idle⟩ := hs
  rcases memWrite_sequencer s o n v with ⟨-, e⟩ | ⟨hp, he, hw, hd⟩
  · rw [e]
    exact ⟨fun _ => ⟨rfl, rfl⟩, fun h => absurd h (by simp)⟩
  · rw [sequencerLegal, hp, he, hw]
    refine ⟨fun busy => ⟨?_, (running busy).2⟩, idle⟩
    rw [← Bool.not_eq_true]
    exact fun h => absurd (hd h) (by simp [(running busy).1])

/-- A completed command leaves the sequencer legal: idle, with its latency passed. -/
theorem sequencerLegal_complete {s : State} (c : ResultCode) (hw : s.wait = 0) :
    sequencerLegal (s.complete c) :=
  ⟨fun h => absurd h (by simp), fun _ => hw⟩

theorem writes_wait {s u : State} {i : Instr} (h : Writes s i u) : u.wait = s.wait := by
  cases h <;> rfl

/-- Settles O58: an acceptance clears DONE and ERR, nothing sets them while BUSY, and a completion
step comes when the latency has passed. -/
theorem stepKeepsSequencerLegal : Obligations.StepKeepsSequencerLegal := by
  unfold Obligations.StepKeepsSequencerLegal
  refine fun s t hs h => step_keeps ?uncounted ?waits ?write ?asserted ?release ?error
    ?completes hs h
  case uncounted | release => intros; assumption
  case waits => exact fun s hs => ⟨hs.1, fun idle => by simp [hs.2 idle]⟩
  case write => exact fun _ o n v hs => memWrite_sequencerLegal hs o n v
  case asserted => exact fun _ => sequencerLegal_reset
  case error => exact fun _ e hw _ => sequencerLegal_complete (codeOf e) hw
  case completes =>
    exact fun _ _ _ hw hu _ => sequencerLegal_complete .ok ((writes_wait hu).trans hw)

/-- Settles O60: no byte is listed, every result is 0, and the sequencer is idle with no latency. -/
theorem resetStateIsLegal : Obligations.ResetStateIsLegal := by
  unfold Obligations.ResetStateIsLegal
  obtain ⟨len, size, average, aspect⟩ := resultsLegal_reset
  exact ⟨memoryLegal_reset, len, size, average, aspect, sequencerLegal_reset,
    fun _ => rfl⟩

end Sys2Proof.Machine
end

section
/-! The whole-machine rules on results and on BUSY (R34, R40 to R43, R46, R50, R84, R85). -/

namespace Sys2Proof.Machine

/-- Settles O50. -/
theorem inputsHeldWhileBusy : Obligations.InputsHeldWhileBusy := by
  unfold Obligations.InputsHeldWhileBusy
  intro s op busy hop
  have held := hostOp_busy busy hop
  exact ⟨held.phase.trans busy, held.oplatch, held.imgW, held.imgH, held.inLen, held.hashLen,
    held.mem, held.resets⟩

/-- Which results a completion step can change, by its command. -/
theorem exec_results {i : Instr} {s t : State} (h : exec i s = .next t) :
    (SameImage s t ∨ (i = .decode ∧ t.err = .ok)) ∧
      (SameAverage s t ∨ (i = .averageColor ∧ t.err = .ok)) ∧
      (t.aspect = s.aspect ∨ (i = .aspectRatio ∧ t.err = .ok)) := by
  rcases exec_writes h with ⟨e, rfl⟩ | ⟨u, hu, rfl⟩
  · exact ⟨.inl (.of_mem rfl rfl rfl rfl), .inl ⟨rfl, rfl, rfl, rfl⟩, .inl rfl⟩
  · cases hu with
    | nop => exact ⟨.inl (.of_mem rfl rfl rfl rfl), .inl ⟨rfl, rfl, rfl, rfl⟩, .inl rfl⟩
    | encode hash len =>
      refine ⟨.inl ⟨rfl, rfl, fun a lo _ => ?_⟩, .inl ⟨rfl, rfl, rfl, rfl⟩, .inl rfl⟩
      rw [readByte_complete, readByte_writeHash, if_neg (by omega)]
    | decode w h rgba => exact ⟨.inr ⟨rfl, rfl⟩, .inl ⟨rfl, rfl, rfl, rfl⟩, .inl rfl⟩
    | averageColor r g b a => exact ⟨.inl (.of_mem rfl rfl rfl rfl), .inr ⟨rfl, rfl⟩, .inl rfl⟩
    | aspectRatio r =>
      exact ⟨.inl (.of_mem rfl rfl rfl rfl), .inl ⟨rfl, rfl, rfl, rfl⟩, .inr ⟨rfl, rfl⟩⟩

/-- A step that is no completion step and leaves reset released changes no result that only a
command writes. -/
theorem hostStep_results {s : State} (h : (hostStep (tick s)).rst = false) :
    SameResults s (hostStep (tick s)) := by
  have ticked : SameResults s (tick s) :=
    ⟨.of_mem rfl rfl rfl rfl, ⟨rfl, rfl, rfl, rfl⟩, rfl⟩
  rcases hostStep_cases (tick s) with ⟨-, e⟩ | ⟨op, -, -, e⟩ <;> rw [e] at h ⊢
  · exact ticked
  · exact ticked.trans (hostOp_results _ (hostOp_rst_level h))

/-- Settles O51: only a completion step changes such a result, and which one it changes is by its
command. -/
theorem onlyCommandsWriteResults : Obligations.OnlyCommandsWriteResults := by
  unfold Obligations.OnlyCommandsWriteResults
  intro s t h ht ran
  have key : (SameImage s t ∨ ran .decode) ∧ (SameAverage s t ∨ ran .averageColor) ∧
      (t.aspect = s.aspect ∨ ran .aspectRatio) := by
    rcases step_cases h with ⟨busy, -, due, ⟨i, hi, hx⟩ | ⟨e, -, rfl⟩⟩ | ⟨-, rfl⟩
    · have ran_of : ∀ {j}, i = j ∧ t.err = .ok → ran j := by
        rintro _ ⟨rfl, ok⟩
        exact ⟨busy, due, hi, ok⟩
      obtain ⟨image, average, aspect⟩ := exec_results hx
      exact ⟨image.imp_right ran_of, average.imp_right ran_of, aspect.imp_right ran_of⟩
    · exact ⟨.inl (.of_mem rfl rfl rfl rfl), .inl ⟨rfl, rfl, rfl, rfl⟩, .inl rfl⟩
    · have same := hostStep_results ht
      exact ⟨.inl same.image, .inl same.average, .inl same.aspect⟩
  obtain ⟨image, average, aspect⟩ := key
  refine ⟨fun changed => image.resolve_left fun same => ?_,
    fun ⟨a, lo, hi, changed⟩ => image.resolve_left fun same => changed (same.pixout a lo hi),
    fun changed => average.resolve_left fun same => ?_, fun changed => aspect.resolve_left changed⟩
  · exact changed.elim (· same.outW) (· same.outH)
  · rcases changed with ne | ne | ne | ne
    exacts [ne same.avgR, ne same.avgG, ne same.avgB, ne same.avgA]

/-- Settles O52: a completion step sets DONE, and of the host's operations only the assertion of
reset reaches the phase of a running command. -/
theorem busyEndsOnlyByCompletionOrReset : Obligations.BusyEndsOnlyByCompletionOrReset := by
  unfold Obligations.BusyEndsOnlyByCompletionOrReset
  intro s t h busy idle
  rcases step_cases h with ⟨-, released, due, ⟨i, -, hx⟩ | ⟨e, -, rfl⟩⟩ | ⟨-, rfl⟩
  · exact .inl ⟨due, released, exec_done hx⟩
  · exact .inl ⟨due, released, rfl⟩
  · right
    rw [← Bool.not_eq_false]
    intro released
    have held : (hostStep (tick s)).phase = .busy := by
      rcases hostStep_cases (tick s) with ⟨-, e⟩ | ⟨op, -, -, e⟩ <;> rw [e] at released ⊢
      · exact busy
      · exact (hostOp_busy (s := tick s) busy (hostOp_rst_level released)).phase.trans busy
    rw [held] at idle
    cases idle

end Sys2Proof.Machine
end

section
/-! Accesses to a register and to a buffer: which get no bus error, what they answer and what they
do (R30, R74 to R78, R83, R84). -/

namespace Sys2Proof.Machine

/-! ### One register -/

/-- R76: a 4-byte access at a register's offset gets no bus error. -/
theorem accessOk_regOffset {o : Offset} {r : Reg} (h : o.toNat = regOffset r) :
    accessOk o 4 = true := by
  have ho : o = BitVec.ofNat 17 (regOffset r) := by rw [← h, BitVec.ofNat_toNat, BitVec.setWidth_eq]
  subst ho
  cases r <;> decide

/-- R83: the result registers by their offsets. -/
theorem isResultAt_reg (r : Reg) : isResultAt (regOffset r) = regIsResult r := by
  cases r <;> rfl

theorem readData_reg (s : State) {o : Offset} {r : Reg} (h : o.toNat = regOffset r) (n : Nat) :
    readData s o n = readReg s r := by
  rw [readData, (regAt_iff _ _).2 h]

theorem regOffset_injective : Function.Injective regOffset := fun _ _ h =>
  Option.some.inj (((regAt_iff _ _).2 rfl).symm.trans ((regAt_iff _ _).2 h))

/-- A read that is neither a bus error nor, while BUSY, of a result location. -/
theorem memRead_value {s : State} {o : Offset} {n : Nat} (hr : s.rst = false)
    (ok : accessOk o n = true) (known : s.phase = .idle ∨ isResultAt o.toNat = false) :
    memRead s o n = (s, ⟨false, readData s o n⟩) := by
  rcases memRead_cases s o n with ⟨bad, -⟩ | ⟨-, -, busy, result, -⟩ | ⟨-, -, -, e⟩
  · simp [hr, ok] at bad
  · simp [busy, result] at known
  · exact e

/-- R83: a read of a result location while a command runs. -/
theorem memRead_free {s : State} {o : Offset} {n : Nat} (hr : s.rst = false)
    (ok : accessOk o n = true) (busy : s.phase = .busy) (result : isResultAt o.toNat = true) :
    memRead s o n =
      ({ s with draws := s.draws + 1 }, ⟨false, lowBytes n (Config.busyRead s.draws)⟩) := by
  rcases memRead_cases s o n with ⟨bad, -⟩ | ⟨-, -, -, -, e⟩ | ⟨-, -, known, -⟩
  · simp [hr, ok] at bad
  · exact e
  · simp [busy, result] at known

/-- A read of a register that is no result, or while no command runs. -/
theorem memRead_reg {s : State} {o : Offset} {r : Reg} (hr : s.rst = false)
    (h : o.toNat = regOffset r) (known : s.phase = .idle ∨ regIsResult r = false) :
    memRead s o 4 = (s, ⟨false, readReg s r⟩) := by
  rw [memRead_value hr (accessOk_regOffset h) (by rwa [h, isResultAt_reg]), readData_reg s h]

/-- A write to a register that is not guarded, or while no command runs. -/
theorem memWrite_reg {s : State} {o : Offset} {r : Reg} (hr : s.rst = false)
    (h : o.toNat = regOffset r) (takes : s.phase = .idle ∨ regIsGuarded r = false) (v : Word) :
    memWrite s o 4 v = (writeReg s v r, ⟨false, 0⟩) := by
  have region : regionOf o.toNat = .regs := regionOf_regs.2 (h ▸ regOffset_lt r)
  rcases memWrite_cases s o 4 v with ⟨bad, -⟩ | ⟨-, -, busy, guard, -⟩ |
    ⟨-, -, -, ⟨-, r', h', e⟩ | ⟨out, -⟩ | ⟨out, -⟩⟩
  · simp [hr, accessOk_regOffset h] at bad
  · rw [h, isGuardedAt_reg] at guard
    simp [busy, guard] at takes
  · rwa [regOffset_injective (h'.symm.trans h)] at e
  all_goals simp [region] at out

/-- R84: a write to a guarded register while a command runs. -/
theorem memWrite_reg_guarded {s : State} {o : Offset} {r : Reg} (hr : s.rst = false)
    (h : o.toNat = regOffset r) (busy : s.phase = .busy) (guard : regIsGuarded r = true)
    (v : Word) : memWrite s o 4 v = (s.busyViolation, ⟨false, 0⟩) := by
  rcases memWrite_cases s o 4 v with ⟨bad, -⟩ | ⟨-, -, -, -, e⟩ | ⟨-, -, takes, -⟩
  · simp [hr, accessOk_regOffset h] at bad
  · exact e
  · rw [h, isGuardedAt_reg] at takes
    simp [busy, guard] at takes

/-! ### The value of bytes -/

/-- R78: the value of k bytes fits 8k bits. -/
theorem bytesValue_lt (bs : List Byte) : (bytesValue bs).toNat < 2 ^ (8 * bs.length) := by
  induction bs with
  | nil => decide
  | cons b bs ih =>
    rw [bytesValue, BitVec.toNat_or, List.length_cons]
    refine Nat.or_lt_two_pow ?_ ?_
    · rw [BitVec.toNat_setWidth]
      refine (Nat.mod_le _ _).trans_lt (b.isLt.trans_le ?_)
      exact Nat.pow_le_pow_right (by norm_num) (by omega)
    · rw [BitVec.toNat_shiftLeft, Nat.shiftLeft_eq]
      refine (Nat.mod_le _ _).trans_lt ?_
      rw [Nat.mul_add, Nat.pow_add]
      exact Nat.mul_lt_mul_of_pos_right ih (by norm_num)

/-- R78: byte i of the value is the byte at the i-th offset. -/
theorem bytesValue_byte {bs : List Byte} (h4 : bs.length ≤ 4) {i : Nat} (hi : i < bs.length) :
    (bytesValue bs).extractLsb' (8 * i) 8 = bs.getD i 0 := by
  induction bs generalizing i with
  | nil => simp at hi
  | cons b bs ih =>
    rw [List.length_cons] at h4 hi
    cases i with
    | zero =>
      ext j hj
      have : j < 32 := by omega
      simp [bytesValue, hj, this]
    | succ i =>
      rw [List.getD_cons_succ, ← ih (by omega) (by omega)]
      ext j hj
      have h1 : 8 * (i + 1) + j < 32 := by omega
      have h2 : ¬8 * (i + 1) + j < 8 := by omega
      have h3 : 8 * (i + 1) + j - 8 = 8 * i + j := by omega
      simp only [bytesValue, BitVec.getElem_extractLsb', BitVec.getLsbD_or,
        BitVec.getLsbD_setWidth, BitVec.getLsbD_shiftLeft, h1, h2, h3]
      simp [BitVec.getLsbD_of_ge b (8 * (i + 1) + j) (by omega)]

/-! ### Buffers -/

/-- R83: the result locations by their offsets. -/
theorem isResultAt_iff {o : Offset} {n : Nat} (ok : accessOk o n = true) :
    isResultAt o.toNat = true ↔
      ((0x01C ≤ o.toNat ∧ o.toNat < 0x03C) ∨ (0x100 ≤ o.toNat ∧ o.toNat < 0x120) ∨
        (0x1000 ≤ o.toNat ∧ o.toNat < 0x2000)) := by
  cases hr : regionOf o.toNat with
  | regs =>
    obtain ⟨-, r, h⟩ := accessOk_reg ok hr
    rw [(regAt_iff _ _).1 h, isResultAt_reg]
    cases r <;> decide
  | hashbuf => exact iff_of_true (by simp [isResultAt, hr]) (.inr (.inl (regionOf_hashbuf.1 hr)))
  | pixout => exact iff_of_true (by simp [isResultAt, hr]) (.inr (.inr (regionOf_pixout.1 hr)))
  | pixin =>
    have := regionOf_pixin.1 hr
    exact iff_of_false (by simp [isResultAt, hr]) (by omega)
  | reserved => exact absurd hr (accessOk_fits ok).2.1

/-- R74, R78: a read of a buffer answers a value whose bytes are the bytes at its offsets. -/
theorem readData_buffer (s : State) {o : Offset} {n : Nat} (ok : accessOk o n = true)
    (h : 0x100 ≤ o.toNat) :
    (readData s o n).toNat < 2 ^ (8 * n) ∧
      ∀ i < n, (readData s o n).extractLsb' (8 * i) 8 = s.readByte (o.toNat + i) := by
  have width : n ≤ 4 := by have := (accessOk_fits ok).1; omega
  have len : (s.readBytes o.toNat n).length = n := readBytes_length _ _ _
  have value : readData s o n = bytesValue (s.readBytes o.toNat n) := by
    rw [readData, regAt_none (by omega)]
  rw [value]
  refine ⟨?_, fun i hi => ?_⟩
  · simpa only [len] using bytesValue_lt (s.readBytes o.toNat n)
  · rw [bytesValue_byte (by omega) (by omega), readBytes_getD _ _ _ _ hi]

end Sys2Proof.Machine
end

section
/-! The obligations on registers, reads and the acceptance of a command (R31 to R43, R49 to R51,
R74, R78, R83, R140). -/

namespace Sys2Proof.Machine

/-- R34: the STATUS word bit by bit. -/
theorem statusWord_bits (s : State) :
    (statusWord s).getLsbD 0 = decide (s.phase = .busy) ∧ (statusWord s).getLsbD 1 = s.done ∧
      (statusWord s).extractLsb' 2 2 = 0 ∧ (statusWord s).extractLsb' 4 4 = errBits s.err ∧
      (statusWord s).getLsbD 8 = s.bviol ∧ (statusWord s).extractLsb' 9 23 = 0 := by
  have busy : decide (s.phase = .busy) = s.busy := by
    rw [Bool.eq_iff_iff, busy_iff, decide_eq_true_iff]
  rw [busy, statusWord]
  generalize s.busy = b, s.done = d, s.bviol = v
  cases s.err <;> decide +revert

/-- Settles O38: STATUS is no result and not guarded, so both accesses are the register's own. -/
theorem statusRegister : Obligations.StatusRegister := by
  unfold Obligations.StatusRegister
  refine ⟨rfl, rfl, rfl, rfl, fun s v hr => ?_⟩
  have write := memWrite_reg (o := 0x008) (r := .status) hr rfl (.inr rfl) v
  refine ⟨⟨statusWord s, memRead_reg (r := .status) hr rfl (.inr rfl), statusWord_bits s⟩, ?_, ?_⟩
  · rw [write]
  · rw [write]
    simp only [writeReg, State.writeStatus]
    cases v.getLsbD 1 <;> cases v.getLsbD 8 <;> simp

/-- While no command runs, a write to a register that leaves the sequencer alone is read back. -/
theorem memWrite_read_back {s : State} {o : Offset} {r : Reg} (hr : s.rst = false)
    (idle : s.phase = .idle) (h : o.toNat = regOffset r) (v : Word) {t : State}
    (ht : writeReg s v r = t) (hrt : t.rst = s.rst) (hpt : t.phase = s.phase) :
    (memWrite s o 4 v).1 = t ∧ memRead t o 4 = (t, ⟨false, readReg t r⟩) := by
  rw [memWrite_reg hr h (.inl idle), memRead_reg (hrt.trans hr) h (.inl (hpt.trans idle))]
  exact ⟨ht, rfl⟩

/-- Settles O39: the 6 bits hold the whole of the minimum. -/
theorem hashLenWriteIsLegalised : Obligations.HashLenWriteIsLegalised := by
  unfold Obligations.HashLenWriteIsLegalised
  intro s v hr idle
  obtain ⟨stored, back⟩ :=
    memWrite_read_back (o := 0x01C) (r := .hashLen) hr idle rfl v rfl rfl rfl
  refine ⟨hashLenOfWrite v, hashLenOfWrite_toNat v, stored, ?_⟩
  rw [← hashLenOfWrite_toNat, BitVec.ofNat_toNat]
  exact back

/-- A register of k bits keeps the low k bits of the value written and reads back with the others 0.
-/
theorem setWidth_read_back (v : Word) {k : Nat} (hk : k ≤ 32) :
    (v.setWidth k).setWidth 32 = v &&& BitVec.ofNat 32 (2 ^ k - 1) := by
  have mask : 2 ^ k - 1 < 2 ^ 32 :=
    (Nat.sub_lt (by positivity) one_pos).trans_le (Nat.pow_le_pow_right (by norm_num) hk)
  apply BitVec.eq_of_toNat_eq
  rw [BitVec.toNat_setWidth_of_le hk, BitVec.toNat_setWidth, BitVec.toNat_and, BitVec.toNat_ofNat,
    Nat.mod_eq_of_lt mask, Nat.and_two_pow_sub_one_eq_mod]

/-- Settles O40: while no command runs each write is the register's own, and it is read back. -/
theorem inputRegistersReadBack : Obligations.InputRegistersReadBack := by
  unfold Obligations.InputRegistersReadBack
  intro s v hr idle
  obtain ⟨ie, ieBack⟩ := memWrite_read_back (o := 0x00C) (r := .irqEn) hr idle rfl v rfl rfl rfl
  obtain ⟨w, wBack⟩ := memWrite_read_back (o := 0x010) (r := .imgW) hr idle rfl v rfl rfl rfl
  obtain ⟨h, hBack⟩ := memWrite_read_back (o := 0x014) (r := .imgH) hr idle rfl v rfl rfl rfl
  obtain ⟨len, lenBack⟩ := memWrite_read_back (o := 0x018) (r := .inLen) hr idle rfl v rfl rfl rfl
  rw [ie, w, h, len, ieBack, wBack, hBack, lenBack, ← BitVec.setWidth_eq_extractLsb' (by norm_num)]
  have bit0 : BitVec.ofBool (v.getLsbD 0) = v.setWidth 1 := (BitVec.setWidth_one).symm
  refine ⟨rfl, ?_, rfl, ?_, rfl, ?_, rfl, rfl⟩
  · simp only [readReg, irqEnWord, writeReg, bit0, setWidth_read_back v (k := 1) (by norm_num)]
    rfl
  · simp only [readReg, writeReg, setWidth_read_back v (k := 16) (by norm_num)]
    rfl
  · simp only [readReg, writeReg, setWidth_read_back v (k := 16) (by norm_num)]
    rfl

/-- Settles O44: a read answers a free value, or the register at its offset, or the bytes there. -/
theorem busyReadsOfResultsAreFree : Obligations.BusyReadsOfResultsAreFree := by
  unfold Obligations.BusyReadsOfResultsAreFree
  intro s o n hr ok a result
  have isResult : isResultAt o.toNat = true ↔ result := isResultAt_iff ok
  refine ⟨fun busy free => memRead_free hr ok busy (isResult.2 free),
    fun known => ⟨readData s o n, memRead_value hr ok ?_, ?_⟩⟩
  · exact known.imp_right fun hres => by rwa [← Bool.not_eq_true, isResult]
  · have reg (r : Reg) (h : a = regOffset r) : readData s o n = readReg s r := readData_reg s h n
    have field (r : Reg) {k : Nat} {x : BitVec k} (hk : k ≤ 32) (hx : readReg s r = x.setWidth 32)
        (h : a = regOffset r) : (readData s o n).toNat = x.toNat := by
      rw [reg r h, hx, BitVec.toNat_setWidth_of_le hk]
    have irqEn (h : a = regOffset .irqEn) :
        (readData s o n).toNat = if s.doneIe then 1 else 0 := by
      rw [reg .irqEn h, readReg, irqEnWord]
      cases s.doneIe <;> rfl
    exact ⟨reg .id, reg .cmd, irqEn, field .imgW (by norm_num) rfl, field .imgH (by norm_num) rfl,
      reg .inLen, field .hashLen (by norm_num) rfl, field .outW (by norm_num) rfl,
      field .outH (by norm_num) rfl,
      reg .avgR, reg .avgG, reg .avgB, reg .avgA, reg .aspect, readData_buffer s ok⟩

/-- Settles O46. -/
theorem commandAcceptance : Obligations.CommandAcceptance := by
  unfold Obligations.CommandAcceptance
  intro s v hr
  have accepted (h) : memWrite s 0x004 4 v = (s.offerCommand v, ⟨false, 0⟩) :=
    memWrite_reg (r := .cmd) hr rfl (.inl h) v
  have ignored (h) : memWrite s 0x004 4 v = (s.busyViolation, ⟨false, 0⟩) :=
    memWrite_reg_guarded (r := .cmd) hr rfl h rfl v
  refine ⟨?_, fun idle => ⟨(s.accept v).wait, (s.accept v).draws, ?_⟩, fun busy => ?_⟩
  · cases hp : s.phase with
    | idle => rw [accepted hp]
    | busy => rw [ignored hp]
  · rw [accepted idle]; exact offerCommand_idle idle v
  · rw [ignored busy]; rfl

/-- Settles O4. -/
theorem stepRunsLatchedCommand : Obligations.StepRunsLatchedCommand := by
  unfold Obligations.StepRunsLatchedCommand
  intro s i rest busy released due latched
  have turn : coreTurn s = true := (coreTurn_iff s).2 ⟨busy, released, due⟩
  have fetched : fetchInstr s = .ok i := by rw [fetchInstr, fetchBytes, fetchWord, latched]
  rw [step, if_pos turn, fetched]

/-- Settles O54. -/
theorem resetValues : Obligations.ResetValues := by
  unfold Obligations.ResetValues
  exact ⟨by decide, rfl, rfl, rfl, fun a => lookupByte_nil a⟩

end Sys2Proof.Machine
end

section
/-! What the bus answers and does by the ranges of the address map: which accesses get no bus error,
which locations are guarded while a command runs, which are read-only, and what a write to a buffer
stores (R70, R75 to R78, R84, R85). -/

namespace Sys2Proof.Machine

/-! ### Bus errors -/

/-- R70: the reserved offsets are those outside the other regions. -/
theorem regionOf_reserved {a : Nat} :
    regionOf a = .reserved ↔ ¬a < 0x3C ∧ ¬(0x100 ≤ a ∧ a < 0x120) ∧ ¬(0x1000 ≤ a ∧ a < 0x2000) ∧
      ¬(0x10000 ≤ a ∧ a < 0x19C40) := by
  rw [← regionOf_regs, ← regionOf_hashbuf, ← regionOf_pixout, ← regionOf_pixin]
  cases regionOf a <;> decide

/-- R76, R77: the accesses that get no bus error are those of a legal width, aligned to it, wholly
inside one region, and 4 bytes wide in the registers. -/
theorem accessOk_iff {o : Offset} {n : Nat} :
    accessOk o n = true ↔ (n = 1 ∨ n = 2 ∨ n = 4) ∧ o.toNat % n = 0 ∧
      ((o.toNat + n ≤ 0x3C ∧ n = 4) ∨ (0x100 ≤ o.toNat ∧ o.toNat + n ≤ 0x120) ∨
        (0x1000 ≤ o.toNat ∧ o.toNat + n ≤ 0x2000) ∨
        (0x10000 ≤ o.toNat ∧ o.toNat + n ≤ 0x19C40)) := by
  simp only [accessOk, Bool.and_eq_true, Bool.or_eq_true, beq_iff_eq, bne_iff_ne,
    decide_eq_true_eq, or_assoc, and_assoc]
  refine and_congr_right fun width => and_congr_right fun _ => ?_
  cases hr : regionOf o.toNat with
  | regs =>
    have := regionOf_regs.1 hr
    simp [regionEnd, Config.regsEnd]
    omega
  | hashbuf =>
    have := regionOf_hashbuf.1 hr
    simp [regionEnd, Config.hashBase, Config.hashSize]
    omega
  | pixout =>
    have := regionOf_pixout.1 hr
    simp [regionEnd, Config.pixoutBase, Config.pixoutSize]
    omega
  | pixin =>
    have := regionOf_pixin.1 hr
    simp [regionEnd, Config.pixinBase, Config.pixinSize]
    omega
  | reserved =>
    have := regionOf_reserved.1 hr
    simp
    omega

/-- R77: a read gets a bus error exactly when its access is not legal. -/
theorem memRead_error_iff {s : State} (hr : s.rst = false) (o : Offset) (n : Nat) :
    (memRead s o n).2.error = true ↔ ¬accessOk o n = true := by
  rcases memRead_cases s o n with ⟨bad, e⟩ | ⟨-, ok, -, -, e⟩ | ⟨-, ok, -, e⟩ <;> rw [e]
  · simpa [hr] using bad
  · simp [ok]
  · simp [ok]

/-- R77: a write gets a bus error exactly when its access is not legal. -/
theorem memWrite_error_iff {s : State} (hr : s.rst = false) (o : Offset) (n : Nat) (v : Word) :
    (memWrite s o n v).2.error = true ↔ ¬accessOk o n = true := by
  rcases memWrite_cases s o n v with ⟨bad, e⟩ | ⟨-, ok, -, -, e⟩ |
    ⟨-, ok, -, ⟨-, r, -, e⟩ | ⟨-, e⟩ | ⟨-, -, e⟩⟩ <;> rw [e]
  · simpa [hr] using bad
  all_goals simp [ok]

/-- R77: a read with a bus error changes nothing and answers 0. -/
theorem memRead_of_not_ok (s : State) {o : Offset} {n : Nat} (bad : ¬accessOk o n = true) :
    memRead s o n = (s, ⟨true, 0⟩) := by
  rcases memRead_cases s o n with ⟨-, e⟩ | ⟨-, ok, -⟩ | ⟨-, ok, -⟩
  exacts [e, absurd ok bad, absurd ok bad]

/-- R77: a write with a bus error changes nothing. -/
theorem memWrite_of_not_ok (s : State) {o : Offset} {n : Nat} (bad : ¬accessOk o n = true)
    (v : Word) : memWrite s o n v = (s, ⟨true, 0⟩) := by
  rcases memWrite_cases s o n v with ⟨-, e⟩ | ⟨-, ok, -⟩ | ⟨-, ok, -⟩
  exacts [e, absurd ok bad, absurd ok bad]

/-! ### Guarded and read-only locations -/

/-- R84: the guarded locations by their offsets. -/
theorem isGuardedAt_iff {o : Offset} {n : Nat} (ok : accessOk o n = true) :
    isGuardedAt o.toNat = true ↔
      (o.toNat = 0x004 ∨ (0x010 ≤ o.toNat ∧ o.toNat < 0x020) ∨
        (0x100 ≤ o.toNat ∧ o.toNat < 0x120) ∨ 0x10000 ≤ o.toNat) := by
  cases hr : regionOf o.toNat with
  | regs =>
    obtain ⟨-, r, h⟩ := accessOk_reg ok hr
    rw [(regAt_iff _ _).1 h, isGuardedAt_reg]
    cases r <;> decide
  | hashbuf =>
    exact iff_of_true (by simp [isGuardedAt, hr]) (.inr (.inr (.inl (regionOf_hashbuf.1 hr))))
  | pixout =>
    have := regionOf_pixout.1 hr
    exact iff_of_false (by simp [isGuardedAt, hr]) (by omega)
  | pixin =>
    exact iff_of_true (by simp [isGuardedAt, hr]) (.inr (.inr (.inr (regionOf_pixin.1 hr).1)))
  | reserved => exact absurd hr (accessOk_fits ok).2.1

/-- R84: a write to a guarded location while a command runs only sets BVIOL. -/
theorem memWrite_guarded {s : State} {o : Offset} {n : Nat} (hr : s.rst = false)
    (ok : accessOk o n = true) (busy : s.phase = .busy) (guard : isGuardedAt o.toNat = true)
    (v : Word) : memWrite s o n v = (s.busyViolation, ⟨false, 0⟩) := by
  rcases memWrite_cases s o n v with ⟨bad, -⟩ | ⟨-, -, -, -, e⟩ | ⟨-, -, takes, -⟩
  · simp [hr, ok] at bad
  · exact e
  · simp [busy, guard] at takes

/-- R84: a write to STATUS or IRQ_EN, which no running command guards, is the register's own at every
legal width. -/
theorem memWrite_unguarded {s : State} {o : Offset} {n : Nat} {r : Reg} (hr : s.rst = false)
    (ok : accessOk o n = true) (h : o.toNat = regOffset r) (free : regIsGuarded r = false)
    (v : Word) : memWrite s o n v = (writeReg s v r, ⟨false, 0⟩) := by
  obtain ⟨rfl, -⟩ := accessOk_reg ok (regionOf_regs.2 (h ▸ regOffset_lt r))
  exact memWrite_reg hr h (.inr free) v

/-- R85: the offsets of the read-only locations: ID, OUT_W to ASPECT, and PIXOUT. -/
def isReadOnlyAt (a : Nat) : Prop :=
  a = 0x000 ∨ (0x020 ≤ a ∧ a < 0x03C) ∨ (0x1000 ≤ a ∧ a < 0x2000)

/-- R85: a read-only register ignores a write. -/
theorem writeReg_readOnly (s : State) (v : Word) {r : Reg} (h : isReadOnlyAt (regOffset r)) :
    writeReg s v r = s := by
  unfold isReadOnlyAt at h
  cases r
  case cmd | status | irqEn | imgW | imgH | inLen | hashLen => exact absurd h (by decide)
  all_goals rfl

/-- R84, R85: a write to a read-only location gets no bus error and changes nothing, whether or not a
command runs. -/
theorem memWrite_readOnly {s : State} {o : Offset} {n : Nat} (hr : s.rst = false)
    (ok : accessOk o n = true) (h : isReadOnlyAt o.toNat) (v : Word) :
    memWrite s o n v = (s, ⟨false, 0⟩) := by
  have ranges := h
  unfold isReadOnlyAt at ranges
  rcases memWrite_cases s o n v with ⟨bad, -⟩ | ⟨-, -, -, guard, -⟩ |
    ⟨-, -, -, ⟨-, r, ho, e⟩ | ⟨-, e⟩ | ⟨region, -, -⟩⟩
  · simp [hr, ok] at bad
  · have := (isGuardedAt_iff ok).1 guard
    omega
  · rwa [writeReg_readOnly s v (ho ▸ h)] at e
  · exact e
  · rw [regionOf_hashbuf, regionOf_pixin] at region
    omega

/-- Values that a register takes alike are written alike on the bus, whether or not a command runs. -/
theorem memWrite_reg_congr {s : State} {o : Offset} {r : Reg} (hr : s.rst = false)
    (h : o.toNat = regOffset r) {v w : Word} (same : writeReg s v r = writeReg s w r) :
    memWrite s o 4 v = memWrite s o 4 w := by
  by_cases takes : s.phase = .idle ∨ regIsGuarded r = false
  · rw [memWrite_reg hr h takes, memWrite_reg hr h takes, same]
  · rw [not_or, Bool.not_eq_false] at takes
    obtain ⟨running, guard⟩ := takes
    have busy : s.phase = .busy := by
      cases hp : s.phase with
      | idle => exact absurd hp running
      | busy => rfl
    rw [memWrite_reg_guarded hr h busy guard, memWrite_reg_guarded hr h busy guard]

/-! ### What a write to a buffer stores -/

/-- R78: an n-byte write stores n bytes. -/
theorem wordBytes_take_length (v : Word) {n : Nat} (h : n ≤ 4) :
    ((wordBytes v).take n).length = n := by
  simp [wordBytes, h]

/-- R78: byte i of an n-byte write is bits 8i to 8i+7 of the value. -/
theorem wordBytes_take_getD (v : Word) {n i : Nat} (h : n ≤ 4) (hi : i < n) :
    ((wordBytes v).take n).getD i 0 = v.extractLsb' (8 * i) 8 := by
  rw [List.getD_eq_getElem?_getD, List.getElem?_take_of_lt hi]
  have : i < 4 := by omega
  interval_cases i <;> rfl

/-- Bytes just stored are the bytes read there. -/
theorem readBytes_store {s t : State} {base : Nat} {bs : List Byte}
    (hm : t.mem = storeBytes s.mem base bs) (hr : t.resets = s.resets) :
    t.readBytes base bs.length = bs := by
  refine List.ext_getElem (readBytes_length _ _ _) fun i hi hi' => ?_
  rw [← List.getD_eq_getElem _ 0 hi, ← List.getD_eq_getElem _ 0 hi', readBytes_getD _ _ _ _ hi',
    readByte_store hm hr, if_pos ⟨by omega, by omega⟩, Nat.add_sub_cancel_left]

/-- R75: a write to HASHBUF or PIXIN while no command runs stores its bytes and changes nothing else.
-/
theorem memWrite_buffer {s : State} {o : Offset} {n : Nat} (hr : s.rst = false)
    (idle : s.phase = .idle) (ok : accessOk o n = true)
    (h : (0x100 ≤ o.toNat ∧ o.toNat < 0x120) ∨ 0x10000 ≤ o.toNat) (v : Word) :
    memWrite s o n v =
      ({ s with mem := storeBytes s.mem o.toNat ((wordBytes v).take n) }, ⟨false, 0⟩) := by
  rcases memWrite_cases s o n v with ⟨bad, -⟩ | ⟨-, -, busy, -⟩ |
    ⟨-, -, -, ⟨-, r, ho, -⟩ | ⟨region, -⟩ | ⟨-, -, e⟩⟩
  · simp [hr, ok] at bad
  · rw [idle] at busy
    cases busy
  · have := regOffset_lt r
    omega
  · have := regionOf_pixout.1 region
    omega
  · exact e

/-! ### The window -/

/-- R70: the base is a multiple of the window's size. -/
theorem pBase_aligned : Config.pBase % 0x20000 = 0 := by
  rw [Config.pBase, Config.windowSize, Nat.mul_mod_left]

/-- R70: the block decodes an address exactly as its offset from the base. -/
theorem windowOffset_iff (addr : Nat) (o : Offset) :
    windowOffset addr = some o ↔ addr = Config.pBase + o.toNat := by
  have small : o.toNat < 0x20000 := o.isLt
  unfold windowOffset Config.windowSize
  split
  case isTrue inside =>
    rw [Option.some.injEq]
    constructor
    · rintro rfl
      rw [BitVec.toNat_ofNat]
      omega
    · intro h
      rw [h, Nat.add_sub_cancel_left, BitVec.ofNat_toNat, BitVec.setWidth_eq]
  case isFalse outside =>
    refine iff_of_false (by simp) ?_
    omega

end Sys2Proof.Machine
end

section
/-! The obligations on the address map: bus errors, ignored writes, the frame of the commands, the
buffers and the window (R70, R75 to R85). -/

namespace Sys2Proof.Machine

/-! ### What the commands leave unchanged -/

/-- R50, R81: the fields that no completion step writes. -/
theorem exec_frame {i : Instr} {s t : State} (h : exec i s = .next t) :
    t = { s with phase := .idle, done := true, err := t.err, hashLen := t.hashLen, outW := t.outW,
                 outH := t.outH, avgR := t.avgR, avgG := t.avgG, avgB := t.avgB, avgA := t.avgA,
                 aspect := t.aspect, mem := t.mem } := by
  rcases exec_writes h with ⟨e, rfl⟩ | ⟨u, hu, rfl⟩
  · rfl
  · cases hu <;> rfl

/-- R143: only ENCODE writes HASH_LEN. -/
theorem exec_hashLen {i : Instr} {s t : State} (h : exec i s = .next t) (hi : i ≠ .encode) :
    t.hashLen = s.hashLen := by
  rcases exec_writes h with ⟨e, rfl⟩ | ⟨u, hu, rfl⟩
  · rfl
  · cases hu
    case encode => exact absurd rfl hi
    all_goals rfl

/-- R81: a byte outside the buffer that the command writes is as before. -/
theorem exec_readByte {i : Instr} {s t : State} (h : exec i s = .next t) {a : Nat}
    (outHash : ¬(i = .encode ∧ 0x100 ≤ a ∧ a < 0x120))
    (outImage : ¬(i = .decode ∧ 0x1000 ≤ a ∧ a < 0x2000)) : t.readByte a = s.readByte a := by
  rcases exec_writes h with ⟨e, rfl⟩ | ⟨u, hu, rfl⟩
  · rfl
  rw [readByte_complete]
  cases hu with
  | encode hash len =>
    rw [readByte_writeHash, if_neg]
    rintro ⟨lo, hi⟩
    exact outHash ⟨rfl, lo, by omega⟩
  | decode w h rgba size len =>
    rw [readByte_writeImage, if_neg]
    rintro ⟨lo, hi⟩
    exact outImage ⟨rfl, lo, by omega⟩
  | nop | averageColor | aspectRatio => rfl

/-- Settles O14. -/
theorem commandsWriteOnlyTheirOutputs : Obligations.CommandsWriteOnlyTheirOutputs := by
  unfold Obligations.CommandsWriteOnlyTheirOutputs
  intro i s t h
  obtain ⟨image, average, aspect⟩ := exec_results h
  refine ⟨exec_frame h, exec_hashLen h, fun hi => ?_, fun hi => ?_, fun hi => ?_,
    fun a => exec_readByte h⟩
  · have same := image.resolve_right fun ran => hi ran.1
    exact ⟨same.outW, same.outH⟩
  · have same := average.resolve_right fun ran => hi ran.1
    exact ⟨same.avgR, same.avgG, same.avgB, same.avgA⟩
  · exact aspect.resolve_right fun ran => hi ran.1

/-! ### Accesses on the bus -/

/-- Settles O41: the causes are the complement of the legal accesses. -/
theorem busErrorCauses : Obligations.BusErrorCauses := by
  unfold Obligations.BusErrorCauses
  intro s o n v hr a bad
  have illegal : ¬accessOk o n = true ↔ bad := by
    rw [accessOk_iff]
    simp only [bad, a]
    generalize o.toNat % n = m
    omega
  refine ⟨(memRead_error_iff hr o n).trans illegal, (memWrite_error_iff hr o n v).trans illegal,
    fun hbad => ?_⟩
  have notOk := illegal.2 hbad
  exact ⟨memRead_of_not_ok s notOk, by rw [memWrite_of_not_ok s notOk]⟩

/-- Settles O42. -/
theorem busyWritesIgnored : Obligations.BusyWritesIgnored := by
  unfold Obligations.BusyWritesIgnored
  intro s o n v hr ok
  refine ⟨fun busy guarded => ?_, fun _ status => ?_, fun _ irqEn => ?_, fun readOnly => ?_⟩
  · rw [memWrite_guarded hr ok busy ((isGuardedAt_iff ok).2 guarded)]
    rfl
  · rw [memWrite_unguarded (r := .status) hr ok status rfl]
    rfl
  · rw [memWrite_unguarded (r := .irqEn) hr ok irqEn rfl]
    rfl
  · rw [memWrite_readOnly hr ok readOnly]

/-- The low 16 bits of a value are those of its masked value. -/
theorem setWidth_and_mask (v : Word) : (v &&& 0xFFFF).setWidth 16 = v.setWidth 16 := by
  rw [BitVec.setWidth_and]
  exact BitVec.and_allOnes

/-- Settles O43: a register takes a value as it takes the value without its reserved bits. -/
theorem readOnlyWritesIgnored : Obligations.ReadOnlyWritesIgnored := by
  unfold Obligations.ReadOnlyWritesIgnored
  intro s v hr
  refine ⟨fun o n ok readOnly => ?_, memWrite_reg_congr (r := .status) hr rfl ?_,
    memWrite_reg_congr (r := .irqEn) hr rfl ?_, memWrite_reg_congr (r := .imgW) hr rfl ?_,
    memWrite_reg_congr (r := .imgH) hr rfl ?_⟩
  · rw [memWrite_readOnly hr ok readOnly]
    exact ⟨rfl, rfl⟩
  · simp [writeReg, State.writeStatus]
  · simp [writeReg]
  · rw [writeReg, writeReg, setWidth_and_mask]
  · rw [writeReg, writeReg, setWidth_and_mask]

/-- Settles O45. -/
theorem bufferWriteReadsBack : Obligations.BufferWriteReadsBack := by
  unfold Obligations.BufferWriteReadsBack
  intro s o n v idle hr ok buffer
  have width := (accessOk_fits ok).1
  have narrow : n ≤ 4 := by omega
  have len := wordBytes_take_length v narrow
  obtain ⟨t, ht⟩ : ∃ t, t = { s with mem := storeBytes s.mem o.toNat ((wordBytes v).take n) } :=
    ⟨_, rfl⟩
  have mem : t.mem = storeBytes s.mem o.toNat ((wordBytes v).take n) := by rw [ht]
  have resets : t.resets = s.resets := by rw [ht]
  refine ⟨t, by rw [memWrite_buffer hr idle ok buffer, ht], by rw [ht], fun i hi => ?_,
    fun a ha => ?_, ?_⟩
  · rw [readByte_store mem resets, len, if_pos (by omega), Nat.add_sub_cancel_left,
      wordBytes_take_getD v narrow hi]
  · rw [readByte_store mem resets, len, if_neg (by omega)]
  · have back := readBytes_store mem resets
    rw [len] at back
    rw [memRead_value (ht ▸ hr) ok (.inl (ht ▸ idle)), readData, regAt_none (by omega), back,
      bytesValue_wordBytes v width]

/-- Settles O48. -/
theorem windowDecoding : Obligations.WindowDecoding := by
  unfold Obligations.WindowDecoding
  exact ⟨pBase_aligned, fun o => (windowOffset_iff _ o).2 rfl,
    fun addr o => (windowOffset_iff addr o).1⟩

end Sys2Proof.Machine
end

section
/-! What stands where in a packed hash: its header bytes as arithmetic on the fields, its alpha
byte, and every nibble and the padding after them (R103 to R110, R220 to R230). -/

namespace Sys2Proof.Machine

/-! ### The header words as numbers -/

/-- A field placed above the bits in use adds to the number they make. -/
theorem toNat_or_field {n k i m : Nat} {x : BitVec n} (f : BitVec k) (hx : x.toNat = m)
    (low : m < 2 ^ i) (fits : k + i ≤ n) :
    (x ||| f.setWidth n <<< i).toNat = m + f.toNat * 2 ^ i := by
  have high : f.toNat * 2 ^ i < 2 ^ n := by
    calc f.toNat * 2 ^ i < 2 ^ k * 2 ^ i := Nat.mul_lt_mul_of_pos_right f.isLt (by positivity)
      _ = 2 ^ (k + i) := (pow_add 2 k i).symm
      _ ≤ 2 ^ n := Nat.pow_le_pow_right two_pos fits
  rw [BitVec.toNat_or, BitVec.toNat_shiftLeft, BitVec.toNat_setWidth_of_le (by omega), hx,
    Nat.shiftLeft_eq, Nat.mod_eq_of_lt high, Nat.or_comm, Nat.mul_comm,
    ← Nat.two_pow_add_eq_or_of_lt low, Nat.add_comm]

/-- R104: the 24-bit header word as a number. -/
theorem h24Of_toNat (h : Header) :
    (h24Of h).toNat = h.lDc.toNat + h.pDc.toNat * 2 ^ 6 + h.qDc.toNat * 2 ^ 12 +
      h.lScale.toNat * 2 ^ 18 + h.hasAlpha.toNat * 2 ^ 23 := by
  have lDc := h.lDc.isLt
  have pDc := h.pDc.isLt
  have qDc := h.qDc.isLt
  have lScale := h.lScale.isLt
  have first : (h.lDc.setWidth 24).toNat = h.lDc.toNat := BitVec.toNat_setWidth_of_le (by omega)
  have second := toNat_or_field h.pDc first lDc (by omega)
  have third := toNat_or_field h.qDc second (i := 12) (by omega) (by omega)
  have fourth := toNat_or_field h.lScale third (i := 18) (by omega) (by omega)
  rw [← BitVec.toNat_ofBool]
  exact toNat_or_field (BitVec.ofBool h.hasAlpha) fourth (by omega) (by omega)

/-- R105: the 16-bit header word as a number. -/
theorem h16Of_toNat (h : Header) :
    (h16Of h).toNat = h.lMin.toNat + h.pScale.toNat * 2 ^ 3 + h.qScale.toNat * 2 ^ 9 +
      h.isLandscape.toNat * 2 ^ 15 := by
  have lMin := h.lMin.isLt
  have pScale := h.pScale.isLt
  have qScale := h.qScale.isLt
  have first : (h.lMin.setWidth 16).toNat = h.lMin.toNat := BitVec.toNat_setWidth_of_le (by omega)
  have second := toNat_or_field h.pScale first lMin (by omega)
  have third := toNat_or_field h.qScale second (i := 9) (by omega) (by omega)
  rw [← BitVec.toNat_ofBool]
  exact toNat_or_field (BitVec.ofBool h.isLandscape) third (by omega) (by omega)

/-- R107: the alpha byte as a number. -/
theorem alphaByteOf_toNat (a : AlphaField) :
    (alphaByteOf a).toNat = a.aDc.toNat + a.aScale.toNat * 2 ^ 4 :=
  toNat_or_field a.aScale (BitVec.toNat_setWidth_of_le (by omega)) a.aDc.isLt (by omega)

/-- The byte from bit i of a word on, as a number. -/
theorem byte_toNat {n m : Nat} {w : BitVec n} (hw : w.toNat = m) (i : Nat) :
    (w.extractLsb' i 8).toNat = m / 2 ^ i % 2 ^ 8 := by
  rw [BitVec.extractLsb'_toNat, Nat.shiftRight_eq_div_pow, hw]

/-! ### The alpha byte -/

/-- R107: a well-formed header has its alpha byte or has no alpha. -/
theorem headerWellFormed_cases {h : Header} (hw : headerWellFormed h = true) :
    (h.hasAlpha = false ∧ h.alpha = none) ∨ (h.hasAlpha = true ∧ ∃ a, h.alpha = some a) := by
  rw [headerWellFormed, beq_iff_eq] at hw
  rw [← hw]
  cases h.alpha with
  | none => exact .inl ⟨rfl, rfl⟩
  | some a => exact .inr ⟨rfl, a, rfl⟩

/-- R223: the alpha byte is byte 5. -/
theorem pack_alphaByte {h : Header} {a : AlphaField} (flag : h.hasAlpha = true)
    (ha : h.alpha = some a) (nib : List Nibble) :
    pack h nib = headerBytesOf h ++ alphaByteOf a :: packNibbles .empty nib := by
  simp [pack, alphaBytesOf, ha, flag]

/-- R243: the header of a packed hash reads back whole. -/
theorem unpackHeader_pack {h : Header} (hw : headerWellFormed h = true) (nib : List Nibble)
    (extra : List Byte) : unpackHeader (pack h nib ++ extra) = .ok h := by
  rw [unpackHeader, unpackFixed_pack]
  change unpackAlpha _ { h with alpha := none } = .ok h
  rcases headerWellFormed_cases hw with ⟨flag, ha⟩ | ⟨flag, a, ha⟩
  · rw [unpackAlpha, if_neg (by simp [flag]), ← ha]
  · have byte5 : (pack h nib ++ extra).getD 5 0 = alphaByteOf a := by
      rw [pack_alphaByte flag ha]; rfl
    have long : ¬(pack h nib ++ extra).length < 6 := by
      rw [pack_alphaByte flag ha, List.append_assoc, List.length_append, headerBytesOf_length,
        List.cons_append, List.length_cons]
      omega
    rw [unpackAlpha, if_pos flag, if_neg long, byte5, alphaField_byte, ← ha]

/-! ### The nibbles -/

/-- R109, R245: nibble k of a packed hash is nibble k of its list, with any bytes after it. -/
theorem nibbleAt_pack {h : Header} (hw : headerWellFormed h = true) (nib : List Nibble)
    (extra : List Byte) {k : Nat} (hk : k < nib.length) :
    nibbleAt (pack h nib ++ extra) (Config.headerBytes h.hasAlpha) k = nib.getD k 0 := by
  rw [pack, List.append_assoc, ← alphaBytesOf_length hw, nibbleAt_append,
    nibbleAt_packNibbles nib extra k hk]

/-- R245: the nibbles of a packed hash read back. -/
theorem unpackAc_pack {h : Header} (hw : headerWellFormed h = true) {nib : List Nibble}
    (count : nib.length = nTotalOf h.hasAlpha (lGridOf h)) (extra : List Byte) :
    unpackAc (pack h nib ++ extra) h = .ok nib := by
  have long : ¬(pack h nib ++ extra).length < hashLenOf h := by
    rw [List.length_append, pack_length hw, hashLenOf, count]
    omega
  have list : (List.range nib.length).map
      (nibbleAt (pack h nib ++ extra) (Config.headerBytes h.hasAlpha)) = nib := by
    refine List.ext_getElem (by simp) fun k _ hk => ?_
    rw [List.getElem_map, List.getElem_range, nibbleAt_pack hw nib extra hk,
      List.getD_eq_getElem _ _ hk]
  rw [unpackAc, if_neg long, ← count, list]

/-- R245: an even nibble is the low half of its byte. -/
theorem nibbleAt_even_toNat (hb : List Byte) (start : Nat) {k : Nat} (even : k % 2 = 0) :
    (nibbleAt hb start k).toNat = (hb.getD (start + k / 2) 0).toNat % 16 := by
  rw [nibbleAt, even, Nat.mul_zero, BitVec.ushiftRight_zero, BitVec.toNat_setWidth]

/-- R245: an odd nibble is the high half of its byte. -/
theorem nibbleAt_odd_toNat (hb : List Byte) (start : Nat) {k : Nat} (odd : k % 2 = 1) :
    (nibbleAt hb start k).toNat = (hb.getD (start + k / 2) 0).toNat / 16 := by
  have byte := (hb.getD (start + k / 2) 0).isLt
  rw [nibbleAt, odd, BitVec.toNat_setWidth, BitVec.toNat_ushiftRight, Nat.shiftRight_eq_div_pow]
  omega

/-- R228: an odd list is packed as the even list with a nibble 0 after it. -/
theorem packNibbles_pad (nib : List Nibble) (odd : nib.length % 2 = 1) :
    packNibbles .empty (nib ++ [0]) = packNibbles .empty nib := by
  induction nib using List.twoStepInduction with
  | nil => simp at odd
  | singleton n => rfl
  | cons_cons n n' rest ih _ =>
    have odd' : rest.length % 2 = 1 := by simp only [List.length_cons] at odd; omega
    exact congrArg (nibblePair n n' :: ·) (ih odd')

/-- R228: the padding of an odd list is 0. -/
theorem nibbleAt_pack_pad {h : Header} (hw : headerWellFormed h = true) {nib : List Nibble}
    (odd : nib.length % 2 = 1) :
    nibbleAt (pack h nib) (Config.headerBytes h.hasAlpha) nib.length = 0 := by
  have padded := nibbleAt_pack hw (nib ++ [0]) [] (k := nib.length) (by simp)
  rw [List.append_nil, pack, packNibbles_pad nib odd, ← pack] at padded
  rw [padded, List.getD_eq_getElem?_getD]
  simp

/-! ### The obligations on packing -/

/-- Settles O15. -/
theorem unpackOfPackedHash : Obligations.UnpackOfPackedHash := by
  unfold Obligations.UnpackOfPackedHash
  exact fun h nib extra hw count => ⟨unpackHeader_pack hw nib extra, unpackAc_pack hw count extra⟩

/-- Settles O16. -/
theorem packPlacesNibbles : Obligations.PackPlacesNibbles := by
  unfold Obligations.PackPlacesNibbles
  intro h nib hw start b
  have lDc := h.lDc.isLt
  have pDc := h.pDc.isLt
  have qDc := h.qDc.isLt
  have lScale := h.lScale.isLt
  have lMin := h.lMin.isLt
  have pScale := h.pScale.isLt
  have qScale := h.qScale.isLt
  have nibble : ∀ k < nib.length, nibbleAt (pack h nib) start k = nib.getD k 0 := fun k hk => by
    have := nibbleAt_pack hw nib [] hk
    rwa [List.append_nil] at this
  have flag := h.hasAlpha.toNat_lt
  have landscape := h.isLandscape.toNat_lt
  have bit7 : ∀ f : Bool, (if f then 128 else 0) = f.toNat * 128 := by decide
  rw [bit7, bit7]
  refine ⟨(byte_toNat (h24Of_toNat h) 0).trans ?_, (byte_toNat (h24Of_toNat h) 8).trans ?_,
    (byte_toNat (h24Of_toNat h) 16).trans ?_, (byte_toNat (h16Of_toNat h) 0).trans ?_,
    (byte_toNat (h16Of_toNat h) 8).trans ?_, fun a ha => ?alpha, fun k hk even => ?even,
    fun k hk odd => ?odd, fun odd => ?pad, pack_length hw nib⟩
  case alpha =>
    rcases headerWellFormed_cases hw with ⟨-, none⟩ | ⟨flag, -⟩
    · rw [none] at ha; cases ha
    · simp only [b]
      rw [pack_alphaByte flag ha]
      exact alphaByteOf_toNat a
  case even => rw [← nibble k hk, nibbleAt_even_toNat _ _ even]
  case odd => rw [← nibble k hk, nibbleAt_odd_toNat _ _ odd]
  case pad =>
    have zero := congrArg BitVec.toNat (nibbleAt_pack_pad hw odd)
    rw [nibbleAt_odd_toNat _ _ odd] at zero
    exact (Nat.div_eq_zero_iff_lt (by norm_num)).1 zero
  all_goals omega

end Sys2Proof.Machine
end

section
/-! The decoder and the encoder of command words (R100 to R102). -/

namespace Sys2Proof.Machine

/-- R101: the decoder of opcodes and the opcode map agree. -/
theorem decodeOpcode_ok_iff (op : BitVec 8) (i : Instr) :
    decodeOpcode op = .ok i ↔ op.toNat = (opcodeOf i).toNat := by
  unfold decodeOpcode
  split
  case h_6 h0 h1 h2 h3 h4 =>
    refine iff_of_false (by simp) ?_
    cases i <;> assumption
  all_goals
    next e =>
    rw [e]
    cases i <;> decide

/-- R100: a word with an opcode in bits [7:0] and 0 above is that opcode as a number. -/
theorem toNat_eq_opcode_iff (w : Word) (op : BitVec 8) :
    w.toNat = op.toNat ↔ w.extractLsb' 8 24 = 0 ∧ (w.extractLsb' 0 8).toNat = op.toNat := by
  have hw := w.isLt
  have hop := op.isLt
  have zero : (0 : BitVec 24).toNat = 0 := rfl
  rw [BitVec.toNat_eq, zero, BitVec.extractLsb'_toNat, BitVec.extractLsb'_toNat,
    Nat.shiftRight_eq_div_pow, Nat.shiftRight_eq_div_pow]
  omega

/-- R100 to R102: a word decodes to a command exactly when it is the command's opcode as a
number. -/
theorem decodeWord_ok_iff (w : Word) (i : Instr) :
    decodeWord w = .ok i ↔ w.toNat = (opcodeOf i).toNat := by
  rw [toNat_eq_opcode_iff, ← decodeOpcode_ok_iff, decodeWord]
  split
  case isTrue clear => exact (and_iff_right clear).symm
  case isFalse reserved => exact iff_of_false (by simp) fun h => reserved h.1

theorem decodeWord_encode (i : Instr) : decodeWord (encode i) = .ok i :=
  (decodeWord_ok_iff _ i).2 (BitVec.toNat_setWidth_of_le (by omega))

/-- R78: the bytes of a word, with any bytes after them, decode as the word. -/
theorem decodeBytes_wordBytes (w : Word) (rest : List Byte) :
    decodeBytes (wordBytes w ++ rest) = (decodeWord w).map fun i => (i, rest) := by
  obtain ⟨b0, b1, b2, b3, bytes, word⟩ := wordOfBytes_wordBytes w
  rw [bytes]
  simp only [List.cons_append, List.nil_append, decodeBytes, word]
  cases decodeWord w <;> rfl

/-- Settles O1. -/
theorem onlyMapWordsDecode : Obligations.OnlyMapWordsDecode := by
  unfold Obligations.OnlyMapWordsDecode
  intro w i
  rw [decodeWord_ok_iff]
  cases i <;> simp [opcodeOf]

/-- Settles O2. -/
theorem decodeEncodeAgree : Obligations.DecodeEncodeAgree := by
  unfold Obligations.DecodeEncodeAgree
  intro i rest
  rw [decodeBytes_wordBytes, decodeWord_encode]
  rfl

/-- Settles O3. -/
theorem decodeOfWrittenWords : Obligations.DecodeOfWrittenWords := by
  unfold Obligations.DecodeOfWrittenWords
  exact ⟨decodeWord_encode .nop, decodeWord_encode .encode, decodeWord_encode .decode,
    decodeWord_encode .averageColor, decodeWord_encode .aspectRatio, by decide, by decide⟩

end Sys2Proof.Machine
end

section
/-! The scan and its counts (R111, R112). -/

namespace Sys2Proof.Machine

/-- R111: the scan lists the triangular set. The `while` over cx needs no bound of its own: the
inequality alone keeps cx below nx. -/
theorem mem_scan_iff {nx ny cx cy : Nat} :
    (cx, cy) ∈ scan nx ny ↔ cy < ny ∧ cx * ny < nx * (ny - cy) := by
  have bound : cx * ny < nx * (ny - cy) → cx < nx := fun h =>
    Nat.lt_of_mul_lt_mul_right (h.trans_le (Nat.mul_le_mul_left nx (Nat.sub_le ny cy)))
  have entry : (cx, cy) ∈ scan nx ny ↔ cy < ny ∧ cx < nx ∧ cx * ny < nx * (ny - cy) := by
    simp [scan, ← scan_row]
  rw [entry]
  exact and_congr_right fun _ => and_iff_right_of_imp bound

/-- R111: the scan goes by rising cy and then rising cx. -/
theorem scan_pairwise (nx ny : Nat) :
    (scan nx ny).Pairwise fun c d => c.2 < d.2 ∨ (c.2 = d.2 ∧ c.1 < d.1) := by
  unfold scan
  rw [List.pairwise_flatMap]
  refine ⟨fun cy _ => ?row, List.pairwise_lt_range.imp fun {cy cy'} lt => ?rows⟩
  case row =>
    rw [List.pairwise_map]
    exact (List.pairwise_lt_range.sublist (List.takeWhile_sublist _)).imp fun lt => .inr ⟨rfl, lt⟩
  case rows =>
    intro c hc d hd
    obtain ⟨_, _, rfl⟩ := List.mem_map.1 hc
    obtain ⟨_, _, rfl⟩ := List.mem_map.1 hd
    exact .inl lt

/-- R111: (0, 0) is an entry and no entry is before it. -/
theorem scan_head? {nx ny : Nat} (hx : 1 ≤ nx) (hy : 1 ≤ ny) :
    (scan nx ny).head? = some (0, 0) := by
  have origin : (0, 0) ∈ scan nx ny := mem_scan_iff.2 ⟨hy, by simpa using Nat.mul_pos hx hy⟩
  have order := scan_pairwise nx ny
  cases list : scan nx ny with
  | nil => simp [list] at origin
  | cons c rest =>
    rw [list] at origin order
    rcases List.mem_cons.1 origin with rfl | later
    · rfl
    · exact absurd (List.rel_of_pairwise_cons order later) (by simp)

/-- Settles O20. -/
theorem scanListsTriangularSet : Obligations.ScanListsTriangularSet := by
  unfold Obligations.ScanListsTriangularSet
  exact fun nx ny hx hy => ⟨fun _ _ => mem_scan_iff, scan_pairwise nx ny, scan_head? hx hy,
    fun j => by rw [acScan, List.getElem?_drop, Nat.add_comm]⟩

/-- Settles O21. -/
theorem acCountTable : Obligations.AcCountTable := by
  unfold Obligations.AcCountTable
  exact ⟨fun _ _ => rfl, by decide, by decide, by decide, by decide⟩

end Sys2Proof.Machine
end

section
/-! The lengths of the hashes the encoder makes (R108, R115, R180, R209). -/

namespace Sys2Proof.Machine

/-! ### The long side of the L grid -/

/-- A quotient that is a whole number of the format is exact. -/
theorem fDiv_f32_mul {k m : Nat} (pos : 0 < m) (hm : m < 2 ^ 24) (hkm : k * m < 2 ^ 24) :
    fDiv (f32 (k * m)) (f32 m) = f32 k := by
  have hk : k < 2 ^ 24 := (Nat.le_mul_of_pos_right k pos).trans_lt hkm
  obtain ⟨sk, fk, uk⟩ := f32_units hk
  obtain ⟨sm, fm, um⟩ := f32_units hm
  obtain ⟨skm, fkm, ukm⟩ := f32_units hkm
  have upos : 0 < fUnits (f32 m) := by rw [um]; positivity
  have scaled : fUnits (f32 (k * m)) * 2 ^ 149 = magUnits (fMag (f32 k)) * fUnits (f32 m) := by
    rw [← fUnits, uk, um, ukm]
    ring
  rw [fDiv_finite fkm fm upos.ne', skm, sm, scaled, fRound_exact upos (le_of_lt fk),
    bne_self_eq_false, ← sk, fPack_eta]

theorem roundHA_f32 {n : Nat} (small : n < 2 ^ 24) : roundHA (f32 n) = f32 n := by
  obtain ⟨sign, finite, units⟩ := f32_units small
  rw [roundHA_finite finite sign, units]
  congr 1
  omega

/-- R180: the long side of the image gets the whole limit. -/
theorem lGridDim_long {limit m : Nat} (hl : 1 ≤ limit) (hl7 : limit ≤ 7) (pos : 0 < m)
    (hm : m ≤ 100) : lGridDim limit m m = limit := by
  have product : limit * m ≤ 7 * 100 := Nat.mul_le_mul hl7 hm
  rw [lGridDim, fDiv_f32_mul pos (by omega) (by omega), roundHA_f32 (by omega),
    toU_f32_small (by omega), Nat.max_eq_right hl]

theorem lMaxOf_bounds (a : Bool) : 1 ≤ lMaxOf a ∧ lMaxOf a ≤ 7 := by
  cases a <;> decide

/-- R180: the grid of an image takes its long side from the image's long side. -/
theorem lGrid_long {w h : Nat} (a : Bool) (hw : 1 ≤ w) (hw' : w ≤ 100) (hh : 1 ≤ h)
    (hh' : h ≤ 100) : (h < w → (lGrid w h a).1 = lMaxOf a) ∧ (w ≤ h → (lGrid w h a).2 = lMaxOf a) := by
  obtain ⟨pos, le7⟩ := lMaxOf_bounds a
  constructor
  · intro lt
    rw [lGrid, Nat.max_eq_left lt.le]
    exact lGridDim_long pos le7 hw hw'
  · intro le
    rw [lGrid, Nat.max_eq_right le]
    exact lGridDim_long pos le7 hh hh'

/-- R108, R209: the decoder derives the encoder's grid from the header. -/
theorem lGridOf_headerOf {e : Encoded} {w h : Nat} (hw : 1 ≤ w) (hw' : w ≤ 100) (hh : 1 ≤ h)
    (hh' : h ≤ 100) (grid : e.grid = lGrid w h e.hasAlpha) : lGridOf (headerOf e w h) = e.grid := by
  have le7 := (lMaxOf_bounds e.hasAlpha).2
  obtain ⟨⟨-, hx⟩, -, hy⟩ := lGrid_bounds e.hasAlpha hw hw' hh hh'
  obtain ⟨wide, tall⟩ := lGrid_long e.hasAlpha hw hw' hh hh'
  rw [← grid] at hx hy wide tall
  have lMin : (headerOf e w h).lMin.toNat = if h < w then e.grid.2 else e.grid.1 := by
    refine (BitVec.toNat_ofNat _ _).trans (Nat.mod_eq_of_lt ?_)
    split <;> omega
  have unfolded : lGridOf (headerOf e w h) =
      if decide (h < w) then (lMaxOf e.hasAlpha, (headerOf e w h).lMin.toNat)
      else ((headerOf e w h).lMin.toNat, lMaxOf e.hasAlpha) := rfl
  rw [unfolded, lMin]
  by_cases landscape : h < w
  · simp [landscape, ← wide landscape]
  · simp [landscape, ← tall (not_lt.1 landscape)]

/-! ### The lengths -/

/-- R115's table: the long side of the L grid, NAC of the grid, N_total and the bytes, by has_alpha
and the short side. -/
def encodedSizes (hasAlpha : Bool) (short : Nat) : Nat × Nat × Nat × Nat :=
  if hasAlpha then
    if short ≤ 3 then (5, 10, 34, 23)
    else if short = 4 then (5, 13, 37, 25) else (5, 14, 38, 25)
  else
    if short ≤ 3 then (7, 14, 24, 17)
    else if short = 4 then (7, 18, 28, 19)
    else if short = 5 then (7, 22, 32, 21)
    else if short = 6 then (7, 26, 36, 23) else (7, 27, 37, 24)

/-- The same numbers for a grid, by the formulas of R112 to R114. -/
def gridSizes (hasAlpha : Bool) (g : Nat × Nat) : Nat × Nat × Nat × Nat :=
  (max g.1 g.2, nac (max 3 g.1) (max 3 g.2), nTotalOf hasAlpha g,
    Config.headerBytes hasAlpha + (nTotalOf hasAlpha g + 1) / 2)

/-- R115: the table's rows are the grids whose long side is the limit. -/
theorem gridSizes_long (a : Bool) : ∀ short ≤ lMaxOf a,
    gridSizes a (lMaxOf a, short) = encodedSizes a short ∧
      gridSizes a (short, lMaxOf a) = encodedSizes a short := by
  cases a <;> decide

theorem encodedSizes_bounds (a : Bool) (short : Nat) :
    17 ≤ (encodedSizes a short).2.2.2 ∧ (encodedSizes a short).2.2.2 ≤ 25 := by
  unfold encodedSizes
  split_ifs <;> decide

/-- Settles O22. -/
theorem encodedHashLength : Obligations.EncodedHashLength := by
  unfold Obligations.EncodedHashLength
  intro w h px hw hw' hh hh' e g hash
  obtain ⟨⟨-, hx⟩, -, hy⟩ := lGrid_bounds e.hasAlpha hw hw' hh hh'
  obtain ⟨wide, tall⟩ := lGrid_long e.hasAlpha hw hw' hh hh'
  have table : gridSizes e.hasAlpha g = encodedSizes e.hasAlpha (min g.1 g.2) := by
    rcases Nat.lt_or_ge h w with lt | ge
    · have long : g = (lMaxOf e.hasAlpha, g.2) := Prod.ext (wide lt) rfl
      rw [long, min_eq_right hy]
      exact (gridSizes_long e.hasAlpha g.2 hy).1
    · have long : g = (g.1, lMaxOf e.hasAlpha) := Prod.ext rfl (tall ge)
      rw [long, min_eq_left hx]
      exact (gridSizes_long e.hasAlpha g.1 hx).2
  have nibbles : (nibblesOf e).length = nTotalOf e.hasAlpha g := nibblesOf_length _ _ _ _
  have bytes : hash.length = Config.headerBytes e.hasAlpha + (nTotalOf e.hasAlpha g + 1) / 2 := by
    rw [← nibbles]
    exact pack_length (headerOf_wellFormed e w h) (nibblesOf e)
  have sizes : (max g.1 g.2, nac (max 3 g.1) (max 3 g.2), (nibblesOf e).length, hash.length) =
      encodedSizes e.hasAlpha (min g.1 g.2) := by
    rw [nibbles, bytes]
    exact table
  have bounds := encodedSizes_bounds e.hasAlpha (min g.1 g.2)
  rw [← sizes] at bounds
  refine ⟨sizes, bounds.1, bounds.2, ?_⟩
  rw [bytes, hashLenOf, lGridOf_headerOf hw hw' hh hh' rfl]
  rfl

end Sys2Proof.Machine
end

section
/-! The host's turn and the operations of its program (R5, R70, R80, R86, R118, R330, R350). -/

namespace Sys2Proof.Machine

/-! ### Names and labels -/

/-- Taking out the other names leaves a name's value. -/
theorem lookup_filter_ne {x y : HostName} (ne : y ≠ x) (names : List (HostName × Word)) :
    (names.filter fun e => e.1 != x).lookup y = names.lookup y := by
  induction names with
  | nil => rfl
  | cons e rest ih =>
    obtain ⟨z, v⟩ := e
    rw [List.filter_cons]
    split
    case isTrue kept => rw [List.lookup_cons, List.lookup_cons, ih]
    case isFalse taken =>
      have zx : z = x := by simpa using taken
      have other : (y == z) = false := by simpa [zx] using ne
      rw [ih, List.lookup_cons, other]

@[simp] theorem nameValue_setName_same (h : HostState) (x : HostName) (v : Word) :
    nameValue (setName h x v) x = v := by
  simp [nameValue, setName]

theorem nameValue_setName_other (h : HostState) {x y : HostName} (v : Word) (ne : y ≠ x) :
    nameValue (setName h x v) y = nameValue h y := by
  have other : (y == x) = false := by simpa using ne
  simp only [nameValue, setName, List.lookup_cons, other, lookup_filter_ne ne]

/-- R118: a host goes on to its next operation with a new value of one name. -/
def GivesName (h h' : HostState) (x : HostName) (v : Word) : Prop :=
  h' = { h with pc := h.pc + 1, names := h'.names, resp := h'.resp } ∧
    nameValue h' x = v ∧ ∀ y, y ≠ x → nameValue h' y = nameValue h y

theorem givesName_setName (h : HostState) (x : HostName) (v : Word) (r : Option BusResp) :
    GivesName h (advance { setName h x v with resp := r }) x v :=
  ⟨rfl, nameValue_setName_same h x v, fun _ ne => nameValue_setName_other h v ne⟩

/-- R118: the place of a label that the program defines holds the label. -/
theorem prog_labelPlace {h : HostState} {l : HostLabel} (defined : HostOp.label l ∈ h.prog) :
    h.prog[labelPlace h l]? = some (.label l) := by
  have found : (h.prog.findIdx? fun op => op == .label l).isSome :=
    List.findIdx?_isSome.trans (List.any_eq_true.2 ⟨_, defined, beq_self_eq_true _⟩)
  obtain ⟨i, place⟩ := Option.isSome_iff_exists.1 found
  obtain ⟨bound, here, -⟩ := List.findIdx?_eq_some_iff_getElem.1 place
  rw [labelPlace, place, Option.getD_some, List.getElem?_eq_getElem bound, beq_iff_eq.1 here]

/-! ### What each operation does -/

section
variable (s : State)

/-- R350: the host's turn. -/
theorem step_of_op (notDue : ¬(s.phase = .busy ∧ s.rst = false ∧ s.wait = 0)) {op : HostOp}
    (next : s.host.prog[s.host.pc]? = some op) : step s = .next (hostOp (tick s) op) := by
  rw [step_host notDue, hostStep, tick_host, next]

theorem step_of_ended (notDue : ¬(s.phase = .busy ∧ s.rst = false ∧ s.wait = 0))
    (ended : s.host.prog[s.host.pc]? = none) : step s = .next (tick s) := by
  rw [step_host notDue, hostStep, tick_host, ended]

theorem hostOp_read_host (o : Offset) (n : Nat) (x : HostName) :
    (hostOp s (.read o n x)).host =
      advance { setName s.host x (memRead s o n).2.data with resp := some (memRead s o n).2 } := by
  rw [hostOp, receive_host, memRead_host]

theorem hostOp_write (o : Offset) (n : Nat) (v : Word) :
    hostOp s (.write o n v) = { (memWrite s o n v).1 with
      host := advance { s.host with resp := some (memWrite s o n v).2 } } := by
  rw [hostOp, acknowledge, memWrite_host]

theorem hostOp_bnz_zero {x : HostName} (l : HostLabel) (zero : nameValue s.host x = 0) :
    hostOp s (.bnz x l) = { s with host := advance s.host } := by
  rw [hostOp, if_pos zero]

theorem hostOp_bnz_nonzero {x : HostName} (l : HostLabel) (nonzero : nameValue s.host x ≠ 0) :
    hostOp s (.bnz x l) = { s with host := { s.host with pc := labelPlace s.host l } } := by
  rw [hostOp, if_neg nonzero]

/-- R70: an access that the block decodes is the access at the window offset. -/
theorem hostOp_addr_inside {addr : Nat} {o : Offset} (inside : windowOffset addr = some o) (n : Nat)
    (x : HostName) (v : Word) :
    hostOp s (.readAddr addr n x) = hostOp s (.read o n x) ∧
      hostOp s (.writeAddr addr n v) = hostOp s (.write o n v) := by
  constructor
  · rw [hostOp, hostOp, inside, platformRead]
  · rw [hostOp, hostOp, inside, platformWrite]

theorem hostOp_readAddr_outside {addr : Nat} (outside : windowOffset addr = none) (n : Nat)
    (x : HostName) :
    hostOp s (.readAddr addr n x) = receive { s with draws := s.draws + 1 } x
      ⟨Config.outsideError s.draws, lowBytes n (Config.outsideRead s.draws)⟩ := by
  rw [hostOp, outside, platformRead]

theorem hostOp_writeAddr_outside {addr : Nat} (outside : windowOffset addr = none) (n : Nat)
    (v : Word) :
    hostOp s (.writeAddr addr n v) =
      acknowledge { s with draws := s.draws + 1 } ⟨Config.outsideError s.draws, 0⟩ := by
  rw [hostOp, outside, platformWrite]

end

/-- Settles O49. -/
theorem hostProgramOperations : Obligations.HostProgramOperations := by
  unfold Obligations.HostProgramOperations
  refine ⟨fun s notDue => ⟨fun op => step_of_op s notDue, step_of_ended s notDue⟩,
    fun s o n addr x v l => ?_⟩
  intro goOn named read masked branched readOut writtenOut
  have nameOf : ∀ {t : State} {y w}, GivesName s.host t.host y w → named t y w := id
  have readHost := hostOp_read_host s o n x
  refine ⟨rfl, nameOf ?read, ?resp, hostOp_write s o n v, rfl, rfl, nameOf ?masked, rfl,
    hostOp_bnz_zero s l, fun nonzero => ?branched, fun inside => hostOp_addr_inside s inside n x v,
    fun outside => ?outside, fun line => ?wait, fun line => ?stay, rfl, rfl⟩
  case read => exact readHost ▸ givesName_setName s.host x _ _
  case resp => exact congrArg HostState.resp readHost
  case masked => exact givesName_setName s.host x _ s.host.resp
  case branched =>
    have place : branched = { s with host := { s.host with pc := labelPlace s.host l } } :=
      hostOp_bnz_nonzero s l nonzero
    rw [place]
    exact ⟨rfl, prog_labelPlace⟩
  case outside =>
    have out : readOut = _ := hostOp_readAddr_outside s outside n x
    have outW : writtenOut = _ := hostOp_writeAddr_outside s outside n v
    rw [out, outW]
    exact ⟨rfl, nameOf (givesName_setName s.host x _ _), rfl⟩
  case wait => exact if_pos line
  case stay => exact if_neg (by simp [line])

end Sys2Proof.Machine
end

section
/-! The operands of the commands by index: the pixels of PIXIN, the header fields at their bits of
HASHBUF, and a hash that ENCODE wrote (R10, R71, R104, R105, R143, R241, R243). -/

namespace Sys2Proof.Machine

/-! ### Pixels -/

/-- R10, R71: pixel i of PIXIN. -/
def pixelAt (s : State) (i : Nat) : Pixel where
  r := s.readByte (0x10000 + 4 * i)
  g := s.readByte (0x10000 + 4 * i + 1)
  b := s.readByte (0x10000 + 4 * i + 2)
  a := s.readByte (0x10000 + 4 * i + 3)

/-- R10: pixel i of a byte list is its bytes 4i to 4i + 3. -/
theorem toPixels_range (f : Nat → Byte) (n : Nat) :
    toPixels ((List.range (n * 4)).map f) =
      (List.range n).map fun i => ⟨f (4 * i), f (4 * i + 1), f (4 * i + 2), f (4 * i + 3)⟩ := by
  induction n generalizing f with
  | zero => rfl
  | succ n ih =>
    have bytes : (List.range ((n + 1) * 4)).map f =
        f 0 :: f 1 :: f 2 :: f 3 :: (List.range (n * 4)).map fun i => f (i + 4) := by
      rw [Nat.add_mul, Nat.one_mul]
      simp [List.range_succ_eq_map, Function.comp_def]
    rw [bytes, toPixels, ih, List.range_succ_eq_map, List.map_cons, List.map_map]
    rfl

/-- R143: the pixels ENCODE reads. -/
theorem toPixels_pixelOperand (s : State) :
    toPixels (pixelOperand s) = (List.range (imgWOf s * imgHOf s)).map (pixelAt s) :=
  toPixels_range (fun i => s.readByte (0x10000 + i)) _

/-! ### The header words of bytes -/

/-- R104: the 24-bit header word of three bytes as a number. -/
theorem h24FromBytes_toNat (b0 b1 b2 : Byte) :
    (h24FromBytes b0 b1 b2).toNat = b0.toNat + b1.toNat * 2 ^ 8 + b2.toNat * 2 ^ 16 := by
  have lt0 := b0.isLt
  have lt1 := b1.isLt
  have first : (b0.setWidth 24).toNat = b0.toNat := BitVec.toNat_setWidth_of_le (by omega)
  have second := toNat_or_field b1 first lt0 (by omega)
  exact toNat_or_field b2 second (by omega) (by omega)

/-- R105: the 16-bit header word of two bytes as a number. -/
theorem h16FromBytes_toNat (b3 b4 : Byte) :
    (h16FromBytes b3 b4).toNat = b3.toNat + b4.toNat * 2 ^ 8 :=
  toNat_or_field b4 (BitVec.toNat_setWidth_of_le (by omega)) b3.isLt (by omega)

/-- The field of k bits from bit i of a word on, as a number. -/
theorem field_toNat {n m : Nat} {w : BitVec n} (hw : w.toNat = m) (i k : Nat) :
    (w.extractLsb' i k).toNat = m / 2 ^ i % 2 ^ k := by
  rw [BitVec.extractLsb'_toNat, Nat.shiftRight_eq_div_pow, hw]

/-- Bit i of a word, by its number. -/
theorem bit_eq {n m : Nat} {w : BitVec n} (hw : w.toNat = m) (i : Nat) :
    w.getLsbD i = decide (m / 2 ^ i % 2 = 1) := by
  rw [BitVec.getLsbD, hw, Nat.testBit_eq_decide_div_mod_eq]

/-! ### The header in HASHBUF -/

/-- Byte i of HASHBUF (R72). -/
def hashByte (s : State) (i : Nat) : Byte := s.readByte (0x100 + i)

/-- R241: the header fields of the first five bytes of HASHBUF. -/
def fixedHeader (s : State) : Header :=
  fieldsOf (h24FromBytes (hashByte s 0) (hashByte s 1) (hashByte s 2))
    (h16FromBytes (hashByte s 3) (hashByte s 4))

/-- R241, R243: the header in HASHBUF, with the alpha byte when has_alpha = 1. -/
def wholeHeader (s : State) : Header :=
  { fixedHeader s with
    alpha := if (fixedHeader s).hasAlpha then some (alphaFieldOf (hashByte s 5)) else none }

section
variable (s : State)

theorem fixedHeader_lDc : (fixedHeader s).lDc.toNat = (hashByte s 0).toNat % 64 := by
  refine (field_toNat (h24FromBytes_toNat _ _ _) 0 6).trans ?_
  omega

theorem fixedHeader_pDc : (fixedHeader s).pDc.toNat =
    (hashByte s 0).toNat / 64 + (hashByte s 1).toNat % 16 * 4 := by
  have byte0 := (hashByte s 0).isLt
  refine (field_toNat (h24FromBytes_toNat _ _ _) 6 6).trans ?_
  omega

theorem fixedHeader_qDc : (fixedHeader s).qDc.toNat =
    (hashByte s 1).toNat / 16 + (hashByte s 2).toNat % 4 * 16 := by
  have byte0 := (hashByte s 0).isLt
  have byte1 := (hashByte s 1).isLt
  refine (field_toNat (h24FromBytes_toNat _ _ _) 12 6).trans ?_
  omega

theorem fixedHeader_hasAlpha :
    (fixedHeader s).hasAlpha = decide (128 ≤ (hashByte s 2).toNat) := by
  have byte0 := (hashByte s 0).isLt
  have byte1 := (hashByte s 1).isLt
  have byte2 := (hashByte s 2).isLt
  refine (bit_eq (h24FromBytes_toNat _ _ _) 23).trans (decide_eq_decide.2 ?_)
  omega

theorem fixedHeader_lMin : (fixedHeader s).lMin.toNat = (hashByte s 3).toNat % 8 := by
  refine (field_toNat (h16FromBytes_toNat _ _) 0 3).trans ?_
  omega

theorem fixedHeader_isLandscape :
    (fixedHeader s).isLandscape = decide (128 ≤ (hashByte s 4).toNat) := by
  have byte3 := (hashByte s 3).isLt
  have byte4 := (hashByte s 4).isLt
  refine (bit_eq (h16FromBytes_toNat _ _) 15).trans (decide_eq_decide.2 ?_)
  omega

end

/-- R107: the alpha DC is the low half of the alpha byte. -/
theorem alphaFieldOf_aDc (b : Byte) : (alphaFieldOf b).aDc.toNat = b.toNat % 16 := by
  refine (field_toNat rfl 0 4).trans ?_
  omega

/-- R241: with five bytes or more the fixed fields read. -/
theorem unpackFixed_hashOperand {s : State} (long : 5 ≤ s.hashLen.toNat) :
    unpackFixed (hashOperand s) = .ok (fixedHeader s) := by
  have byte : ∀ i < 5, (hashOperand s).getD i 0 = hashByte s i :=
    fun i hi => hashOperand_getD (by omega)
  rw [unpackFixed_ok (by rwa [hashOperand_length]), byte 0 (by omega), byte 1 (by omega),
    byte 2 (by omega), byte 3 (by omega), byte 4 (by omega), fixedHeader]

/-- R243: with the alpha byte when has_alpha = 1 the header reads whole. -/
theorem unpackHeader_hashOperand {s : State} (long : 5 ≤ s.hashLen.toNat)
    (alphaLong : (fixedHeader s).hasAlpha = true → 6 ≤ s.hashLen.toNat) :
    unpackHeader (hashOperand s) = .ok (wholeHeader s) := by
  rw [unpackHeader, unpackFixed_hashOperand long]
  change unpackAlpha (hashOperand s) (fixedHeader s) = .ok (wholeHeader s)
  rw [unpackAlpha, wholeHeader]
  by_cases flag : (fixedHeader s).hasAlpha = true
  · have six := alphaLong flag
    rw [if_pos flag, if_pos flag, if_neg (by rw [hashOperand_length]; omega),
      hashOperand_getD (by omega), hashByte]
  · rw [if_neg flag, if_neg flag]
    rfl

/-- R241, R243, R302: the hashes too short for their header. -/
theorem unpackHeader_hashOperand_short {s : State}
    (short : s.hashLen.toNat < 5 ∨
      ((fixedHeader s).hasAlpha = true ∧ s.hashLen.toNat < 6)) :
    unpackHeader (hashOperand s) = .error .tooShort := by
  rcases Nat.lt_or_ge s.hashLen.toNat 5 with lt5 | ge5
  · rw [unpackHeader, unpackFixed_tooShort (by rwa [hashOperand_length])]
  · obtain ⟨flag, lt6⟩ := short.resolve_left (by omega)
    rw [unpackHeader, unpackFixed_hashOperand ge5]
    change unpackAlpha (hashOperand s) (fixedHeader s) = .error .tooShort
    rw [unpackAlpha, if_pos flag, if_pos (by rwa [hashOperand_length])]

/-! ### A hash that was written -/

/-- R143: HASH_LEN holds the length of the hash. -/
theorem writeHash_hashLen_toNat (s : State) {hash : List Byte} (fits : hash.length ≤ 32) :
    (s.writeHash hash).hashLen.toNat = hash.length := by
  rw [State.writeHash_hashLen, BitVec.toNat_ofNat, Nat.mod_eq_of_lt (by omega)]

/-- R143, R144: the operand of the next command is the hash that was written. -/
theorem hashOperand_writeHash (s : State) {hash : List Byte} (fits : hash.length ≤ 32) :
    hashOperand (s.writeHash hash) = hash := by
  have len : (hashOperand (s.writeHash hash)).length = hash.length := by
    rw [hashOperand_length, writeHash_hashLen_toNat s fits]
  refine List.ext_getElem len fun i hi hi' => ?_
  rw [← List.getD_eq_getElem _ 0 hi, ← List.getD_eq_getElem _ 0 hi',
    hashOperand_getD (by rwa [hashOperand_length] at hi), readByte_writeHash, if_pos (by omega),
    Nat.add_sub_cancel_left]

end Sys2Proof.Machine
end

section
/-! The completion step of each command: the next state by what its operation gives (R50, R141 to
R146, R307). -/

namespace Sys2Proof.Machine

variable {s : State}

/-! ### ENCODE -/

/-- R142, R143: ENCODE under its preconditions. -/
theorem exec_encode_ok (contract : contractOk (imgWOf s) (imgHOf s) (inLenOf s) = true) :
    exec .encode s = .next ((s.writeHash (encodeHash Config.cos32 (imgWOf s) (imgHOf s)
      (pixelOperand s))).complete .ok) := by
  simp only [exec, execEncode, contract, if_true, finish_ok]

/-- R142, R307: the ENCODEs that complete with OK are those whose preconditions hold. -/
theorem contractOk_of_encode_ok {t : State} (h : exec .encode s = .next t) (ok : t.err = .ok) :
    contractOk (imgWOf s) (imgHOf s) (inLenOf s) = true := by
  by_contra broken
  simp only [exec, execEncode, broken, if_false, finish_error, Host.Outcome.next.injEq] at h
  rw [← h, State.takeError_err] at ok
  exact codeOf_ne_ok _ ok

/-- R143: the hash of PIXIN's pixels is the packed header and nibbles of their transform. -/
theorem encodeHash_pixelOperand (s : State) :
    let e := transform Config.cos32 (imgWOf s) (imgHOf s)
      ((List.range (imgWOf s * imgHOf s)).map (pixelAt s))
    encodeHash Config.cos32 (imgWOf s) (imgHOf s) (pixelOperand s) =
      pack (headerOf e (imgWOf s) (imgHOf s)) (nibblesOf e) := by
  rw [encodeHash, toPixels_pixelOperand]

/-- R143: after a successful ENCODE the next command reads the hash it made. -/
theorem hashOperand_of_encode_ok {t : State} (h : exec .encode s = .next t) (ok : t.err = .ok) :
    hashOperand t = encodeHash Config.cos32 (imgWOf s) (imgHOf s) (pixelOperand s) := by
  have contract := contractOk_of_encode_ok h ok
  have short := encodeHash_length_le Config.cos32 contract (pixelOperand s)
  rw [exec_encode_ok contract, Host.Outcome.next.injEq] at h
  rw [← h]
  exact hashOperand_writeHash s (by omega)

/-- R206, R207, R210: the alpha fields of the header ENCODE packs. -/
theorem alpha_of_headerOf {e : Encoded} {w h : Nat} {f : AlphaField}
    (alpha : (headerOf e w h).alpha = some f) :
    f = ⟨quantAlpha e.a.dc, quantAlpha e.a.scale⟩ := by
  rw [headerOf, quantizeHeader] at alpha
  change (if e.hasAlpha then _ else none) = some f at alpha
  split at alpha
  case isTrue => exact (Option.some.inj alpha).symm
  case isFalse => cases alpha

/-- The channel of one component that ENCODE transforms, line by line (R162, R182). -/
theorem planes_map (avg : Rgba) (px : List Pixel) (f : Lpqa → F32) :
    (planes avg px).map f = px.map fun p => f (project avg p) :=
  List.map_map

/-! ### DECODE -/

theorem exec_decode_ok {im : Image} (h : decodeHash Config.cos32 (hashOperand s) = .ok im) :
    exec .decode s = .next ((s.writeImage im.w im.h im.rgba).complete .ok) := by
  simp only [exec, execDecode, h, finish_ok]

/-- R40, R41, R144: OUT_W and OUT_H hold the size of the image. -/
theorem writeImage_size_toNat (s : State) {w h : Nat} (rgba : List Byte)
    (legal : imageSizeLegal w h) :
    (s.writeImage w h rgba).outW.toNat = w ∧ (s.writeImage w h rgba).outH.toNat = h := by
  unfold imageSizeLegal at legal
  rw [State.writeImage_outW, State.writeImage_outH, BitVec.toNat_ofNat, BitVec.toNat_ofNat,
    Nat.mod_eq_of_lt (by omega), Nat.mod_eq_of_lt (by omega)]
  exact ⟨rfl, rfl⟩

/-- R144: decoding a hash that is long enough for its header. -/
theorem decodeHash_long (cos : F32 → F32) {hb : List Byte} {h : Header}
    (header : unpackHeader hb = .ok h) (long : hashLenOf h ≤ hb.length) :
    ∃ im, decodeHash cos hb = .ok im ∧ outputSize (ratioOf h) = (im.w, im.h) ∧
      im.rgba = inverseDct cos (dequantize h (nibblesAt hb h)) im.w im.h := by
  rcases decodeHash_cases cos hb with ⟨e, -⟩ | ⟨h', e, short, -⟩ | ⟨h', im, e, -, decoded⟩ <;>
    rw [header] at e <;> cases e
  · omega
  · exact ⟨im, decoded⟩

/-! ### AVERAGE_COLOR -/

theorem exec_averageColor_ok {r g b a : F32}
    (h : averageFromHash (hashOperand s) = .ok ⟨r, g, b, a⟩) :
    exec .averageColor s = .next { s with
      avgR := r, avgG := g, avgB := b, avgA := a, err := .ok, done := true, phase := .idle } := by
  simp only [exec, execAverageColor, h, finish_ok]
  rfl

theorem exec_averageColor_error {e : CmdError} (h : averageFromHash (hashOperand s) = .error e) :
    exec .averageColor s = .next (s.takeError e) := by
  simp only [exec, execAverageColor, h, finish_error]

/-- R165: the three components, each from those before it. -/
theorem inverseLpq_eq {l p q red blue : F32} (hb : fSub l (fMul twoThirds p) = blue)
    (hr : fDiv (fAdd (fSub (fMul (f32 3) l) blue) q) (f32 2) = red) :
    inverseLpq l p q = (red, fSub red q, blue) := by
  subst hb hr
  simp only [inverseLpq]

/-- R250: the average colour is a function of the header. -/
theorem averageFromHash_of_header {hb : List Byte} {h : Header} {r g b : F32}
    (header : unpackHeader hb = .ok h)
    (colour : inverseLpq (deqLDc h.lDc) (deqPqDc h.pDc) (deqPqDc h.qDc) = (r, g, b)) :
    averageFromHash hb = .ok ⟨clamp01 r, clamp01 g, clamp01 b, alphaDcOf h⟩ := by
  simp only [averageFromHash, header, colour]

theorem averageFromHash_of_error {hb : List Byte} {e : CmdError}
    (header : unpackHeader hb = .error e) : averageFromHash hb = .error e := by
  rw [averageFromHash, header]

/-- R260: the luminance DC of the header in HASHBUF. -/
theorem deqLDc_wholeHeader (s : State) :
    deqLDc (wholeHeader s).lDc = fDiv (f32 ((hashByte s 0).toNat % 64)) (f32 63) := by
  rw [deqLDc, wholeHeader, fixedHeader_lDc]

/-- R261: the P DC of the header in HASHBUF. -/
theorem deqPqDc_wholeHeader_pDc (s : State) : deqPqDc (wholeHeader s).pDc =
    fSub (fDiv (f32 ((hashByte s 0).toNat / 64 + (hashByte s 1).toNat % 16 * 4)) f31_5) fOne := by
  rw [deqPqDc, wholeHeader, fixedHeader_pDc]

/-- R262: the Q DC of the header in HASHBUF. -/
theorem deqPqDc_wholeHeader_qDc (s : State) : deqPqDc (wholeHeader s).qDc =
    fSub (fDiv (f32 ((hashByte s 1).toNat / 16 + (hashByte s 2).toNat % 4 * 16)) f31_5) fOne := by
  rw [deqPqDc, wholeHeader, fixedHeader_qDc]

/-- R267: the alpha of the average colour of the header in HASHBUF. -/
theorem alphaDcOf_wholeHeader (s : State) :
    alphaDcOf (wholeHeader s) = if (fixedHeader s).hasAlpha
      then fDiv (f32 ((hashByte s 5).toNat % 16)) (f32 15) else fOne := by
  unfold alphaDcOf wholeHeader
  split_ifs
  · dsimp only
    rw [deqAlpha, alphaFieldOf_aDc]
  · rfl

/-! ### ASPECT_RATIO -/

theorem exec_aspectRatio_ok {r : F32} (h : aspectRatio (hashOperand s) = .ok r) :
    exec .aspectRatio s = .next { s with
      aspect := r, err := .ok, done := true, phase := .idle } := by
  simp only [exec, execAspectRatio, h, finish_ok]
  rfl

theorem exec_aspectRatio_error {e : CmdError} (h : aspectRatio (hashOperand s) = .error e) :
    exec .aspectRatio s = .next (s.takeError e) := by
  simp only [exec, execAspectRatio, h, finish_error]

/-- R251: the ratio is a function of the fixed fields. -/
theorem aspectRatio_of_fixed {hb : List Byte} {h : Header} (fixed : unpackFixed hb = .ok h) :
    aspectRatio hb = .ok (ratioOf h) := by
  rw [aspectRatio, fixed]

theorem aspectRatio_short {hb : List Byte} (short : hb.length < 5) :
    aspectRatio hb = .error .tooShort := by
  rw [aspectRatio, unpackFixed_tooShort short]

/-- R108, R251: the ratio of the header in HASHBUF. -/
theorem ratioOf_fixedHeader (s : State) :
    ratioOf (fixedHeader s) =
      let lMax := if 128 ≤ (hashByte s 2).toNat then 5 else 7
      let lMin := (hashByte s 3).toNat % 8
      if 128 ≤ (hashByte s 4).toNat then fDiv (f32 lMax) (f32 lMin)
      else fDiv (f32 lMin) (f32 lMax) := by
  have long : lMaxOf (fixedHeader s).hasAlpha = if 128 ≤ (hashByte s 2).toNat then 5 else 7 := by
    rw [fixedHeader_hasAlpha, lMaxOf]
    simp only [decide_eq_true_eq]
    rfl
  rw [ratioOf, lGridOf, long, fixedHeader_lMin, fixedHeader_isLandscape]
  by_cases landscape : 128 ≤ (hashByte s 4).toNat <;> simp [landscape]

end Sys2Proof.Machine
end

section
/-! The obligations on the commands (R50, R141 to R148). -/

namespace Sys2Proof.Machine

/-- Settles O6. -/
theorem nopCompletesWithStatusOnly : Obligations.NopCompletesWithStatusOnly := by
  unfold Obligations.NopCompletesWithStatusOnly
  exact ⟨decodeWord_encode .nop, fun _ => rfl⟩

/-- Settles O5. -/
theorem illegalWordCompletes : Obligations.IllegalWordCompletes := by
  unfold Obligations.IllegalWordCompletes
  intro s busy released due illegal
  have undefined : ∀ i, decodeWord s.oplatch ≠ .ok i := by
    intro i decoded
    obtain ⟨clear, op⟩ := (toNat_eq_opcode_iff _ _).1 ((decodeWord_ok_iff _ i).1 decoded)
    have defined : (opcodeOf i).toNat < 5 := by cases i <;> decide
    rcases illegal with reserved | large
    · exact reserved clear
    · omega
  refine ⟨?_, rfl, fun reserved => if_neg reserved⟩
  obtain ⟨t, ht⟩ := step_next s
  rcases step_cases ht with ⟨-, -, -, ⟨i, decoded, -⟩ | ⟨e, -, rfl⟩⟩ | ⟨notDue, -⟩
  · exact absurd decoded (undefined i)
  · exact ht
  · exact absurd ⟨busy, released, due⟩ notDue

/-- Settles O7: the hash is `encodeHash` of PIXIN's pixels, and it has at most 25 bytes. -/
theorem encodeCompletes : Obligations.EncodeCompletes := by
  unfold Obligations.EncodeCompletes
  intro s hw hh hw0 hh0 len
  have contract : contractOk (imgWOf s) (imgHOf s) (inLenOf s) = true :=
    (contractOk_iff _ _ _).2 ⟨hw, hh, hw0, hh0, len⟩
  refine ⟨_, exec_encode_ok contract, ?_⟩
  intro w h px avg hasAlpha plane g l p q a hash
  have wired : encodeHash Config.cos32 (imgWOf s) (imgHOf s) (pixelOperand s) = hash := by
    simp only [encodeHash, toPixels_pixelOperand, transform, planes_map]
    rfl
  have short : hash.length ≤ 25 := wired ▸ encodeHash_length_le _ contract _
  rw [wired]
  refine ⟨rfl, writeHash_hashLen_toNat s (by omega), fun i hi => ?_, fun i outside => ?_⟩
  · rw [readByte_complete, readByte_writeHash, if_pos (by omega), Nat.add_sub_cancel_left]
  · rw [readByte_complete, readByte_writeHash, if_neg (by omega)]

/-- Settles O8. -/
theorem decodeCompletes : Obligations.DecodeCompletes := by
  unfold Obligations.DecodeCompletes
  intro s hb h nib size rgba hashEq _ header long nibEq sizeEq rgbaEq
  have operand : hb = hashOperand s := hashEq
  rw [operand] at header
  obtain ⟨im, decoded, sizes, bytes⟩ := decodeHash_long Config.cos32 header
    (by rwa [hashOperand_length])
  have imageSize : size = (im.w, im.h) := sizeEq.trans sizes
  have nibbles : nib = nibblesAt (hashOperand s) h := operand ▸ nibEq
  have image : rgba = im.rgba := by rw [rgbaEq, imageSize, nibbles, bytes]
  obtain ⟨legal, fits⟩ := decodeHash_bounds decoded
  obtain ⟨outW, outH⟩ := writeImage_size_toNat s im.rgba legal
  subst imageSize
  refine ⟨_, exec_decode_ok decoded, rfl, outW, outH, ?_, fun i hi => ?_, fun a outside => ?_⟩
  · rw [image, bytes, inverseDct_length]
    ring
  · rw [readByte_complete, readByte_writeImage, if_pos (by omega), Nat.add_sub_cancel_left, image]
  · rw [readByte_complete, readByte_writeImage, if_neg (by omega)]

/-- Settles O9. -/
theorem averageColorCompletes : Obligations.AverageColorCompletes := by
  unfold Obligations.AverageColorCompletes
  refine ⟨decodeWord_encode .averageColor, ?_⟩
  intro s b hasAlpha l p q blue red
  have flag : (fixedHeader s).hasAlpha = hasAlpha := fixedHeader_hasAlpha s
  refine ⟨fun long alphaLong => ?_, fun short => ?_⟩
  · have header := unpackHeader_hashOperand long (flag ▸ alphaLong)
    have lDc : deqLDc (wholeHeader s).lDc = l := deqLDc_wholeHeader s
    have pDc : deqPqDc (wholeHeader s).pDc = p := deqPqDc_wholeHeader_pDc s
    have qDc : deqPqDc (wholeHeader s).qDc = q := deqPqDc_wholeHeader_qDc s
    have colour : inverseLpq (deqLDc (wholeHeader s).lDc) (deqPqDc (wholeHeader s).pDc)
        (deqPqDc (wholeHeader s).qDc) = (red, fSub red q, blue) := by
      rw [lDc, pDc, qDc]
      exact inverseLpq_eq rfl rfl
    have alpha : alphaDcOf (wholeHeader s) =
        if hasAlpha then fDiv (f32 (b 5 % 16)) (f32 15) else 0x3F800000 := by
      rw [alphaDcOf_wholeHeader, flag]
      rfl
    have average := averageFromHash_of_header header colour
    rw [alpha] at average
    exact exec_averageColor_ok average
  · exact exec_averageColor_error
      (averageFromHash_of_error (unpackHeader_hashOperand_short (flag ▸ short)))

/-- Settles O10. -/
theorem aspectRatioCompletes : Obligations.AspectRatioCompletes := by
  unfold Obligations.AspectRatioCompletes
  refine ⟨decodeWord_encode .aspectRatio, fun s => ⟨fun long => ?_, fun short => ?_⟩⟩
  · have ratio := aspectRatio_of_fixed (unpackFixed_hashOperand long)
    rw [ratioOf_fixedHeader] at ratio
    exact exec_aspectRatio_ok ratio
  · exact exec_aspectRatio_error (aspectRatio_short (by rwa [hashOperand_length]))

/-- Settles O24: the hash in HASHBUF is the packed header and nibbles, so both read back (R230,
R241, R245), and the decoder's grid is the encoder's. -/
theorem aspectRatioOfEncodedHash : Obligations.AspectRatioOfEncodedHash := by
  unfold Obligations.AspectRatioOfEncodedHash
  intro s t encoded ok w h e hb g
  obtain ⟨hw, hh, hw0, hh0, -⟩ := (contractOk_iff _ _ _).1 (contractOk_of_encode_ok encoded ok)
  have operand : hashOperand t = pack (headerOf e w h) (nibblesOf e) ++ [] := by
    rw [List.append_nil]
    exact (hashOperand_of_encode_ok encoded ok).trans (encodeHash_pixelOperand s)
  have grid : lGridOf (headerOf e w h) = g :=
    lGridOf_headerOf (Nat.pos_of_ne_zero hw0) hw (Nat.pos_of_ne_zero hh0) hh rfl
  have wellFormed := headerOf_wellFormed e w h
  have header : unpackHeader (hashOperand t) = .ok (headerOf e w h) := by
    rw [operand, unpackHeader_pack wellFormed]
  have count : (nibblesOf e).length =
      nTotalOf (headerOf e w h).hasAlpha (lGridOf (headerOf e w h)) := by
    rw [grid]
    exact nibblesOf_length _ _ _ _
  have nibbles : unpackAc (hashOperand t) (headerOf e w h) = .ok (nibblesOf e) := by
    rw [operand, unpackAc_pack wellFormed count]
  refine ⟨⟨headerOf e w h, header, grid, rfl, rfl, qn_toNat _ _, qn_toNat _ _, qn_toNat _ _,
    qn_toNat _ _, qn_toNat _ _, qn_toNat _ _, fun f alpha => ?fields, nibbles⟩,
    _, exec_aspectRatio_ok (aspectRatio_of_fixed (unpackFixed_of_header header).2), ?ratio⟩
  case fields =>
    rw [alpha_of_headerOf alpha]
    exact ⟨qn_toNat _ _, qn_toNat _ _⟩
  case ratio => rw [ratioOf_alpha, ratioOf, grid]

end Sys2Proof.Machine
end

section
/-! The average colour and the planes by their formulas (R160, R162, R164). -/

namespace Sys2Proof.Machine

/-- R160: the running sum of the alphas, from s on. -/
def alphaSumFrom (s : F32) (px : List Pixel) : F32 := px.foldl (fun s p => fAdd s (alphaOf p)) s

/-- R160: the running sum of one colour component, each value weighted by its pixel's alpha. -/
def weightedSum (c : Pixel → Byte) (px : List Pixel) : F32 :=
  px.foldl (fun s p => fAdd s (fMul (fDiv (alphaOf p) (f32 255)) (f32 (c p).toNat))) 0

/-- R160's loop sums each of the four components by itself. -/
theorem foldl_averageStep (px : List Pixel) :
    px.foldl averageStep ⟨0, 0, 0, 0⟩ =
      ⟨weightedSum Pixel.r px, weightedSum Pixel.g px, weightedSum Pixel.b px,
        alphaSumFrom 0 px⟩ := by
  have red : (px.foldl averageStep ⟨0, 0, 0, 0⟩).r = weightedSum Pixel.r px :=
    (List.foldl_hom Rgba.r fun _ _ => rfl).symm
  have green : (px.foldl averageStep ⟨0, 0, 0, 0⟩).g = weightedSum Pixel.g px :=
    (List.foldl_hom Rgba.g fun _ _ => rfl).symm
  have blue : (px.foldl averageStep ⟨0, 0, 0, 0⟩).b = weightedSum Pixel.b px :=
    (List.foldl_hom Rgba.b fun _ _ => rfl).symm
  have alpha : (px.foldl averageStep ⟨0, 0, 0, 0⟩).a = alphaSumFrom 0 px :=
    (List.foldl_hom Rgba.a fun _ _ => rfl).symm
  rw [← red, ← green, ← blue, ← alpha]

theorem averageColour_eq (px : List Pixel) :
    averageColour px =
      let total := alphaSumFrom 0 px
      if fLt 0 total then
        ⟨fDiv (weightedSum Pixel.r px) total, fDiv (weightedSum Pixel.g px) total,
          fDiv (weightedSum Pixel.b px) total, total⟩
      else ⟨weightedSum Pixel.r px, weightedSum Pixel.g px, weightedSum Pixel.b px, total⟩ := by
  rw [averageColour, foldl_averageStep]

/-- R160: the division leaves the summed alpha as it is. -/
theorem averageColour_alpha (px : List Pixel) : (averageColour px).a = alphaSumFrom 0 px := by
  rw [averageColour_eq]
  dsimp only
  split <;> rfl

/-- A product of +0 and a natural number is +0. -/
theorem fMul_zero_f32 {n : Nat} (small : n < 2 ^ 24) : fMul 0 (f32 n) = 0 := by
  obtain ⟨sign, finite, -⟩ := f32_units small
  have zero_finite : fFinite 0 := by unfold fFinite; decide
  have zero_units : fUnits 0 = 0 := by decide
  have zero_sign : fSign 0 = false := by decide
  rw [fMul_finite zero_finite finite, zero_units, zero_sign, sign, Nat.zero_mul]
  decide +kernel

/-- R160: a pixel of A = 0 adds nothing. -/
theorem averageStep_transparent {p : Pixel} (transparent : p.a = 0) :
    averageStep ⟨0, 0, 0, 0⟩ p = ⟨0, 0, 0, 0⟩ := by
  have alpha : alphaOf p = 0 := by rw [alphaOf, transparent]; decide +kernel
  have weight : fDiv 0 (f32 255) = 0 := by decide +kernel
  have weighted (v : Byte) : fMul 0 (f32 v.toNat) = 0 := fMul_zero_f32 (by omega)
  have sum : fAdd 0 0 = 0 := by decide
  simp only [averageStep, alpha, weight, weighted, sum]

theorem averageColour_transparent {px : List Pixel} (transparent : ∀ p ∈ px, p.a = 0) :
    averageColour px = ⟨0, 0, 0, 0⟩ := by
  have sums : px.foldl averageStep ⟨0, 0, 0, 0⟩ = ⟨0, 0, 0, 0⟩ := by
    induction px with
    | nil => rfl
    | cons p px ih =>
      rw [List.forall_mem_cons] at transparent
      rw [List.foldl_cons, averageStep_transparent transparent.1, ih transparent.2]
  rw [averageColour, sums]
  decide

/-- Settles O26. -/
theorem transparentImageAveragesToZero : Obligations.TransparentImageAveragesToZero := by
  unfold Obligations.TransparentImageAveragesToZero
  exact ⟨fun _ => averageColour_transparent, averageColour_eq, fun _ _ => rfl⟩

end Sys2Proof.Machine
end

section
/-! has_alpha (R161). With every pixel opaque the summed alpha is exactly the pixel count. An A below
255 gives an alpha of at most 255/256, and the whole numbers of 256ths are numbers of the format far
past 10000, so no rounding of a later sum can make up for the missing 256th. -/

namespace Sys2Proof.Machine

/-- Every whole number below 2^24 times a power of two in range is a number of the format. -/
theorem exists_mag_scaled (e : Nat) (he : e ≤ 252) {n : Nat} (hn : n < 2 ^ 24) :
    ∃ M, M < infMag ∧ magUnits M = n * 2 ^ e := by
  induction e generalizing n with
  | zero => exact ⟨n, by rw [infMag_eq]; omega, by rw [magUnits_small hn, pow_zero, mul_one]⟩
  | succ e ih =>
    rcases Nat.lt_or_ge n (2 ^ 23) with low | high
    · obtain ⟨M, hM, units⟩ := ih (by omega) (n := 2 * n) (by omega)
      exact ⟨M, hM, by rw [units, pow_succ]; ring⟩
    · exact ⟨(e + 1) * 2 ^ 23 + n, by rw [infMag_eq]; omega,
        magUnits_scaled (.inr high) hn.le⟩

/-- A finite number that is not negative and at most n / 256. -/
structure AtMost256ths (x : F32) (n : Nat) : Prop where
  finite : fFinite x
  sign : fSign x = false
  units : fUnits x ≤ n * 2 ^ 141

/-- Rounding does not pass a whole number of 256ths. -/
theorem AtMost256ths.of_fRound {num den n : Nat} (pos : 0 < den) (small : n < 2 ^ 24)
    (h : num ≤ n * 2 ^ 141 * den) : AtMost256ths (fRound false num den) n := by
  obtain ⟨M, hM, units⟩ := exists_mag_scaled 141 (by norm_num) small
  rw [← units] at h
  obtain ⟨finite, bound⟩ := fRound_le_units false pos hM h
  exact ⟨finite, fRound_sign _ _ _, units ▸ bound⟩

theorem AtMost256ths.add {x y : F32} {m n : Nat} (hx : AtMost256ths x m) (hy : AtMost256ths y n)
    (small : m + n < 2 ^ 24) : AtMost256ths (fAdd x y) (m + n) := by
  have hxu := hx.units
  have hyu := hy.units
  rw [fAdd_nonneg hx.finite hy.finite hx.sign hy.sign]
  exact .of_fRound one_pos small (by omega)

theorem AtMost256ths.lt_f32 {x : F32} {m n : Nat} (hx : AtMost256ths x m) (lt : m < 256 * n)
    (small : n < 2 ^ 24) : fLt x (f32 n) = true := by
  obtain ⟨sign, finite, units⟩ := f32_units small
  have bound := hx.units
  rw [fLt_finite_iff hx.finite finite, fInt, fInt, hx.sign, sign, units]
  simp only [Bool.false_eq_true, if_false]
  omega

/-- R160: the alpha of a pixel against a bound in 256ths. -/
theorem alphaOf_atMost {p : Pixel} {n : Nat} (small : n < 2 ^ 24) (h : p.a.toNat * 256 ≤ n * 255) :
    AtMost256ths (alphaOf p) n := by
  have byte := p.a.isLt
  obtain ⟨sa, fa, ua⟩ := f32_units (n := p.a.toNat) (by omega)
  obtain ⟨s255, f255, u255⟩ := f32_units (n := 255) (by norm_num)
  have upos : 0 < fUnits (f32 255) := by rw [u255]; positivity
  rw [alphaOf, fDiv_finite fa f255 upos.ne', sa, s255, bne_self_eq_false]
  refine .of_fRound upos small ?_
  rw [ua, u255]
  calc p.a.toNat * 2 ^ 149 * 2 ^ 149 = p.a.toNat * 256 * (2 ^ 141 * 2 ^ 149) := by ring
    _ ≤ n * 255 * (2 ^ 141 * 2 ^ 149) := by gcongr
    _ = n * 2 ^ 141 * (255 * 2 ^ 149) := by ring

theorem alphaSumFrom_atMost (px : List Pixel) {s : F32} {m : Nat} (hs : AtMost256ths s m)
    (small : m + 256 * px.length < 2 ^ 24) :
    AtMost256ths (alphaSumFrom s px) (m + 256 * px.length) := by
  induction px generalizing s m with
  | nil => exact hs
  | cons p px ih =>
    rw [List.length_cons] at small ⊢
    have alpha : AtMost256ths (alphaOf p) 256 := alphaOf_atMost (by norm_num) (by omega)
    have rest : m + 256 * (px.length + 1) = m + 256 + 256 * px.length := by ring
    rw [rest] at small ⊢
    exact ih (hs.add alpha (by omega)) small

/-- R161: one pixel that is not opaque keeps the summed alpha below the pixel count. -/
theorem alphaSum_lt_of_mem {px : List Pixel} {p : Pixel} (mem : p ∈ px) (notOpaque : p.a.toNat < 255)
    (small : px.length ≤ 10000) : fLt (alphaSumFrom 0 px) (f32 px.length) = true := by
  obtain ⟨before, after, rfl⟩ := List.append_of_mem mem
  rw [List.length_append, List.length_cons] at small ⊢
  have start : AtMost256ths 0 0 := ⟨by unfold fFinite; decide, by decide, by decide⟩
  have sumBefore := alphaSumFrom_atMost before start (by omega)
  have alpha : AtMost256ths (alphaOf p) 255 := alphaOf_atMost (by norm_num) (by omega)
  have sum := alphaSumFrom_atMost after (sumBefore.add alpha (by omega)) (by omega)
  have parts : alphaSumFrom 0 (before ++ p :: after) =
      alphaSumFrom (fAdd (alphaSumFrom 0 before) (alphaOf p)) after := List.foldl_append
  rw [parts]
  exact sum.lt_f32 (by omega) (by omega)

/-- Sums of natural numbers are exact below 2^24. -/
theorem fAdd_f32 {m n : Nat} (hm : m < 2 ^ 24) (hn : n < 2 ^ 24) :
    fAdd (f32 m) (f32 n) = f32 (m + n) := by
  obtain ⟨sm, fm, um⟩ := f32_units hm
  obtain ⟨sn, fn, un⟩ := f32_units hn
  rw [fAdd_nonneg fm fn sm sn, um, un, ← Nat.add_mul, f32]

theorem alphaOf_opaque {p : Pixel} (h : p.a.toNat = 255) : alphaOf p = f32 1 := by
  rw [alphaOf, h]
  exact fDiv_f32_mul (k := 1) (m := 255) (by norm_num) (by norm_num) (by norm_num)

/-- R161: the summed alpha of opaque pixels counts them. -/
theorem alphaSumFrom_opaque {px : List Pixel} (allOpaque : ∀ p ∈ px, p.a.toNat = 255) {k : Nat}
    (small : k + px.length < 2 ^ 24) : alphaSumFrom (f32 k) px = f32 (k + px.length) := by
  induction px generalizing k with
  | nil => rfl
  | cons p px ih =>
    rw [List.forall_mem_cons] at allOpaque
    rw [List.length_cons] at small ⊢
    calc alphaSumFrom (f32 k) (p :: px) = alphaSumFrom (fAdd (f32 k) (alphaOf p)) px := rfl
      _ = alphaSumFrom (f32 (k + 1)) px := by
        rw [alphaOf_opaque allOpaque.1, fAdd_f32 (by omega) (by norm_num)]
      _ = f32 (k + (px.length + 1)) := by
        rw [ih allOpaque.2 (by omega), Nat.add_right_comm, Nat.add_assoc]

theorem fLt_irrefl (x : F32) : fLt x x = false := by
  simp [fLt]

/-- Settles O25: one pixel that is not opaque keeps the sum below the count; without one the sum is
the count. -/
theorem hasAlphaIffSomePixelNotOpaque : Obligations.HasAlphaIffSomePixelNotOpaque := by
  unfold Obligations.HasAlphaIffSomePixelNotOpaque
  refine ⟨fun _ _ _ => rfl, fun w h px _ hw _ hh count => ?_⟩
  have small : px.length ≤ 10000 := count ▸ Nat.mul_le_mul hw hh
  rw [hasAlphaOf, averageColour_alpha, ← count]
  cases notOpaque : px.any fun p => decide (p.a.toNat < 255)
  case true =>
    obtain ⟨p, mem, lt⟩ := List.any_eq_true.1 notOpaque
    exact alphaSum_lt_of_mem mem (of_decide_eq_true lt) small
  case false =>
    have allOpaque : ∀ p ∈ px, p.a.toNat = 255 := by
      intro p mem
      have := of_decide_eq_false (Bool.eq_false_iff.2 (List.any_eq_false.1 notOpaque p mem))
      omega
    have zero : f32 0 = 0 := by decide +kernel
    rw [← zero, alphaSumFrom_opaque allOpaque (by omega), Nat.zero_add, fLt_irrefl]

end Sys2Proof.Machine
end

section
/-! Where the bytes of a decoded image stand and what they hold (R165, R166, R281 to R286). -/

namespace Sys2Proof.Machine

/-- Blocks of n entries, one after the other: entry j of block i stands at j + i * n. -/
theorem getD_flatMap_range {α : Type} {f : Nat → List α} {n : Nat} (len : ∀ i, (f i).length = n)
    (m : Nat) {i j : Nat} (hi : i < m) (hj : j < n) (d : α) :
    ((List.range m).flatMap f).getD (j + i * n) d = (f i).getD j d := by
  induction m with
  | zero => omega
  | succ m ih =>
    have length : ((List.range m).flatMap f).length = m * n := by
      simp [List.length_flatMap, len]
    rw [List.range_succ, List.flatMap_append, List.flatMap_singleton]
    rcases Nat.lt_succ_iff_lt_or_eq.1 hi with lt | rfl
    · have inside : j + i * n < m * n := by
        calc j + i * n < (i + 1) * n := by rw [Nat.succ_mul]; omega
          _ ≤ m * n := Nat.mul_le_mul_right n lt
      rw [List.getD_append _ _ _ _ (length ▸ inside), ih lt]
    · rw [List.getD_append_right _ _ _ _ (by rw [length]; omega), length, Nat.add_sub_cancel]

/-- R286: byte c of pixel (x, y). -/
theorem inverseDct_getD (cos : F32 → F32) (v : DeqImage) {w h x y c : Nat} (hx : x < w) (hy : y < h)
    (hc : c < 4) :
    (inverseDct cos v w h).getD (4 * (x + y * w) + c) 0 =
      (pixelBytes (invBasis cos w x) (invBasis cos h y) v).getD c 0 := by
  have pixel (y x : Nat) : (pixelBytes (invBasis cos w x) (invBasis cos h y) v).length = 4 := rfl
  have row (y : Nat) : ((List.range w).flatMap fun x =>
      pixelBytes (invBasis cos w x) (invBasis cos h y) v).length = w * 4 := by
    simp [List.length_flatMap, pixel]
  have place : 4 * (x + y * w) + c = (c + x * 4) + y * (w * 4) := by ring
  rw [place, inverseDct, getD_flatMap_range row h hy (by omega),
    getD_flatMap_range (pixel y) w hx hc]

/-- R285: byte c of a pixel is `Byte8` of component c. -/
theorem pixelBytes_getD (fx fy : Nat → F32) (v : DeqImage) (c : Nat) :
    let rgb := inverseLpq (channelAt fx fy v.l) (channelAt fx fy v.p) (channelAt fx fy v.q)
    (pixelBytes fx fy v).getD c 0 =
      byte8 ([rgb.1, rgb.2.1, rgb.2.2, v.a.elim fOne (channelAt fx fy)].getD c 0) := by
  intro rgb
  have zero_byte : byte8 0 = 0 := by decide +kernel
  have mapped : pixelBytes fx fy v =
      [rgb.1, rgb.2.1, rgb.2.2, v.a.elim fOne (channelAt fx fy)].map byte8 := by
    unfold pixelBytes
    cases v.a <;> rfl
  rw [mapped, ← zero_byte, List.getD_map]

/-- Settles O34. -/
theorem decodedImageIsRowMajor : Obligations.DecodedImageIsRowMajor := by
  unfold Obligations.DecodedImageIsRowMajor
  intro cos v w h x y c hx hy hc fx fy value b r g z unit
  constructor
  · rw [inverseDct_length]; ring
  · rw [inverseDct_getD cos v hx hy hc, pixelBytes_getD, byte8_toNat]
    rfl

end Sys2Proof.Machine
end

section
/-! The L grid as whole-number arithmetic (R180): the quotient of two dimensions is exact enough for its
rounding. A half is a number of the format, so no rounding of the quotient falls below it; a quotient
below a half stays 1/256 below it, because the divisor is at most 128. -/

namespace Sys2Proof.Machine

/-- R12, R14: the rounded quotient of two whole numbers, divided by at most 128. -/
theorem roundHA_fDiv_f32 {n m : Nat} (hn : n < 2 ^ 14) (pos : 0 < m) (hm : m ≤ 128) :
    roundHA (fDiv (f32 n) (f32 m)) = f32 ((2 * n + m) / (2 * m)) := by
  obtain ⟨k, hk⟩ : ∃ k, k = (2 * n + m) / (2 * m) := ⟨_, rfl⟩
  have half_le : k * (2 * m) ≤ 2 * n + m := hk ▸ Nat.div_mul_le_self _ _
  have lt_half : 2 * n + m < (k + 1) * (2 * m) :=
    (Nat.div_lt_iff_lt_mul (by omega)).1 (by omega)
  have small : k ≤ 2 * n + m := hk ▸ Nat.div_le_self _ _
  obtain ⟨sn, fn, un⟩ := f32_units (n := n) (by omega)
  obtain ⟨sm, fm, um⟩ := f32_units (n := m) (by omega)
  have upos : 0 < fUnits (f32 m) := by rw [um]; positivity
  have quotient : fDiv (f32 n) (f32 m) =
      fRound false (fUnits (f32 n) * 2 ^ 149) (fUnits (f32 m)) := by
    rw [fDiv_finite fn fm upos.ne', sn, sm, bne_self_eq_false]
  have above : AtMost256ths (fDiv (f32 n) (f32 m)) (256 * k + 127) := by
    have apart : 256 * n ≤ (256 * k + 127) * m := by nlinarith
    rw [quotient]
    refine .of_fRound upos (by omega) ?_
    rw [un, um]
    calc n * 2 ^ 149 * 2 ^ 149 = 256 * n * (2 ^ 141 * 2 ^ 149) := by ring
      _ ≤ (256 * k + 127) * m * (2 ^ 141 * 2 ^ 149) := by gcongr
      _ = (256 * k + 127) * 2 ^ 141 * (m * 2 ^ 149) := by ring
  have below : (2 * k - 1) * 2 ^ 148 ≤ fUnits (fDiv (f32 n) (f32 m)) := by
    obtain ⟨M, hM, units⟩ := exists_mag_scaled 148 (by norm_num) (n := 2 * k - 1) (by omega)
    have numerator : (2 * k - 1) * m ≤ 2 * n := by
      rw [Nat.sub_mul, Nat.one_mul]
      have : 2 * k * m = k * (2 * m) := by ring
      omega
    have exact_le : magUnits M * fUnits (f32 m) ≤ fUnits (f32 n) * 2 ^ 149 := by
      rw [units, un, um]
      calc (2 * k - 1) * 2 ^ 148 * (m * 2 ^ 149) = (2 * k - 1) * m * (2 ^ 148 * 2 ^ 149) := by ring
        _ ≤ 2 * n * (2 ^ 148 * 2 ^ 149) := by gcongr
        _ = n * 2 ^ 149 * 2 ^ 149 := by ring
    rw [← units, fUnits, quotient, fRound_mag, magUnits_le_iff]
    exact le_min (le_roundMag upos exact_le) hM.le
  have below_next := above.units
  rw [roundHA_finite above.finite above.sign, ← hk]
  congr 1
  omega

/-- R180 in whole numbers. -/
theorem lGridDim_eq {limit d m : Nat} (le7 : limit ≤ 7) (hd : d ≤ m) (pos : 0 < m) (hm : m ≤ 100) :
    lGridDim limit d m = max 1 ((2 * limit * d + m) / (2 * m)) := by
  have product : limit * d ≤ 7 * 100 := Nat.mul_le_mul le7 (hd.trans hm)
  have quotient : (2 * (limit * d) + m) / (2 * m) ≤ 2 * (limit * d) + m := Nat.div_le_self _ _
  rw [lGridDim, roundHA_fDiv_f32 (by omega) pos (by omega), toU_f32_small (by omega), Nat.mul_assoc]

/-- R180: an axis no shorter than the other gets the whole limit. -/
theorem lGrid_fst_of_le {w h : Nat} (a : Bool) (hw : 1 ≤ w) (hw' : w ≤ 100) (le : h ≤ w) :
    (lGrid w h a).1 = lMaxOf a := by
  obtain ⟨pos, le7⟩ := lMaxOf_bounds a
  rw [lGrid, Nat.max_eq_left le]
  exact lGridDim_long pos le7 hw hw'

/-- Settles O27. -/
theorem longAxisGetsLimit : Obligations.LongAxisGetsLimit := by
  unfold Obligations.LongAxisGetsLimit
  intro w h a hw hw' hh hh' g limit
  obtain ⟨-, le7⟩ := lMaxOf_bounds a
  obtain ⟨⟨x1, xl⟩, y1, yl⟩ := lGrid_bounds a hw hw' hh hh'
  exact ⟨lGrid_fst_of_le a hw hw', (lGrid_long a hw hw' hh hh').2, x1, xl, y1, yl,
    lGridDim_eq le7 (le_max_left w h) (by omega) (by omega),
    lGridDim_eq le7 (le_max_right w h) (by omega) (by omega)⟩

end Sys2Proof.Machine
end

section
/-! The coefficients (R181 to R183): the two loops over y and x as one sum over the plane, and the
frequency 0, where the basis is 1 and the sum is the plane's. Then what normalising does (R186). -/

namespace Sys2Proof.Machine

/-- A loop over rows and within each over columns visits the entries of the plane in order. -/
theorem foldl_range_mul {α : Type} (f : α → Nat → Nat → α) (a : α) {w : Nat} (pos : 0 < w) (h : Nat) :
    (List.range h).foldl (fun s y => (List.range w).foldl (fun s x => f s x y) s) a =
      (List.range (h * w)).foldl (fun s i => f s (i % w) (i / w)) a := by
  induction h with
  | zero => simp
  | succ h ih =>
    rw [List.range_succ, List.foldl_append, ih, Nat.succ_mul, List.range_add, List.foldl_append,
      List.foldl_map, List.foldl_cons, List.foldl_nil]
    refine List.foldl_ext _ _ _ fun s x mem => ?_
    have lt : x < w := List.mem_range.1 mem
    rw [Nat.mul_comm h w, Nat.mul_add_mod, Nat.mod_eq_of_lt lt, Nat.mul_add_div pos,
      Nat.div_eq_of_lt lt, Nat.add_zero]

theorem foldl_range_getD {α β : Type} (f : β → α → β) (b : β) (l : List α) (d : α) :
    (List.range l.length).foldl (fun s i => f s (l.getD i d)) b = l.foldl f b := by
  have entries : (List.range l.length).map (fun i => l.getD i d) = l :=
    List.ext_getElem (by simp) fun i _ hi => by simp [hi]
  conv_rhs => rw [← entries, List.foldl_map]

/-- R182: the sum runs over the plane's entries in their order. -/
theorem coefficient_eq (cos : F32 → F32) (ch : List F32) {w : Nat} (pos : 0 < w) (h cx cy : Nat) :
    coefficient cos ch w h cx cy =
      fDiv ((List.range (h * w)).foldl (fun f i =>
        fAdd f (fMul (fMul (ch.getD i 0) (fwdBasis cos w cx (i % w))) (fwdBasis cos h cy (i / w)))) 0)
        (f32 (w * h)) := by
  rw [coefficient, foldl_range_mul (fun f x y =>
    fAdd f (fMul (fMul (ch.getD (x + y * w) 0) (fwdBasis cos w cx x)) (fwdBasis cos h cy y))) 0 pos]
  simp only [Nat.mul_comm _ w, Nat.mod_add_div]

/-! ### Frequency 0 -/

theorem f32_zero : f32 0 = 0 := by decide +kernel

/-- A product of a finite number that is not negative and +0 is +0. -/
theorem fMul_zero {x : F32} (finite : fFinite x) (sign : fSign x = false) :
    fMul x 0 = 0 ∧ fMul 0 x = 0 := by
  have zero_finite : fFinite 0 := by unfold fFinite; decide
  have zero_units : fUnits 0 = 0 := by decide
  have zero_sign : fSign 0 = false := by decide
  rw [fMul_finite finite zero_finite, fMul_finite zero_finite finite, zero_units, zero_sign, sign,
    Nat.mul_zero, Nat.zero_mul]
  decide +kernel

/-- R181: at frequency 0 the cosine's operand is +0. -/
theorem fwdBasis_zero (cos : F32 → F32) {n x : Nat} (pos : 0 < n) (hn : n ≤ 100) (hx : x ≤ 100) :
    fwdBasis cos n 0 x = cos 0 := by
  obtain ⟨sn, fn, un⟩ := f32_units (n := n) (by omega)
  obtain ⟨sx, fx, ux⟩ := f32_units (n := x) (by omega)
  have upos : 0 < fUnits (f32 n) := by rw [un]; positivity
  have pi_finite : fFinite pi32 := by unfold fFinite; decide
  have pi_sign : fSign pi32 = false := by decide
  have pi_units : fUnits pi32 ≤ 4 * 2 ^ 149 := by decide +kernel
  have step : AtMost256ths (fDiv pi32 (f32 n)) 1024 := by
    rw [fDiv_finite pi_finite fn upos.ne', pi_sign, sn, bne_self_eq_false]
    refine .of_fRound upos (by norm_num) ?_
    rw [un]
    calc fUnits pi32 * 2 ^ 149 ≤ 4 * 2 ^ 149 * (n * 2 ^ 149) := by gcongr; nlinarith
      _ = 1024 * 2 ^ 141 * (n * 2 ^ 149) := by ring
  have place : AtMost256ths (f32 x) (256 * x) := ⟨fx, sx, by omega⟩
  have half : AtMost256ths fHalf 128 := ⟨by unfold fFinite; decide, by decide, by decide +kernel⟩
  have middle := place.add half (by omega)
  rw [fwdBasis, f32_zero, (fMul_zero step.finite step.sign).1,
    (fMul_zero middle.finite middle.sign).2]

/-- R12: multiplying by 1 changes nothing but the pattern of a NaN. -/
theorem fMul_one {x : F32} (number : fIsNaN x = false) : fMul x fOne = x := by
  have one_finite : fFinite fOne := by unfold fFinite; decide
  have one_sign : fSign fOne = false := by decide
  have one_units : fUnits fOne = 2 ^ 149 := by decide +kernel
  by_cases finite : fFinite x
  · rw [fMul_finite finite one_finite, one_sign, one_units, Bool.bne_false, fUnits,
      fRound_exact (by positivity) (le_of_lt finite), fPack_eta]
  · have inf : fIsInf x = true := by simpa [number] using (not_finite_iff x).1 finite
    rw [fMul_inf_finite inf one_finite, one_units, if_neg (by positivity), one_sign, Bool.bne_false,
      ← (fIsInf_iff_mag x).1 inf, fPack_eta]

/-- R183: a sum does not change when a summand is multiplied by 1; a NaN gives the sum NaN either
way. -/
theorem fAdd_fMul_one_one (f x : F32) : fAdd f (fMul (fMul x fOne) fOne) = fAdd f x := by
  cases nan : fIsNaN x with
  | false => rw [fMul_one nan, fMul_one nan]
  | true =>
    rw [fMul_nan (.inl nan), fMul_nan (.inl fIsNaN_fNaN), fAdd_nan (.inr fIsNaN_fNaN),
      fAdd_nan (.inr nan)]

/-- R183: the DC is the running sum of the plane divided by the pixel count. -/
theorem coefficient_zero {cos : F32 → F32} (unit : cos 0 = fOne) {ch : List F32} {w h : Nat}
    (hw : 1 ≤ w) (hw' : w ≤ 100) (hh : 1 ≤ h) (hh' : h ≤ 100) (len : ch.length = w * h) :
    coefficient cos ch w h 0 0 = fDiv (ch.foldl fAdd 0) (f32 (w * h)) := by
  rw [coefficient_eq cos ch hw, ← foldl_range_getD fAdd 0 ch 0, len, Nat.mul_comm h w]
  congr 1
  refine List.foldl_ext _ _ _ fun f i mem => ?_
  have column : i % w < w := Nat.mod_lt i hw
  have row : i / w < h := Nat.div_lt_of_lt_mul (List.mem_range.1 mem)
  rw [fwdBasis_zero cos hw hw' (by omega), fwdBasis_zero cos hh hh' (by omega), unit,
    fAdd_fMul_one_one]

/-! ### Normalisation -/

/-- R186: a channel whose scale is above 0 is normalised. -/
theorem normalise_of_pos {scale : F32} (pos : fLt 0 scale = true) (ac : List F32) :
    normalise ac scale = ac.map fun v => fAdd fHalf (fMul (fDiv fHalf scale) v) := if_pos pos

/-- R186: any other channel is left as it is. -/
theorem normalise_of_not_pos {scale : F32} (notPos : fLt 0 scale = false) (ac : List F32) :
    normalise ac scale = ac := if_neg (Bool.eq_false_iff.1 notPos)

/-- Settles O28. -/
theorem dcIsRunningMean : Obligations.DcIsRunningMean := by
  unfold Obligations.DcIsRunningMean
  intro cos ch w h hw hw' hh hh' len
  refine ⟨fun cx cy => coefficient_eq cos ch hw h cx cy,
    fun nx ny => ⟨rfl, rfl, fun pos => normalise_of_pos pos _,
      fun notPos => normalise_of_not_pos notPos _⟩, fun unit => ⟨?_, ?_, ?_⟩⟩
  · exact fun x hx => (fwdBasis_zero cos hw hw' (by omega)).trans unit
  · exact fun y hy => (fwdBasis_zero cos hh hh' (by omega)).trans unit
  · exact coefficient_zero unit hw hw' hh hh' len

end Sys2Proof.Machine
end

section
/-! A channel whose AC values are all zeros (R185, R186, R208). -/

namespace Sys2Proof.Machine

/-- R185: the largest absolute value of zeros is +0. -/
theorem acScale_of_zeros {ac : List F32} (zeros : ∀ v ∈ ac, v = 0 ∨ v = 0x80000000) :
    acScale ac = 0 := by
  have step (v : F32) (hv : v = 0 ∨ v = 0x80000000) : fMax 0 (fAbs v) = 0 := by
    rcases hv with rfl | rfl <;> decide
  induction ac with
  | nil => rfl
  | cons v ac ih =>
    rw [List.forall_mem_cons] at zeros
    rw [acScale, List.foldl_cons, step v zeros.1]
    exact ih zeros.2

/-- R208: the nibble of either zero is 0. -/
theorem qac_of_zero {v : F32} (zero : v = 0 ∨ v = 0x80000000) : qac v = 0 := by
  rcases zero with rfl | rfl <;> decide +kernel

/-- Settles O29: with scale 0 nothing is normalised, and each zero packs to the nibble 0. -/
theorem zeroChannelPacksZeroNibbles : Obligations.ZeroChannelPacksZeroNibbles := by
  unfold Obligations.ZeroChannelPacksZeroNibbles
  intro ac zeros
  have kept : normalise ac 0 = ac := normalise_of_not_pos (fLt_irrefl 0) ac
  rw [acScale_of_zeros zeros, kept]
  exact ⟨rfl, rfl, List.map_congr_left fun v mem => qac_of_zero (zeros v mem)⟩

end Sys2Proof.Machine
end

section
/-! The quantizer (R200 to R210): each field holds the whole of its scaled and rounded number, the
alpha fields stand only with alpha, and the ties and saturations of the vectors. -/

namespace Sys2Proof.Machine

/-! ### The fields -/

/-- R201. -/
theorem quantLDc_toNat (x : F32) : (quantLDc x).toNat = toU 6 (roundHA (fMul (f32 63) x)) :=
  qn_toNat 6 _

/-- R202, R203. -/
theorem quantPqDc_toNat (x : F32) :
    (quantPqDc x).toNat = toU 6 (roundHA (fAdd f31_5 (fMul f31_5 x))) :=
  qn_toNat 6 _

/-- R204. -/
theorem quantLScale_toNat (x : F32) : (quantLScale x).toNat = toU 5 (roundHA (fMul (f32 31) x)) :=
  qn_toNat 5 _

/-- R205. -/
theorem quantPqScale_toNat (x : F32) : (quantPqScale x).toNat = toU 6 (roundHA (fMul (f32 63) x)) :=
  qn_toNat 6 _

/-- R206, R207. -/
theorem quantAlpha_toNat (x : F32) : (quantAlpha x).toNat = toU 4 (roundHA (fMul (f32 15) x)) :=
  qn_toNat 4 _

/-- R208. -/
theorem qac_toNat (v : F32) : (qac v).toNat = toU 4 (roundHA (fMul (f32 15) v)) := qn_toNat 4 _

/-- R209: a grid side up to 7 fits the three bits of l_min. -/
theorem quantLMin_toNat (w h : Nat) {g : Nat × Nat} (hx : g.1 ≤ 7) (hy : g.2 ≤ 7) :
    (quantLMin w h g).toNat = if h < w then g.2 else g.1 := by
  have fits : (if h < w then g.2 else g.1) < 2 ^ 3 := by split <;> omega
  rw [quantLMin, BitVec.toNat_ofNat, Nat.mod_eq_of_lt fits]

/-! ### The vectors -/

/-- V-Q-1: both zeros, the ties at 7.5, 0.5 and 14.5 with the number just below the first, and 15
with the number just above it. -/
theorem qac_vectors :
    ([0x00000000, 0x80000000, 0x3EFFFFFF, 0x3F000000, 0x3D088889, 0x3F777778, 0x3F800000,
      0x3F800001] : List F32).map qac = [0, 0, 7, 8, 1, 15, 15, 15] := by
  decide +kernel

/-- V-Q-2: the tie of a DC of 0, the exact 21, the tie at 62.5, and 63.4 past the maximum. -/
theorem quantDc_vectors :
    quantPqDc 0 = 32 ∧ quantLDc 0x3EAAAAAB = 21 ∧ qn 6 0x427A0000 = 63 ∧ qn 6 0x427D999A = 63 := by
  decide +kernel

/-- Settles O30: no field loses a bit of its number, whether alpha is there or not. -/
theorem acNibbleVectors : Obligations.AcNibbleVectors := by
  unfold Obligations.AcNibbleVectors
  refine ⟨fun l p q a hasAlpha w h g hx hy => ?_, qac_toNat, qac_vectors, quantDc_vectors⟩
  refine ⟨quantLDc_toNat l.dc, quantPqDc_toNat p.dc, quantPqDc_toNat q.dc,
    quantLScale_toNat l.scale, quantPqScale_toNat p.scale, quantPqScale_toNat q.scale,
    rfl, rfl, quantLMin_toNat w h hx hy, ?withoutAlpha, ?withAlpha⟩
  case withoutAlpha =>
    rintro rfl
    rfl
  case withAlpha =>
    rintro rfl
    exact ⟨⟨quantAlpha a.dc, quantAlpha a.scale⟩, rfl, quantAlpha_toNat a.dc,
      quantAlpha_toNat a.scale⟩

end Sys2Proof.Machine
end

section
/-! Reading a hash (R240 to R252): the nibble state machine against R245's list, and which bytes a
command reads. Two hashes on which the header bytes and the nibbles agree give the same results. -/

namespace Sys2Proof.Machine

/-! ### The nibble state machine -/

/-- Nibble k of the stream from offset `start` is nibble k of the bytes from there on. -/
theorem nibbleAt_drop (hb : List Byte) (start k : Nat) :
    nibbleAt (hb.drop start) 0 k = nibbleAt hb start k := by
  simp only [nibbleAt, List.getD_eq_getElem?_getD, List.getElem?_drop, Nat.zero_add]

/-- R246: from `empty`, two reads use up one byte, its low nibble before its high one. -/
theorem readNibbles_pair (n : Nat) (b : Byte) (rest : List Byte) :
    readNibbles (n + 2) .empty (b :: rest) =
      (readNibbles n .empty rest).map fun ns => nibbleAt [b] 0 0 :: nibbleAt [b] 0 1 :: ns := by
  rw [readNibbles, readNibbles]
  cases readNibbles n .empty rest <;> rfl

/-- R245: the list of n + 2 nibbles is the two of the first byte, then the list of the bytes after
it. -/
theorem map_nibbleAt_cons (n : Nat) (b : Byte) (rest : List Byte) :
    (List.range (n + 2)).map (nibbleAt (b :: rest) 0) =
      nibbleAt [b] 0 0 :: nibbleAt [b] 0 1 :: (List.range n).map (nibbleAt rest 0) := by
  rw [List.range_succ_eq_map, List.range_succ_eq_map]
  simp only [List.map_cons, List.map_map]
  refine congrArg₂ _ rfl (congrArg₂ _ rfl (List.map_congr_left fun k _ => ?_))
  exact nibbleAt_add_two b rest k

/-- R246: two nibbles at a time, both readers use up one byte. -/
theorem readNibbles_empty (n : Nat) (bs : List Byte) :
    readNibbles n .empty bs =
      if bs.length < (n + 1) / 2 then .error .tooShort
      else .ok ((List.range n).map (nibbleAt bs 0)) := by
  induction n using Nat.twoStepInduction generalizing bs with
  | zero => simp [readNibbles]
  | one => cases bs <;> simp [readNibbles, nibbleAt]
  | more n ih _ =>
    cases bs with
    | nil =>
      rw [if_pos (by simp only [List.length_nil]; omega)]
      rfl
    | cons b rest =>
      have enough : (b :: rest).length < (n + 2 + 1) / 2 ↔ rest.length < (n + 1) / 2 := by
        rw [List.length_cons]; omega
      rw [readNibbles_pair, ih, map_nibbleAt_cons]
      simp only [enough]
      split <;> rfl

/-- Settles O17: with a count above 0, a start past the end is TooShort for both readers. -/
theorem unpackersAgree : Obligations.UnpackersAgree := by
  unfold Obligations.UnpackersAgree
  intro hb start n pos
  have short : (hb.drop start).length < (n + 1) / 2 ↔ hb.length < start + (n + 1) / 2 := by
    rw [List.length_drop]; omega
  have list : nibbleAt (hb.drop start) 0 = nibbleAt hb start := funext (nibbleAt_drop hb start)
  rw [readNibbles_empty, list]
  simp only [short]

/-! ### What a result depends on -/

/-- R251: the aspect ratio is a function of the fixed header. -/
theorem aspectRatio_congr {hb hb' : List Byte} (fixed : unpackFixed hb' = unpackFixed hb) :
    aspectRatio hb' = aspectRatio hb := by
  rw [aspectRatio, fixed, aspectRatio]

/-- R250: the average colour is a function of the header. -/
theorem averageFromHash_congr {hb hb' : List Byte} (header : unpackHeader hb' = unpackHeader hb) :
    averageFromHash hb' = averageFromHash hb := by
  rw [averageFromHash, header, averageFromHash]

/-- R144: the image of a long enough hash is a function of its header and its nibbles. -/
theorem decodeHash_congr (cos : F32 → F32) {hb hb' : List Byte} {h : Header}
    (header : unpackHeader hb = .ok h) (header' : unpackHeader hb' = .ok h)
    (long : hashLenOf h ≤ hb.length) (long' : hashLenOf h ≤ hb'.length)
    (nibbles : nibblesAt hb' h = nibblesAt hb h) : decodeHash cos hb' = decodeHash cos hb := by
  obtain ⟨⟨w, ht, rgba⟩, decoded, size, bytes⟩ := decodeHash_long cos header long
  obtain ⟨⟨w', ht', rgba'⟩, decoded', size', bytes'⟩ := decodeHash_long cos header' long'
  obtain ⟨rfl, rfl⟩ := Prod.mk.inj (size.symm.trans size')
  rw [nibbles] at bytes'
  have same : rgba' = rgba := bytes'.trans bytes.symm
  rw [decoded, decoded', same]

/-- R241, R243: a header that reads takes all its bytes from the hash. -/
theorem headerBytes_le_length {hb : List Byte} {h : Header} (header : unpackHeader hb = .ok h) :
    Config.headerBytes h.hasAlpha ≤ hb.length := by
  rcases unpackHeader_cases hb with ⟨e, -⟩ | ⟨h', -, five, -, ⟨flag, e⟩ | ⟨flag, six, e⟩⟩ <;>
    rw [e] at header <;> cases header <;> simpa [Config.headerBytes, flag]

/-- R244: the header has at least the five fixed bytes. -/
theorem five_le_headerBytes (hasAlpha : Bool) : 5 ≤ Config.headerBytes hasAlpha := by
  cases hasAlpha <;> decide

/-- R241, R243: only the header's own bytes decide how it reads. -/
theorem unpackHeader_congr {hb hb' : List Byte} {h : Header} (header : unpackHeader hb = .ok h)
    (long : Config.headerBytes h.hasAlpha ≤ hb'.length)
    (agree : ∀ i < Config.headerBytes h.hasAlpha, hb'.getD i 0 = hb.getD i 0) :
    unpackHeader hb' = .ok h := by
  have five := five_le_headerBytes h.hasAlpha
  obtain ⟨five_le, -⟩ := unpackFixed_of_header header
  have fixed : unpackFixed hb' = unpackFixed hb :=
    unpackFixed_congr five_le (five.trans long) fun i hi => agree i (hi.trans_le five)
  rw [← header, unpackHeader, unpackHeader, fixed]
  rcases unpackHeader_cases hb with ⟨e, -⟩ | ⟨h', fixed', -, -, ⟨flag, e⟩ | ⟨flag, six, e⟩⟩ <;>
    rw [e] at header <;> cases header <;> rw [fixed']
  · simp [unpackAlpha, flag]
  · have bytes : Config.headerBytes h'.hasAlpha = 6 := by rw [flag]; rfl
    have byte5 : hb'.getD 5 0 = hb.getD 5 0 := agree 5 (by rw [bytes]; omega)
    have long6 : 6 ≤ hb'.length := bytes ▸ long
    simp only [unpackAlpha, byte5, if_neg (Nat.not_lt.2 six), if_neg (Nat.not_lt.2 long6)]

/-- R245: a nibble is a function of its byte. -/
theorem nibbleAt_congr {hb hb' : List Byte} {start k : Nat}
    (byte : hb'.getD (start + k / 2) 0 = hb.getD (start + k / 2) 0) :
    nibbleAt hb' start k = nibbleAt hb start k := by
  rw [nibbleAt, byte, nibbleAt]

/-! ### Trailing bytes -/

/-- R252: no nibble of a long enough hash stands in the bytes after it. -/
theorem nibblesAt_append {hb : List Byte} {h : Header} (long : hashLenOf h ≤ hb.length)
    (extra : List Byte) : nibblesAt (hb ++ extra) h = nibblesAt hb h := by
  refine List.map_congr_left fun k hk => nibbleAt_congr (getD_append_left hb extra ?_)
  have lt := List.mem_range.1 hk
  rw [hashLenOf] at long
  omega

/-- Settles O18. -/
theorem trailingBytesIgnored : Obligations.TrailingBytesIgnored := by
  unfold Obligations.TrailingBytesIgnored
  intro hb extra
  have longer : hb.length ≤ (hb ++ extra).length := by rw [List.length_append]; omega
  have agree : ∀ i < hb.length, (hb ++ extra).getD i 0 = hb.getD i 0 :=
    fun i => getD_append_left hb extra
  refine ⟨fun five => ?ratio, fun h header => ?whole⟩
  case ratio =>
    exact aspectRatio_congr
      (unpackFixed_congr five (five.trans longer) fun i hi => agree i (hi.trans_le five))
  case whole =>
    have read := headerBytes_le_length header
    have header' : unpackHeader (hb ++ extra) = .ok h :=
      unpackHeader_congr header (read.trans longer) fun i hi => agree i (hi.trans_le read)
    exact ⟨averageFromHash_congr (header'.trans header.symm), fun long =>
      decodeHash_congr _ header header' long (long.trans longer) (nibblesAt_append long extra)⟩

/-! ### The padding nibble -/

theorem getD_set_ne (hb : List Byte) (b : Byte) {i j : Nat} (ne : j ≠ i) :
    (hb.set i b).getD j 0 = hb.getD j 0 := by
  rw [List.getD_eq_getElem?_getD, List.getD_eq_getElem?_getD, List.getElem?_set_ne ne.symm]

theorem getD_set_self {hb : List Byte} (b : Byte) {i : Nat} (inside : i < hb.length) :
    (hb.set i b).getD i 0 = b := by
  rw [List.getD_eq_getElem?_getD, List.getElem?_set_self inside, Option.getD_some]

/-- R245: an even nibble does not depend on the high half of its byte. -/
theorem nibbleAt_set_even {hb : List Byte} {b : Byte} {start k : Nat} (even : k % 2 = 0)
    (inside : start + k / 2 < hb.length)
    (low : b.setWidth 4 = (hb.getD (start + k / 2) 0).setWidth 4) :
    nibbleAt (hb.set (start + k / 2) b) start k = nibbleAt hb start k := by
  rw [nibbleAt, nibbleAt, getD_set_self b inside, even, Nat.mul_zero, BitVec.ushiftRight_zero,
    BitVec.ushiftRight_zero, low]

/-- R247: the high nibble of the last byte is none of an odd number of nibbles. -/
theorem nibbleAt_set_padding {hb : List Byte} {b : Byte} {start n k : Nat} (odd : n % 2 = 1)
    (hk : k < n) (inside : start + (n - 1) / 2 < hb.length)
    (low : b.setWidth 4 = (hb.getD (start + (n - 1) / 2) 0).setWidth 4) :
    nibbleAt (hb.set (start + (n - 1) / 2) b) start k = nibbleAt hb start k := by
  rcases Nat.lt_or_ge (k / 2) ((n - 1) / 2) with before | inLast
  · exact nibbleAt_congr (getD_set_ne hb b (by omega))
  · obtain rfl : k = n - 1 := by omega
    exact nibbleAt_set_even (by omega) inside low

/-- Settles O19: the byte stands after the header, and what the nibbles read of it is unchanged. -/
theorem paddingNibbleIgnored : Obligations.PaddingNibbleIgnored := by
  unfold Obligations.PaddingNibbleIgnored
  intro hb h b header odd long last low
  have read := headerBytes_le_length header
  have place : last =
      Config.headerBytes h.hasAlpha + (nTotalOf h.hasAlpha (lGridOf h) - 1) / 2 := rfl
  have sameLength : (hb.set last b).length = hb.length := List.length_set
  have header' : unpackHeader (hb.set last b) = .ok h :=
    unpackHeader_congr header (by rwa [sameLength]) fun i hi => getD_set_ne hb b (by omega)
  have inside : last < hb.length := by rw [hashLenOf] at long; omega
  have nibbles : nibblesAt (hb.set last b) h = nibblesAt hb h :=
    List.map_congr_left fun k hk => nibbleAt_set_padding odd (List.mem_range.1 hk) inside low
  obtain ⟨-, fixed⟩ := unpackFixed_of_header header
  obtain ⟨-, fixed'⟩ := unpackFixed_of_header header'
  exact ⟨decodeHash_congr _ header header' long (by rwa [sameLength]) nibbles,
    averageFromHash_congr (header'.trans header.symm), aspectRatio_congr (fixed'.trans fixed.symm)⟩

end Sys2Proof.Machine
end

section
/-! The dequantizer (R260 to R270): how the nibble list is cut, what each channel is made of, the
vectors, and that a hash without alpha decodes opaque (R267). -/

namespace Sys2Proof.Machine

/-! ### The AC list of a channel -/

section ChannelAcs

variable {nx ny : Nat} {nib : List Nibble} (full : nib.length = nac nx ny) (s : F32)

include full

/-- R269: one value for each nibble. -/
theorem deqAcs_values : (deqAcs nx ny s nib).map Prod.snd = nib.map (deqAc s) :=
  List.map_snd_zip (by rw [List.length_map, acScan_length, full])

/-- R270: the values stand at the frequencies of the scan, in its order. -/
theorem deqAcs_frequencies : (deqAcs nx ny s nib).map Prod.fst = acScan nx ny :=
  List.map_fst_zip (by rw [List.length_map, acScan_length, full])

end ChannelAcs

/-! ### The cut of the nibble list -/

/-- R112: the AC counts of the P, Q and A grids. -/
theorem nac_pqGrid : nac Config.pqGrid Config.pqGrid = 5 := by decide

theorem nac_aGrid : nac Config.aGrid Config.aGrid = 14 := by decide

/-- R111: the AC frequencies of the P and Q grids. -/
theorem acScan_pqGrid :
    acScan Config.pqGrid Config.pqGrid = [(1, 0), (2, 0), (0, 1), (1, 1), (0, 2)] := by decide

/-- R113, R114: the number of L nibbles of a header. -/
def lCountOf (h : Header) : Nat := nac (clampGrid (lGridOf h)).1 (clampGrid (lGridOf h)).2

theorem nTotalOf_eq (h : Header) :
    nTotalOf h.hasAlpha (lGridOf h) = lCountOf h + 10 + if h.hasAlpha then 14 else 0 := by
  rw [nTotalOf, nac_pqGrid, nac_aGrid, lCountOf]

section Cut

variable {h : Header} {nib : List Nibble} (count : nib.length = nTotalOf h.hasAlpha (lGridOf h))

include count

theorem lNibbles_length : (nib.take (lCountOf h)).length = lCountOf h := by
  rw [List.length_take, count, nTotalOf_eq]
  omega

/-- The P and the Q nibbles: five of them, from any place up to five past the L nibbles. -/
theorem pqNibbles_length {start : Nat} (le : start ≤ lCountOf h + 5) :
    ((nib.drop start).take 5).length = nac Config.pqGrid Config.pqGrid := by
  rw [List.length_take, List.length_drop, count, nTotalOf_eq, nac_pqGrid]
  omega

theorem aNibbles_length (flag : h.hasAlpha = true) :
    (nib.drop (lCountOf h + 10)).length = nac Config.aGrid Config.aGrid := by
  rw [List.length_drop, count, nTotalOf_eq, if_pos flag, nac_aGrid]
  omega

end Cut

/-! ### The channels -/

theorem dequantize_l (h : Header) (nib : List Nibble) : (dequantize h nib).l =
    ⟨deqLDc h.lDc, deqAcs (clampGrid (lGridOf h)).1 (clampGrid (lGridOf h)).2
      (deqLScale h.lScale) (nib.take (lCountOf h))⟩ := rfl

theorem dequantize_p (h : Header) (nib : List Nibble) : (dequantize h nib).p =
    ⟨deqPqDc h.pDc, deqAcs Config.pqGrid Config.pqGrid (boostedScale h.pScale)
      ((nib.drop (lCountOf h)).take 5)⟩ := by
  rw [← nac_pqGrid]; rfl

theorem dequantize_q (h : Header) (nib : List Nibble) : (dequantize h nib).q =
    ⟨deqPqDc h.qDc, deqAcs Config.pqGrid Config.pqGrid (boostedScale h.qScale)
      ((nib.drop (lCountOf h + 5)).take 5)⟩ := by
  rw [← nac_pqGrid]; rfl

/-- R267: without alpha there is no alpha channel. -/
theorem dequantize_a_of_opaque {h : Header} (flag : h.hasAlpha = false) (nib : List Nibble) :
    (dequantize h nib).a = none := by
  simp [dequantize, flag]

/-- R266: with alpha the channel is made of the fields of the alpha byte. -/
theorem dequantize_a_of_alpha {h : Header} {f : AlphaField} (flag : h.hasAlpha = true)
    (alpha : h.alpha = some f) (nib : List Nibble) : (dequantize h nib).a =
      some ⟨deqAlpha f.aDc, deqAcs Config.aGrid Config.aGrid (deqAlpha f.aScale)
        (nib.drop (lCountOf h + 10))⟩ := by
  simp [dequantize, flag, alphaDcOf, alphaScaleOf, alpha, nac_pqGrid, lCountOf, Nat.add_assoc]

/-! ### The vectors -/

/-- R269: the factors of the sixteen nibbles. -/
theorem deqAc_factors : (List.range 16).map (fun n => deqAc fOne (BitVec.ofNat 4 n)) =
    ([0xBF800000, 0xBF5DDDDE, 0xBF3BBBBC, 0xBF19999A, 0xBEEEEEEE, 0xBEAAAAAA, 0xBE4CCCCC,
      0xBD888888, 0x3D888890, 0x3E4CCCD0, 0x3EAAAAAC, 0x3EEEEEF0, 0x3F19999A, 0x3F3BBBBC,
      0x3F5DDDDE, 0x3F800000] : List F32) := by
  decide +kernel

/-- V-DQ-1: the DC values. -/
theorem deqDc_vectors :
    ([0, 21, 29, 63] : List (BitVec 6)).map deqLDc = [0, 0x3EAAAAAB, 0x3EEBAEBB, 0x3F800000] ∧
    ([0, 31, 32, 63] : List (BitVec 6)).map deqPqDc =
      [0xBF800000, 0xBC820820, 0x3C820840, 0x3F800000] := by
  decide +kernel

/-- V-DQ-1 and the examples of R263, R266 and R268: the scales, with the boost and without, and the
alpha fields. -/
theorem deqScale_vectors :
    ([0, 1, 14, 31] : List (BitVec 5)).map deqLScale = [0, 0x3D042108, 0x3EE739CE, 0x3F800000] ∧
    ([25, 63] : List (BitVec 6)).map deqPqScale = [0x3ECB2CB3, 0x3F800000] ∧
    ([1, 25, 63] : List (BitVec 6)).map boostedScale = [0x3CA28A29, 0x3EFDF7E0, 0x3FA00000] ∧
    ([0, 1, 8, 15] : List (BitVec 4)).map deqAlpha = [0, 0x3D888889, 0x3F088889, 0x3F800000] := by
  decide +kernel

/-- R107: the flag of a well-formed header says whether its alpha byte is there. -/
theorem hasAlpha_eq_isSome {h : Header} (wf : headerWellFormed h = true) :
    h.hasAlpha = h.alpha.isSome := (beq_iff_eq.1 wf).symm

/-- Settles O31: each part of the cut holds exactly as many nibbles as its grid has AC frequencies, so
no value and no frequency is left out. -/
theorem acFactorTable : Obligations.AcFactorTable := by
  unfold Obligations.AcFactorTable
  obtain ⟨lDcs, pqDcs⟩ := deqDc_vectors
  refine ⟨fun h nib wf count => ?channels, deqAc_factors, lDcs, pqDcs, deqScale_vectors⟩
  intro v grid nL pqDc boosted acs
  have fullL := lNibbles_length count
  have fullP := pqNibbles_length count (Nat.le_add_right (lCountOf h) 5)
  have fullQ := pqNibbles_length count (Nat.le_refl (lCountOf h + 5))
  have hl : v.l = _ := dequantize_l h nib
  have hp : v.p = _ := dequantize_p h nib
  have hq : v.q = _ := dequantize_q h nib
  rw [hl, hp, hq]
  refine ⟨rfl, rfl, rfl, deqAcs_values fullL _, deqAcs_values fullP _, deqAcs_values fullQ _,
    deqAcs_frequencies fullL _, ?pPlaces, ?qPlaces, ?withoutAlpha, ?withAlpha⟩
  case pPlaces => exact (deqAcs_frequencies fullP _).trans acScan_pqGrid
  case qPlaces => exact (deqAcs_frequencies fullQ _).trans acScan_pqGrid
  case withoutAlpha =>
    intro absent
    have flag : h.hasAlpha = false := by rw [hasAlpha_eq_isSome wf, absent, Option.isSome_none]
    exact dequantize_a_of_opaque flag nib
  case withAlpha =>
    intro f present
    have flag : h.hasAlpha = true := by rw [hasAlpha_eq_isSome wf, present, Option.isSome_some]
    have fullA := aNibbles_length count flag
    exact ⟨_, dequantize_a_of_alpha flag present nib, rfl, deqAcs_values fullA _,
      deqAcs_frequencies fullA _⟩

/-! ### A hash without alpha -/

/-- R107: without alpha the header of a hash has no alpha byte. -/
theorem alpha_of_opaque {hb : List Byte} {h : Header} (header : unpackHeader hb = .ok h)
    (flag : h.hasAlpha = false) : h.alpha = none := by
  rcases unpackHeader_cases hb with ⟨e, -⟩ | ⟨h', -, -, absent, ⟨-, e⟩ | ⟨flag', -, e⟩⟩ <;>
    rw [e] at header <;> cases header
  · exact absent
  · exact absurd flag (by simp [flag'])

/-- R166: an alpha of 1.0 is the byte 255. -/
theorem byte8_one : byte8 fOne = 255 := by decide +kernel

/-- R267, R285: without an alpha channel every pixel has A byte 255. -/
theorem inverseDct_alpha_of_opaque (cos : F32 → F32) {v : DeqImage} (absent : v.a = none)
    {w h i : Nat} (hi : i < w * h) : (inverseDct cos v w h).getD (4 * i + 3) 0 = 255 := by
  have pos : 0 < w := Nat.pos_of_mul_pos_right (Nat.zero_lt_of_lt hi)
  have place : 4 * i + 3 = 4 * (i % w + i / w * w) + 3 := by rw [Nat.mul_comm _ w, Nat.mod_add_div]
  have row : i / w < h := Nat.div_lt_of_lt_mul hi
  rw [place, inverseDct_getD cos v (Nat.mod_lt i pos) row (by decide), pixelBytes_getD, absent]
  exact byte8_one

/-- Settles O33. -/
theorem opaqueHashDecodesOpaque : Obligations.OpaqueHashDecodesOpaque := by
  unfold Obligations.OpaqueHashDecodesOpaque
  intro hb h header flag
  have absent := alpha_of_opaque header flag
  have dc : alphaDcOf h = fOne := by rw [alphaDcOf, absent]
  have scale : alphaScaleOf h = fOne := by rw [alphaScaleOf, absent]
  refine ⟨dc, scale, dequantize_a_of_opaque flag, ?image, ?average⟩
  case image =>
    intro cos im decoded i hi
    rcases decodeHash_cases cos hb with ⟨-, e⟩ | ⟨_, -, -, e⟩ | ⟨h', im', header', -, e, -, rgba⟩ <;>
      rw [e] at decoded <;> cases decoded
    rw [header] at header'; cases header'
    rw [rgba]
    exact inverseDct_alpha_of_opaque cos (dequantize_a_of_opaque flag _) hi
  case average =>
    intro c peeked
    rw [averageFromHash_of_header header rfl] at peeked
    cases peeked
    exact dc

end Sys2Proof.Machine
end

section
/-! The size of the decoded image (R280) as exactly rounded whole-number arithmetic, though the ratio is
itself a rounded number. No rounding passes a number of the format: this keeps the ratio within 2^-16 of
the exact quotient, and a size that is below a half before the roundings stays below it. No size falls
below a half that it reaches: in the portrait case the ratio that gives a half is a number of the format,
and in the landscape case there is no half, because 64 does not divide a long side below 64. -/

namespace Sys2Proof.Machine

/-! ### Roundings against a number of the format -/

/-- Rounding does not pass a whole number below 2^24 of a power of two from above. -/
theorem le_fUnits_fRound {e n num den : Nat} (he : e ≤ 252) (small : n < 2 ^ 24) (pos : 0 < den)
    (h : n * 2 ^ e * den ≤ num) : n * 2 ^ e ≤ fUnits (fRound false num den) := by
  obtain ⟨M, hM, units⟩ := exists_mag_scaled e he small
  rw [← units] at h ⊢
  rw [fUnits, fRound_mag, magUnits_le_iff]
  exact le_min (le_roundMag pos h) hM.le

/-- Rounding does not pass a whole number below 2^24 of a power of two from below. -/
theorem fUnits_fRound_le {e n num den : Nat} (he : e ≤ 252) (small : n < 2 ^ 24) (pos : 0 < den)
    (h : num ≤ n * 2 ^ e * den) :
    fFinite (fRound false num den) ∧ fUnits (fRound false num den) ≤ n * 2 ^ e := by
  obtain ⟨M, hM, units⟩ := exists_mag_scaled e he small
  rw [← units] at h ⊢
  exact fRound_le_units false pos hM h

/-- R14: a result whose exact value is from k - 1/2 to k + 127/256 is rounded to k. -/
theorem roundHA_fRound {num den k : Nat} (small : k < 2 ^ 15) (pos : 0 < den)
    (below : (2 * k - 1) * 2 ^ 148 * den ≤ num) (above : num ≤ (256 * k + 127) * 2 ^ 141 * den) :
    roundHA (fRound false num den) = f32 k := by
  have lower := le_fUnits_fRound (by norm_num) (by omega) pos below
  obtain ⟨finite, upper⟩ := fUnits_fRound_le (by norm_num) (by omega) pos above
  rw [roundHA_finite finite (fRound_sign _ _ _)]
  congr 1
  omega

/-! ### The ratio of two dimensions -/

section
variable {a b : Nat} (ha : a < 2 ^ 24) (pos : 0 < b) (hb : b < 2 ^ 24)
include ha pos hb

theorem fDiv_f32_eq_fRound :
    fDiv (f32 a) (f32 b) = fRound false (a * 2 ^ 149 * 2 ^ 149) (b * 2 ^ 149) := by
  obtain ⟨sa, fa, ua⟩ := f32_units ha
  obtain ⟨sb, fb, ub⟩ := f32_units hb
  have nonzero : fUnits (f32 b) ≠ 0 := by rw [ub]; positivity
  rw [fDiv_finite fa fb nonzero, sa, sb, ua, ub, bne_self_eq_false]

theorem fDiv_f32_sign : fSign (fDiv (f32 a) (f32 b)) = false := by
  rw [fDiv_f32_eq_fRound ha pos hb, fRound_sign]

/-- The rounded ratio does not pass a multiple of 2^-16 from above. -/
theorem le_fUnits_fDiv_f32 {n : Nat} (small : n < 2 ^ 24) (h : n * b ≤ a * 2 ^ 16) :
    n * 2 ^ 133 ≤ fUnits (fDiv (f32 a) (f32 b)) := by
  rw [fDiv_f32_eq_fRound ha pos hb]
  refine le_fUnits_fRound (by norm_num) small (by positivity) ?_
  calc n * 2 ^ 133 * (b * 2 ^ 149) = n * b * (2 ^ 133 * 2 ^ 149) := by ring
    _ ≤ a * 2 ^ 16 * (2 ^ 133 * 2 ^ 149) := by gcongr
    _ = a * 2 ^ 149 * 2 ^ 149 := by ring

/-- The rounded ratio does not pass a multiple of 2^-16 from below. -/
theorem fUnits_fDiv_f32_le {n : Nat} (small : n < 2 ^ 24) (h : a * 2 ^ 16 ≤ n * b) :
    fFinite (fDiv (f32 a) (f32 b)) ∧ fUnits (fDiv (f32 a) (f32 b)) ≤ n * 2 ^ 133 := by
  rw [fDiv_f32_eq_fRound ha pos hb]
  refine fUnits_fRound_le (by norm_num) small (by positivity) ?_
  calc a * 2 ^ 149 * 2 ^ 149 = a * 2 ^ 16 * (2 ^ 133 * 2 ^ 149) := by ring
    _ ≤ n * b * (2 ^ 133 * 2 ^ 149) := by gcongr
    _ = n * 2 ^ 133 * (b * 2 ^ 149) := by ring

end

/-- A whole number divided by 0 is infinity. -/
theorem fDiv_f32_zero {a : Nat} (pos : 0 < a) (ha : a < 2 ^ 24) :
    fDiv (f32 a) (f32 0) = fPack false infMag := by
  obtain ⟨sa, fa, ua⟩ := f32_units ha
  obtain ⟨s0, f0, u0⟩ := f32_units (n := 0) (by norm_num)
  have nonzero : fIsZero (f32 a) = false := by
    rw [← Bool.not_eq_true, fIsZero_iff, ua]
    positivity
  have zero : fIsZero (f32 0) = true := by rw [fIsZero_iff, u0, Nat.zero_mul]
  simp [fDiv, fIsNaN_of_finite, fIsInf_of_finite, fa, f0, sa, s0, nonzero, zero]

/-- R280: the comparison of a number that is not negative with 1. -/
theorem fLt_fOne_iff {x : F32} (finite : fFinite x) (sign : fSign x = false) :
    fLt fOne x = true ↔ 2 ^ 149 < fUnits x := by
  have one_finite : fFinite fOne := by unfold fFinite; decide
  have one_int : fInt fOne = 2 ^ 149 := by decide +kernel
  rw [fLt_finite_iff one_finite finite, one_int, fInt, sign, if_neg Bool.false_ne_true]
  omega

/-! ### The two roundings of a side -/

/-- R280: what the exactly rounded quotient says of the quotient. -/
theorem half_bounds {n m k : Nat} (pos : 0 < m) (hk : k = (n + m) / (2 * m)) :
    (2 * k - 1) * m ≤ n ∧ n < (2 * k + 1) * m := by
  have lower : k * (2 * m) ≤ n + m := hk ▸ Nat.div_mul_le_self _ _
  have upper : n + m < (k + 1) * (2 * m) := (Nat.div_lt_iff_lt_mul (by omega)).1 (by omega)
  constructor
  · rw [Nat.sub_mul, Nat.sub_le_iff_le_add]
    linarith
  · linarith

/-- R280: a quotient with a divisor below 64 is not half a unit below its rounding. -/
theorem odd_mul_ne {j a b : Nat} (odd : j % 2 = 1) (pos : 0 < a) (ha : a < 64) :
    j * a ≠ 64 * b := by
  intro tie
  have coprime : Nat.Coprime (2 ^ 6) j := (Nat.coprime_two_left.2 (Nat.odd_iff.2 odd)).pow_left 6
  have divides : 2 ^ 6 ∣ a := coprime.dvd_of_dvd_mul_left ⟨b, tie⟩
  have := Nat.le_of_dvd pos divides
  omega

/-- R280, portrait: the short side is 32 times the ratio. -/
theorem roundHA_fMul_ratio {a b : Nat} (le : a ≤ b) (pos : 0 < b) (hb : b < 64) :
    roundHA (fMul (f32 32) (fDiv (f32 a) (f32 b))) = f32 ((64 * a + b) / (2 * b)) := by
  obtain ⟨k, hk⟩ : ∃ k, k = (64 * a + b) / (2 * b) := ⟨_, rfl⟩
  obtain ⟨lower, upper⟩ := half_bounds pos hk
  have k_le : 2 * k - 1 ≤ 64 := Nat.le_of_mul_le_mul_right (by omega : (2 * k - 1) * b ≤ 64 * b) pos
  have below : (2 * k - 1) * 2 ^ 10 * 2 ^ 133 ≤ fUnits (fDiv (f32 a) (f32 b)) :=
    le_fUnits_fDiv_f32 (by omega) pos (by omega) (by omega) (by linarith)
  obtain ⟨finite, above⟩ : fFinite (fDiv (f32 a) (f32 b)) ∧
      fUnits (fDiv (f32 a) (f32 b)) ≤ (256 * k + 127) * 8 * 2 ^ 133 :=
    fUnits_fDiv_f32_le (by omega) pos (by omega) (by omega) (by linarith)
  obtain ⟨s32, finite32, u32⟩ := f32_units (n := 32) (by norm_num)
  rw [fMul_finite finite32 finite, s32, fDiv_f32_sign (by omega) pos (by omega), bne_self_eq_false, u32,
    ← hk]
  refine roundHA_fRound (by omega) (by positivity) ?below ?above
  case below =>
    calc (2 * k - 1) * 2 ^ 148 * 2 ^ 149 = (2 * k - 1) * 2 ^ 10 * 2 ^ 133 * 2 ^ 154 := by ring
      _ ≤ fUnits (fDiv (f32 a) (f32 b)) * 2 ^ 154 := by gcongr
      _ = 32 * 2 ^ 149 * fUnits (fDiv (f32 a) (f32 b)) := by ring
  case above =>
    calc 32 * 2 ^ 149 * fUnits (fDiv (f32 a) (f32 b))
      _ ≤ 32 * 2 ^ 149 * ((256 * k + 127) * 8 * 2 ^ 133) := by gcongr
      _ = (256 * k + 127) * 2 ^ 141 * 2 ^ 149 := by ring

/-- R280, landscape, in whole numbers: for the ratio n / 2^16, rounded down, 32 divided by the next ratio
is not below k - 1/2, and 32 divided by this one is not above k + 127/256. -/
theorem landscape_bounds {a b k n : Nat} (lt : b < a) (pos : 0 < b) (ha : a < 64)
    (hk : k = (64 * b + a) / (2 * a)) (n_le : n * b ≤ a * 2 ^ 16)
    (lt_succ : a * 2 ^ 16 < (n + 1) * b) :
    (2 * k - 1) * (n + 1) ≤ 2 ^ 22 ∧ 2 ^ 29 ≤ (256 * k + 127) * n ∧ k ≤ 32 := by
  obtain ⟨lower, upper⟩ := half_bounds (by omega) hk
  have noTie : (2 * k - 1) * a ≠ 64 * b := by
    rcases Nat.eq_zero_or_pos k with rfl | kpos
    · omega
    · exact odd_mul_ne (by omega) (by omega) ha
  have k_le : 2 * k - 1 ≤ 64 :=
    Nat.le_of_mul_le_mul_right (lower.trans (by omega) : (2 * k - 1) * a ≤ 64 * a) (by omega)
  refine ⟨?below, ?above, by omega⟩
  case below =>
    refine Nat.le_of_mul_le_mul_right (c := b) ?_ pos
    have room : (2 * k - 1) * b ≤ 64 * 64 := Nat.mul_le_mul k_le (by omega)
    calc (2 * k - 1) * (n + 1) * b = (2 * k - 1) * (n * b) + (2 * k - 1) * b := by ring
      _ ≤ (2 * k - 1) * (a * 2 ^ 16) + 64 * 64 := by gcongr
      _ = (2 * k - 1) * a * 2 ^ 16 + 64 * 64 := by ring
      _ ≤ 2 ^ 22 * b := by omega
  case above =>
    refine Nat.le_of_mul_le_mul_right (c := b) (Nat.le_of_add_le_add_right (b := 2 ^ 20) ?_) pos
    have room : (256 * k + 127) * b ≤ 2 ^ 14 * 2 ^ 6 := Nat.mul_le_mul (by omega) (by omega)
    have half : (256 * k + 127) * a + a = (2 * k + 1) * a * 2 ^ 7 := by ring
    calc 2 ^ 29 * b + 2 ^ 20 ≤ (256 * k + 127) * a * 2 ^ 16 := by omega
      _ = (256 * k + 127) * (a * 2 ^ 16) := by ring
      _ ≤ (256 * k + 127) * ((n + 1) * b) := by gcongr
      _ = (256 * k + 127) * n * b + (256 * k + 127) * b := by ring
      _ ≤ (256 * k + 127) * n * b + 2 ^ 20 := by omega

/-- R280, landscape: the short side is 32 divided by the ratio. -/
theorem roundHA_fDiv_ratio {a b : Nat} (lt : b < a) (pos : 0 < b) (ha : a < 64) :
    roundHA (fDiv (f32 32) (fDiv (f32 a) (f32 b))) = f32 ((64 * b + a) / (2 * a)) := by
  obtain ⟨k, hk⟩ : ∃ k, k = (64 * b + a) / (2 * a) := ⟨_, rfl⟩
  obtain ⟨n, hn⟩ : ∃ n, n = a * 2 ^ 16 / b := ⟨_, rfl⟩
  have n_le : n * b ≤ a * 2 ^ 16 := hn ▸ Nat.div_mul_le_self _ _
  have lt_succ : a * 2 ^ 16 < (n + 1) * b := (Nat.div_lt_iff_lt_mul pos).1 (by omega)
  have small : n ≤ a * 2 ^ 16 := hn ▸ Nat.div_le_self _ _
  obtain ⟨product_le, le_product, k_le⟩ := landscape_bounds lt pos ha hk n_le lt_succ
  have below : n * 2 ^ 133 ≤ fUnits (fDiv (f32 a) (f32 b)) :=
    le_fUnits_fDiv_f32 (by omega) pos (by omega) (by omega) n_le
  obtain ⟨finite, above⟩ : fFinite (fDiv (f32 a) (f32 b)) ∧
      fUnits (fDiv (f32 a) (f32 b)) ≤ (n + 1) * 2 ^ 133 :=
    fUnits_fDiv_f32_le (by omega) pos (by omega) (by omega) lt_succ.le
  have n_pos : 0 < n := Nat.pos_of_mul_pos_left (lt_of_lt_of_le (by norm_num) le_product)
  have upos : 0 < fUnits (fDiv (f32 a) (f32 b)) :=
    lt_of_lt_of_le (Nat.mul_pos n_pos (by norm_num)) below
  obtain ⟨s32, finite32, u32⟩ := f32_units (n := 32) (by norm_num)
  rw [fDiv_finite finite32 finite upos.ne', s32, fDiv_f32_sign (by omega) pos (by omega),
    bne_self_eq_false, u32, ← hk]
  refine roundHA_fRound (by omega) upos ?below ?above
  case below =>
    calc (2 * k - 1) * 2 ^ 148 * fUnits (fDiv (f32 a) (f32 b))
      _ ≤ (2 * k - 1) * 2 ^ 148 * ((n + 1) * 2 ^ 133) := by gcongr
      _ = (2 * k - 1) * (n + 1) * (2 ^ 148 * 2 ^ 133) := by ring
      _ ≤ 2 ^ 22 * (2 ^ 148 * 2 ^ 133) := by gcongr
      _ = 32 * 2 ^ 149 * 2 ^ 149 := by ring
  case above =>
    calc 32 * 2 ^ 149 * 2 ^ 149 = 2 ^ 29 * (2 ^ 141 * 2 ^ 133) := by ring
      _ ≤ (256 * k + 127) * n * (2 ^ 141 * 2 ^ 133) := by gcongr
      _ = (256 * k + 127) * 2 ^ 141 * (n * 2 ^ 133) := by ring
      _ ≤ (256 * k + 127) * 2 ^ 141 * fUnits (fDiv (f32 a) (f32 b)) := by gcongr

/-! ### The size -/

theorem outputSize_infinity : outputSize (fPack false infMag) = (32, 0) := by decide +kernel

/-- R280: the size for two dimensions that are not both 0, by exact rounding. -/
theorem outputSize_ratio {a b : Nat} (ha : a < 64) (hb : b < 64) (nonzero : a ≠ 0 ∨ b ≠ 0) :
    outputSize (fDiv (f32 a) (f32 b)) =
      if b < a then (32, (64 * b + a) / (2 * a)) else ((64 * a + b) / (2 * b), 32) := by
  have long : f32 32 = f32 Config.outLong := rfl
  by_cases landscape : b < a
  · rw [if_pos landscape]
    rcases Nat.eq_zero_or_pos b with rfl | pos
    · rw [fDiv_f32_zero (by omega) (by omega), outputSize_infinity, Nat.mul_zero, Nat.zero_add,
        Nat.div_eq_of_lt (by omega)]
    · obtain ⟨finite, -⟩ : fFinite (fDiv (f32 a) (f32 b)) ∧ _ :=
        fUnits_fDiv_f32_le (n := a * 2 ^ 16) (by omega) pos (by omega) (by omega)
          (Nat.le_mul_of_pos_right _ pos)
      have above_one : (2 ^ 16 + 1) * 2 ^ 133 ≤ fUnits (fDiv (f32 a) (f32 b)) :=
        le_fUnits_fDiv_f32 (by omega) pos (by omega) (by omega) (by omega)
      have wide : fLt fOne (fDiv (f32 a) (f32 b)) = true :=
        (fLt_fOne_iff finite (fDiv_f32_sign (by omega) pos (by omega))).2 (by omega)
      rw [outputSize, if_pos wide, ← long, roundHA_fDiv_ratio landscape pos ha,
        toU_f32_small ((Nat.div_le_self _ _).trans_lt (by omega))]
      rfl
  · have pos : 0 < b := by omega
    obtain ⟨finite, at_most_one⟩ : fFinite (fDiv (f32 a) (f32 b)) ∧
        fUnits (fDiv (f32 a) (f32 b)) ≤ 2 ^ 16 * 2 ^ 133 :=
      fUnits_fDiv_f32_le (by omega) pos (by omega) (by norm_num) (by omega)
    have tall : ¬fLt fOne (fDiv (f32 a) (f32 b)) = true := by
      rw [fLt_fOne_iff finite (fDiv_f32_sign (by omega) pos (by omega))]
      omega
    rw [if_neg landscape, outputSize, if_neg tall, ← long,
      roundHA_fMul_ratio (by omega) pos hb,
      toU_f32_small ((Nat.div_le_self _ _).trans_lt (by omega))]
    rfl

/-- Settles O32: the dimensions of a header are at most 7 and not both 0. -/
theorem outputSizeOfEveryHeader : Obligations.OutputSizeOfEveryHeader := by
  unfold Obligations.OutputSizeOfEveryHeader
  intro h
  obtain ⟨hx, hy, nonzero⟩ := lGridOf_bounds h
  exact outputSize_ratio (by omega) (by omega) nonzero

end Sys2Proof.Machine
end

section
/-! Which code each command raises (R302, R303, R307), the length table of R248, and that a hash an
ENCODE has made is long enough for every other command (R343). -/

namespace Sys2Proof.Machine

/-! ### HashLen -/

/-- R248's table: the bytes of a hash by has_alpha and l_min. -/
def hashLenTable (hasAlpha : Bool) (lMin : Nat) : Nat :=
  if hasAlpha then
    if lMin ≤ 3 then 23 else if lMin ≤ 5 then 25 else if lMin = 6 then 28 else 29
  else
    if lMin ≤ 3 then 17 else if lMin = 4 then 19 else if lMin = 5 then 21 else if lMin = 6 then 23
    else 24

/-- R248: the table's rows are the grids of R114 whose long side is the limit, either way round. -/
theorem gridSizes_hashLenTable (a : Bool) : ∀ lMin < 8,
    (gridSizes a (lMaxOf a, lMin)).2.2.2 = hashLenTable a lMin ∧
      (gridSizes a (lMin, lMaxOf a)).2.2.2 = hashLenTable a lMin := by
  cases a <;> decide

theorem hashLenOf_eq_table (h : Header) : hashLenOf h = hashLenTable h.hasAlpha h.lMin.toNat := by
  have bytes : hashLenOf h = (gridSizes h.hasAlpha (lGridOf h)).2.2.2 := rfl
  obtain ⟨wide, tall⟩ := gridSizes_hashLenTable h.hasAlpha h.lMin.toNat h.lMin.isLt
  rw [bytes, lGridOf]
  split
  · exact wide
  · exact tall

/-- No header has a hash of fewer than 17 bytes. -/
theorem hashLenOf_ge (h : Header) : 17 ≤ hashLenOf h := by
  rw [hashLenOf_eq_table, hashLenTable]
  split_ifs <;> omega

/-- HashLen is a function of the fixed fields: the alpha byte's value does not enter it. -/
theorem hashLenOf_of_header {s : State} {h : Header}
    (header : unpackHeader (hashOperand s) = .ok h) :
    5 ≤ s.hashLen.toNat ∧ hashLenOf h = hashLenOf (fixedHeader s) := by
  obtain ⟨five, fixed⟩ := unpackFixed_of_header header
  rw [hashOperand_length] at five
  rw [unpackFixed_hashOperand five] at fixed
  rw [Except.ok.inj fixed]
  exact ⟨five, rfl⟩

/-! ### Reading a hash that is too short -/

section
variable (s : State)

theorem unpackHeader_error_iff :
    unpackHeader (hashOperand s) = .error .tooShort ↔
      s.hashLen.toNat < 5 ∨ ((fixedHeader s).hasAlpha = true ∧ s.hashLen.toNat < 6) := by
  refine ⟨fun failed => ?_, unpackHeader_hashOperand_short⟩
  by_contra long
  rw [not_or, not_and] at long
  obtain ⟨five, six⟩ := long
  rw [unpackHeader_hashOperand (by omega) fun flag => by have := six flag; omega] at failed
  cases failed

theorem averageFromHash_error_iff :
    averageFromHash (hashOperand s) = .error .tooShort ↔
      s.hashLen.toNat < 5 ∨ ((fixedHeader s).hasAlpha = true ∧ s.hashLen.toNat < 6) := by
  rw [← unpackHeader_error_iff]
  rcases averageFromHash_cases (hashOperand s) with ⟨header, e⟩ | ⟨h, header, e⟩ <;>
    simp [header, e]

theorem aspectRatio_error_iff :
    aspectRatio (hashOperand s) = .error .tooShort ↔ s.hashLen.toNat < 5 := by
  rw [← hashOperand_length]
  rcases aspectRatio_cases (hashOperand s) with ⟨short, e⟩ | ⟨long, h, -, e⟩
  · simp only [e, short]
  · simp only [e, reduceCtorEq, false_iff]
    omega

/-- R248, R302: HashLen is above 6, so its test covers the one on the alpha byte. -/
theorem decodeHash_error_iff (cos : F32 → F32) :
    decodeHash cos (hashOperand s) = .error .tooShort ↔
      s.hashLen.toNat < 5 ∨ s.hashLen.toNat < hashLenOf (fixedHeader s) := by
  have least := hashLenOf_ge (fixedHeader s)
  rcases decodeHash_cases cos (hashOperand s) with ⟨header, e⟩ | ⟨h, header, short, e⟩ |
    ⟨h, im, header, long, e, -⟩ <;> rw [e]
  · have short := (unpackHeader_error_iff s).1 header
    exact iff_of_true rfl (by omega)
  · rw [hashOperand_length, (hashLenOf_of_header header).2] at short
    exact iff_of_true rfl (.inr short)
  · obtain ⟨five, bytes⟩ := hashLenOf_of_header header
    rw [hashOperand_length, bytes] at long
    exact iff_of_false nofun (by omega)

end

/-! ### The code of each command -/

/-- The result code a command completes with (R302, R303). -/
def codeRaised (s : State) : Instr → ResultCode
  | .nop => .ok
  | .encode =>
    if ¬contractOk (imgWOf s) (imgHOf s) (inLenOf s) = true then .contractViolation else .ok
  | .decode =>
    if s.hashLen.toNat < 5 ∨ s.hashLen.toNat < hashLenOf (fixedHeader s) then .tooShort else .ok
  | .averageColor =>
    if s.hashLen.toNat < 5 ∨ ((fixedHeader s).hasAlpha = true ∧ s.hashLen.toNat < 6)
    then .tooShort else .ok
  | .aspectRatio => if s.hashLen.toNat < 5 then .tooShort else .ok

/-- A code other than OK is the one raised, and its cause holds. -/
theorem ite_ok_eq_iff {cause : Prop} [Decidable cause] {c c' : ResultCode} (error : c' ≠ .ok) :
    (if cause then c else .ok) = c' ↔ cause ∧ c = c' := by
  by_cases holds : cause
  · simp [holds]
  · simp [holds, error.symm]

theorem exec_err {i : Instr} {s t : State} (h : exec i s = .next t) : t.err = codeRaised s i := by
  rcases exec_cases h with ⟨rfl, rfl⟩ | ⟨rfl, broken, rfl⟩ | ⟨rfl, kept, rfl⟩ | ⟨rfl, e, rfl⟩ |
    ⟨rfl, im, e, rfl⟩ | ⟨rfl, e, rfl⟩ | ⟨rfl, c, e, rfl⟩ | ⟨rfl, e, rfl⟩ | ⟨rfl, r, e, rfl⟩
  · rfl
  · rw [codeRaised, if_pos (by simp [broken])]; rfl
  · rw [codeRaised, if_neg (by simp [kept])]; rfl
  · rw [codeRaised, if_pos ((decodeHash_error_iff s _).1 e)]; rfl
  · rw [codeRaised, if_neg (mt (decodeHash_error_iff s Config.cos32).2 (by simp [e]))]; rfl
  · rw [codeRaised, if_pos ((averageFromHash_error_iff s).1 e)]; rfl
  · rw [codeRaised, if_neg (mt (averageFromHash_error_iff s).2 (by simp [e]))]; rfl
  · rw [codeRaised, if_pos ((aspectRatio_error_iff s).1 e)]; rfl
  · rw [codeRaised, if_neg (mt (aspectRatio_error_iff s).2 (by simp [e]))]; rfl

/-- R307: a command that raises a code takes the error and does nothing else. -/
theorem exec_error_frame {i : Instr} {s t : State} (h : exec i s = .next t) (raised : t.err ≠ .ok) :
    t = { s with err := t.err, done := true, phase := .idle } := by
  rcases exec_writes h with ⟨e, rfl⟩ | ⟨u, -, rfl⟩
  · rfl
  · exact absurd (State.complete_err u .ok) raised

/-- R142, R303: the operands that break one of ENCODE's preconditions. -/
theorem not_contractOk_iff (w h n : Nat) :
    ¬contractOk w h n = true ↔ 100 < w ∨ 100 < h ∨ w = 0 ∨ h = 0 ∨ n ≠ w * h * 4 := by
  rw [contractOk_iff]
  by_cases len : n = w * h * 4
  · simp only [len, ne_eq, not_true_eq_false, and_true, or_false]
    omega
  · simp [len]

/-- Settles O11: of the codes the commands raise, ContractViolation is ENCODE's alone. -/
theorem contractViolationCauses : Obligations.ContractViolationCauses := by
  unfold Obligations.ContractViolationCauses
  intro i s t h
  rw [exec_err h]
  have causes : _ ↔ 100 < s.imgW.toNat ∨ 100 < s.imgH.toNat ∨ s.imgW.toNat = 0 ∨
      s.imgH.toNat = 0 ∨ s.inLen.toNat ≠ s.imgW.toNat * s.imgH.toNat * 4 :=
    not_contractOk_iff (imgWOf s) (imgHOf s) (inLenOf s)
  rw [← causes]
  cases i with
  | nop => simp [codeRaised]
  | encode | decode | averageColor | aspectRatio =>
    rw [codeRaised, ite_ok_eq_iff (by decide)]
    simp

/-- Settles O13. -/
theorem errorsWriteNoOutput : Obligations.ErrorsWriteNoOutput := by
  unfold Obligations.ErrorsWriteNoOutput
  exact ⟨fun _ _ _ => exec_error_frame, fun _ => rfl⟩

/-- Settles O12. -/
theorem tooShortCauses : Obligations.TooShortCauses := by
  unfold Obligations.TooShortCauses
  refine ⟨fun i s t h => ⟨?causes, fun short => ?frame⟩,
    fun h => ⟨hashLenOf_eq_table h, rfl⟩, fun hasAlpha g => ?total⟩
  case causes =>
    have flag : (fixedHeader s).hasAlpha = decide (128 ≤ (s.readByte 0x102).toNat) :=
      fixedHeader_hasAlpha s
    have bytes : hashLenOf (fixedHeader s) =
        hashLenTable (fixedHeader s).hasAlpha ((s.readByte 0x103).toNat % 8) := by
      rw [hashLenOf_eq_table, fixedHeader_lMin]; rfl
    change _ ↔ (_ ∧ (_ ∨ _ < hashLenTable _ _)) ∨ _
    rw [exec_err h, ← flag, ← bytes]
    cases i with
    | nop => simp [codeRaised]
    | encode | decode | averageColor | aspectRatio =>
      rw [codeRaised, ite_ok_eq_iff (by decide)]
      simp
  case frame =>
    have frame := exec_error_frame h (by rw [short]; decide)
    rwa [short] at frame
  case total => rw [nTotalOf, nac_pqGrid, nac_aGrid]; rfl

/-! ### The hash an ENCODE has made -/

/-- R302: with at least 6 bytes, and HashLen of them, no command but ENCODE raises a code. -/
theorem codeRaised_of_long {s : State} (six : 6 ≤ s.hashLen.toNat)
    (long : hashLenOf (fixedHeader s) ≤ s.hashLen.toNat) {i : Instr} (hi : i ≠ .encode) :
    codeRaised s i = .ok := by
  cases i with
  | nop => rfl
  | encode => exact absurd rfl hi
  | decode | averageColor | aspectRatio => rw [codeRaised, if_neg (by omega)]

/-- R143, R230: the header of an encoded hash reads back. -/
theorem unpackHeader_encodeHash (cos : F32 → F32) (w h : Nat) (px : List Byte) :
    unpackHeader (encodeHash cos w h px) =
      .ok (headerOf (transform cos w h (toPixels px)) w h) := by
  rw [encodeHash, ← List.append_nil (pack _ _)]
  exact unpackHeader_pack (headerOf_wellFormed _ w h) _ []

/-- R115, R143: after a successful ENCODE, HASH_LEN is HashLen of the header in HASHBUF. -/
theorem hashLen_of_encode_ok {s t : State} (h : exec .encode s = .next t) (ok : t.err = .ok) :
    17 ≤ t.hashLen.toNat ∧ hashLenOf (fixedHeader t) = t.hashLen.toNat := by
  obtain ⟨hw, hh, hw0, hh0, -⟩ := (contractOk_iff _ _ _).1 (contractOk_of_encode_ok h ok)
  have operand := hashOperand_of_encode_ok h ok
  obtain ⟨-, least, -, bytes⟩ := encodedHashLength (imgWOf s) (imgHOf s) (pixelOperand s)
    (Nat.pos_of_ne_zero hw0) hw (Nat.pos_of_ne_zero hh0) hh
  rw [← operand, hashOperand_length] at least bytes
  have header := unpackHeader_encodeHash Config.cos32 (imgWOf s) (imgHOf s) (pixelOperand s)
  rw [← operand] at header
  exact ⟨least, (hashLenOf_of_header header).2.symm.trans bytes.symm⟩

/-- Settles O23: HASH_LEN is what the header asks for, and at least 17. -/
theorem encodedHashDecodes : Obligations.EncodedHashDecodes := by
  unfold Obligations.EncodedHashDecodes
  intro s t encoded ok i hi
  obtain ⟨least, bytes⟩ := hashLen_of_encode_ok encoded ok
  obtain ⟨u, hu⟩ := exec_next i t
  exact ⟨u, hu, (exec_err hu).trans (codeRaised_of_long (by omega) bytes.le hi)⟩

end Sys2Proof.Machine
end

section
/-! The interrupt line, and that a running command completes (R50, R310, R350). -/

namespace Sys2Proof.Machine

/-! ### The completion step -/

theorem exec_doneIe {i : Instr} {s t : State} (h : exec i s = .next t) : t.doneIe = s.doneIe := by
  rw [exec_frame h]

theorem exec_rst {i : Instr} {s t : State} (h : exec i s = .next t) : t.rst = s.rst := by
  rw [exec_frame h]

theorem exec_phase {i : Instr} {s t : State} (h : exec i s = .next t) : t.phase = .idle := by
  rw [exec_frame h]

/-- R50: what every due step does, whether its word is a command or illegal. -/
theorem step_due {s t : State} (busy : s.phase = .busy) (released : s.rst = false)
    (due : s.wait = 0) (h : step s = .next t) :
    t.phase = .idle ∧ t.done = true ∧ t.doneIe = s.doneIe := by
  rcases step_cases h with ⟨-, -, -, ⟨i, -, hx⟩ | ⟨e, -, rfl⟩⟩ | ⟨notDue, -⟩
  · exact ⟨exec_phase hx, exec_done hx, exec_doneIe hx⟩
  · exact ⟨rfl, rfl, rfl⟩
  · exact absurd ⟨busy, released, due⟩ notDue

/-! ### The interrupt line -/

theorem irq_of_done {s : State} (done : s.done = true) : s.irq = s.doneIe := by
  rw [State.irq, done, Bool.true_and]

theorem irq_of_not_done {s : State} (cleared : s.done = false) : s.irq = false := by
  rw [State.irq, cleared, Bool.false_and]

theorem irq_of_masked {s : State} (masked : s.doneIe = false) : s.irq = false := by
  rw [State.irq, masked, Bool.and_false]

/-- Settles O47: DONE by the completion step, by STATUS and by the acceptance; DONE_IE by IRQ_EN. -/
theorem interruptLine : Obligations.InterruptLine := by
  unfold Obligations.InterruptLine
  refine ⟨fun _ => rfl, fun i s t h => ?command, fun s t h => ?illegal,
    fun s t busy released due h => ?due, fun s v released one => ?cleared,
    fun s v released idle => ?accepted, fun s v released off => ?masked,
    fun s v released on done => ?enabled, fun s => rfl, rfl⟩
  case command => exact ⟨exec_done h, (irq_of_done (exec_done h)).trans (exec_doneIe h)⟩
  case illegal =>
    rw [completeIllegal, finish_error, Host.Outcome.next.injEq] at h
    subst h
    exact ⟨rfl, irq_of_done rfl⟩
  case due =>
    obtain ⟨-, done, same⟩ := step_due busy released due h
    exact ⟨done, (irq_of_done done).trans same⟩
  case cleared =>
    rw [memWrite_reg (r := .status) released rfl (.inr rfl)]
    exact irq_of_not_done (by simp [writeReg, one])
  case accepted =>
    rw [memWrite_reg (r := .cmd) released rfl (.inl idle), writeReg, offerCommand_idle idle]
    exact irq_of_not_done rfl
  case masked =>
    rw [memWrite_reg (r := .irqEn) released rfl (.inr rfl)]
    exact irq_of_masked off
  case enabled =>
    rw [memWrite_reg (r := .irqEn) released rfl (.inr rfl)]
    exact (irq_of_done (s := writeReg s v .irqEn) done).trans on

/-! ### What the host leaves unchanged -/

/-- No access changes the level of the reset input. -/
@[simp] theorem memWrite_rst (s : State) (o : Offset) (n : Nat) (v : Word) :
    (memWrite s o n v).1.rst = s.rst := by
  rcases memWrite_cases s o n v with ⟨-, e⟩ | ⟨-, -, -, -, e⟩ |
    ⟨-, -, -, ⟨-, r, -, e⟩ | ⟨-, e⟩ | ⟨-, -, e⟩⟩ <;> rw [e]
  case inr.inr.inl =>
    cases r
    case cmd => simp only [writeReg, State.offerCommand]; split <;> rfl
    all_goals rfl
  all_goals rfl

/-- The host's program is fixed. -/
theorem hostOp_prog (s : State) (op : HostOp) : (hostOp s op).host.prog = s.host.prog := by
  cases op with
  | read a n x => rw [hostOp, receive_host, memRead_host]; rfl
  | write a n v => rw [hostOp, acknowledge_host, memWrite_host]; rfl
  | readAddr addr n x =>
    rw [hostOp]
    cases windowOffset addr with
    | none => rfl
    | some a => rw [platformRead, receive_host, memRead_host]; rfl
  | writeAddr addr n v =>
    rw [hostOp]
    cases windowOffset addr with
    | none => rfl
    | some a => rw [platformWrite, acknowledge_host, memWrite_host]; rfl
  | label l => rfl
  | bnz x l => rw [hostOp]; split <;> rfl
  | andImm x v => rfl
  | waitIrq => rw [hostOp]; split <;> rfl
  | rst level => cases level <;> rfl

/-! ### A running command -/

/-- A command runs, with k bus cycles left before its completion step (R350). -/
structure Running (k : Nat) (s : State) : Prop where
  busy : s.phase = .busy
  released : s.rst = false
  left : s.wait = k

/-- R350: only the assertion of reset can stop a running command or change its latency. -/
theorem hostOp_running {k : Nat} {s : State} (running : Running k s) {op : HostOp}
    (hop : op ≠ .rst true) : Running k (hostOp s op) := by
  refine hostOp_keeps (P := Running k) ?uncounted ?write ?release hop running
  case uncounted => exact fun _ _ _ ⟨busy, released, left⟩ => ⟨busy, released, left⟩
  case release => exact fun _ ⟨busy, _, left⟩ => ⟨busy, rfl, left⟩
  case write =>
    rintro s o n v ⟨busy, released, left⟩
    rcases memWrite_sequencer s o n v with ⟨idle, -⟩ | ⟨phase, -, wait, -⟩
    · rw [busy] at idle; cases idle
    · exact ⟨phase.trans busy, (memWrite_rst s o n v).trans released, wait.trans left⟩

/-- R350: a step before the completion step is due takes one bus cycle of the latency. -/
theorem step_running {k : Nat} {s : State} (running : Running (k + 1) s)
    (noReset : HostOp.rst true ∉ s.host.prog) :
    ∃ t, step s = .next t ∧ Running k t ∧ HostOp.rst true ∉ t.host.prog := by
  obtain ⟨busy, released, left⟩ := running
  have ticked : Running k (tick s) := ⟨busy, released, by rw [tick_wait, left]; rfl⟩
  refine ⟨_, step_host fun due => by omega, ?_⟩
  rcases hostStep_cases (tick s) with ⟨-, e⟩ | ⟨op, mem, -, e⟩ <;> rw [e]
  · exact ⟨ticked, noReset⟩
  · refine ⟨hostOp_running ticked fun reset => noReset (reset ▸ mem), ?_⟩
    rw [hostOp_prog]
    exact noReset

/-- A run goes on from the state its first step gives. -/
theorem run_succ_of_step {s t : State} (h : step s = .next t) (k : Nat) :
    Sys2Proof.core.run (k + 1) s = Sys2Proof.core.run k t := by
  have first : Sys2Proof.core.step s = .next t := h
  simp only [Host.Core.run, first]

theorem run_running {k : Nat} {s : State} (running : Running k s)
    (noReset : HostOp.rst true ∉ s.host.prog) :
    ∃ t, Sys2Proof.core.run (k + 1) s = .next t ∧ t.phase = .idle ∧ t.done = true := by
  induction k generalizing s with
  | zero =>
    obtain ⟨t, ht⟩ := step_next s
    obtain ⟨idle, done, -⟩ := step_due running.busy running.released running.left ht
    exact ⟨t, run_succ_of_step ht 0, idle, done⟩
  | succ k ih =>
    obtain ⟨t, ht, runs, noReset'⟩ := step_running running noReset
    rw [run_succ_of_step ht]
    exact ih runs noReset'

/-- Settles O53, by induction on the latency left. -/
theorem busyCommandCompletes : Obligations.BusyCommandCompletes := by
  unfold Obligations.BusyCommandCompletes
  exact fun s busy released => run_running ⟨busy, released, rfl⟩

end Sys2Proof.Machine
end

section
/-! The reset input: what it does to the block, and what the host sees of it (R51, R330 to R332). -/

namespace Sys2Proof.Machine

/-! ### While reset is asserted -/

section
variable {s t : State} (asserted : s.rst = true)

include asserted

/-- R330: while reset is asserted every read gets a bus error. -/
theorem memRead_of_rst (o : Offset) (n : Nat) : memRead s o n = (s, ⟨true, 0⟩) := by
  rw [memRead, asserted]; rfl

/-- R330: while reset is asserted every write gets a bus error. -/
theorem memWrite_of_rst (o : Offset) (n : Nat) (v : Word) : memWrite s o n v = (s, ⟨true, 0⟩) := by
  rw [memWrite, asserted]; rfl

/-- R330: while reset is asserted the host reaches nothing of the block. -/
theorem hostOp_of_rst {op : HostOp} (hop : op ≠ .rst true) :
    (hostOp s op).block = s.block ∧ (hostOp s op).resets = s.resets := by
  obtain ⟨h, e | e | ⟨o, n, v, e⟩ | ⟨e, -⟩ | ⟨-, e⟩⟩ := hostOp_cases s op
  · rw [e]; exact ⟨rfl, rfl⟩
  · rw [e]; exact ⟨rfl, rfl⟩
  · rw [e, memWrite_of_rst asserted]; exact ⟨rfl, rfl⟩
  · exact absurd e hop
  · rw [e]; exact ⟨rfl, rfl⟩

/-- R330, R331: a step while reset is asserted leaves the block in its reset state; the step that
releases reset counts no reset. -/
theorem step_of_rst (held : s.block = State.reset) (h : step s = .next t) :
    t.block = State.reset ∧ (t.rst = false → t.resets = s.resets) := by
  have ticked : (tick s).block = State.reset := by
    have noWait : s.wait = 0 := congrArg State.wait held
    have same : (tick s).block = { s.block with wait := s.wait - 1 } := rfl
    rw [same, held, noWait]
    rfl
  rcases step_cases h with ⟨-, released, -⟩ | ⟨-, rfl⟩
  · rw [asserted] at released; cases released
  · rcases hostStep_cases (tick s) with ⟨-, e⟩ | ⟨op, -, -, e⟩ <;> rw [e]
    · exact ⟨ticked, fun _ => rfl⟩
    · by_cases hop : op = .rst true
      · subst hop
        exact ⟨rfl, fun released => absurd rfl (hostOp_rst_level released)⟩
      · obtain ⟨block, resets⟩ := hostOp_of_rst (s := tick s) asserted hop
        exact ⟨block.trans ticked, fun _ => resets⟩

end

/-- R330: a step that asserts reset gives the block its reset state, whatever it did before. -/
theorem step_asserts {s t : State} (released : s.rst = false) (h : step s = .next t)
    (asserted : t.rst = true) : t.block = State.reset := by
  have level : ∀ {op}, op ≠ .rst true → (hostOp (tick s) op).rst = false := fun hop =>
    hostOp_keeps (P := fun u => u.rst = false) (fun _ _ _ => id)
      (fun u o n v hu => (memWrite_rst u o n v).trans hu) (fun _ _ => rfl) hop released
  rw [← Bool.not_eq_false] at asserted
  rcases step_cases h with ⟨-, -, -, ⟨i, -, hx⟩ | ⟨e, -, rfl⟩⟩ | ⟨-, rfl⟩
  · exact absurd ((exec_rst hx).trans released) asserted
  · exact absurd released asserted
  · rcases hostStep_cases (tick s) with ⟨-, e⟩ | ⟨op, -, -, e⟩ <;> rw [e] at asserted ⊢
    · exact absurd released asserted
    · by_cases hop : op = .rst true
      · subst hop; rfl
      · exact absurd (level hop) asserted

/-- Settles O59. -/
theorem stepKeepsResetHeld : Obligations.StepKeepsResetHeld := by
  unfold Obligations.StepKeepsResetHeld
  intro s t held h asserted
  cases before : s.rst with
  | false => exact step_asserts before h asserted
  | true => exact (step_of_rst before (held before) h).1

/-! ### The reset state as the host sees it -/

theorem readReg_block (s : State) (r : Reg) : readReg s.block r = readReg s r := by
  cases r <;> rfl

/-- R51: with reset released, a block in its reset state answers the register reads of R51. -/
theorem memRead_of_block_reset {t : State} (released : t.rst = false)
    (reset : t.block = State.reset) {o : Offset} (register : o.toNat < 0x100) (n : Nat) :
    (memRead t o n).2 = (memRead State.reset o n).2 := by
  by_cases ok : accessOk o n = true
  · have region : regionOf o.toNat = .regs := by
      rw [regionOf_regs]
      have := accessOk_iff.1 ok
      omega
    obtain ⟨-, r, hr⟩ := accessOk_reg ok region
    have ho : o.toNat = regOffset r := (regAt_iff _ _).1 hr
    have idle : t.phase = .idle := congrArg State.phase reset
    rw [memRead_value released ok (.inl idle), memRead_value rfl ok (.inl rfl), readData_reg _ ho,
      readData_reg _ ho, ← readReg_block, reset]
  · rw [memRead_of_not_ok _ ok, memRead_of_not_ok _ ok]

/-- R52, R332: with no byte listed every byte reads as unwritten. -/
theorem readByte_of_empty {t : State} (empty : t.mem = []) (a : Nat) :
    t.readByte a = Config.unwrittenByte t.resets a := by
  rw [State.readByte, empty, lookupByte_nil]

/-- Settles O55. -/
theorem resetAbandonsCommand : Obligations.ResetAbandonsCommand := by
  unfold Obligations.ResetAbandonsCommand
  refine ⟨fun s => ⟨rfl, rfl, rfl, fun a => readByte_of_empty rfl a, fun o n v => ?errors⟩,
    fun s t asserted held h released => ?release⟩
  case errors =>
    have level : (hostOp s (.rst true)).rst = true := rfl
    rw [memRead_of_rst level, memWrite_of_rst level]
    exact ⟨rfl, rfl, rfl⟩
  case release =>
    obtain ⟨block, resets⟩ := step_of_rst asserted (held asserted) h
    have line : t.block.irq = State.reset.irq := congrArg State.irq block
    have empty : t.block.mem = State.reset.mem := congrArg State.mem block
    exact ⟨block, line, resets released,
      fun o register n => memRead_of_block_reset released block register n, readByte_of_empty empty⟩

end Sys2Proof.Machine
end
